-- ==== Sys2Proof/Word.lean ====
section
/-! DEFINITION. The machine's word types (00_scope.md R7, R9). -/
namespace Sys2Proof

/-- An 8-bit memory cell or instruction field (R9). -/
abbrev Byte := BitVec 8

/-- A `Word32`: integer registers, `pc`, addresses, instruction words (R7 `XLEN`, `ILEN`). -/
abbrev Word := BitVec 32

/-- The 24-bit literal of format LIT24 (30_encoding.md R96). -/
abbrev Lit24 := BitVec 24

/-- A binary64 pattern, the content of a float register (R7 `FLEN`, 46_extended_float.md R260). -/
abbrev F64 := BitVec 64

/-- A binary32 pattern, the form of a float literal (30_encoding.md R99). -/
abbrev F32 := BitVec 32

end Sys2Proof
end

