-- ==== Sys2Proof/Config.lean ====
section
/-! DEFINITION. The parameters of 00_scope.md R7 and the free values the spec leaves open.
A free value is an opaque constant: nothing can be proved of the value it gives. The default numbering,
`Config.opcN` and `Config.opcX`, stands beside the decoder in Sys2Proof/Decode.lean. -/
namespace Sys2Proof

/-! ## The numbering of the opcode tables (R7: `OPC_N`, `OPC_X`) -/

/-- The 49 names of the normal table (30_encoding.md R105). -/
inductive NormalOp where
  | andR
  | orR
  | xorR
  | llshR
  | alshR
  | lrshR
  | arshR
  | andI
  | orI
  | xorI
  | llshI
  | alshI
  | lrshI
  | arshI
  | move
  | notR
  | loadAtAddr
  | storeAtAddr
  | ldImA
  | ldImB
  | ldImX
  | incA
  | incB
  | incX
  | addDsi
  | subDsi
  | multDsi
  | addDss
  | subDss
  | multDss
  | bnch
  | jmp
  | bnchWithOffset
  | jmpWithOffset
  | halt
  | testEq
  | testNeq
  | testCtrlNeg
  | popcnt
  | printIR
  | putcR
  | callFnI
  | ret
  | regPush
  | regPop
  | rndSeed
  | rndNum
  | sqrtRI
  | extInstr
deriving DecidableEq, Repr

/-- The 9 names of the extended table (30_encoding.md R106). -/
inductive ExtendedOp where
  | faddDsi
  | fsubDsi
  | fmultDsi
  | faddDss
  | fsubDss
  | fmultDss
  | fsqrtRI
  | loadFimFa
  | loadFimFb
deriving DecidableEq, Repr

/-- An assignment of opcode bytes to the names of the two tables (R7). -/
structure Opcodes where
  /-- `OPC_N`. -/
  normal : NormalOp → Byte
  /-- `OPC_X`. -/
  extended : ExtendedOp → Byte

/-- Each of the two maps is injective, as R7 demands. The two tables are separate opcode spaces
(30_encoding.md R104). -/
def Opcodes.Injective (m : Opcodes) : Prop :=
  (∀ o p, m.normal o = m.normal p → o = p) ∧ (∀ o p, m.extended o = m.extended p → o = p)

end Sys2Proof

namespace Sys2Proof.Config

/-! ## The other parameters and the free values -/

/-- `BOOT_ADDR` (R7, 20_memory.md R75). -/
def bootAddr : Word := 0xF000#32

/-- `MEM_SIZE` at the spec's default (R7, 20_memory.md R61). DESIGN CHOICE, log 2: unsafe. -/
def memSize : Nat := 0x10000

/-- `SP_INIT`, open in the spec with no default (R7, 10_state.md R46). DESIGN CHOICE, log 3: unsafe. -/
def spInit : Word := 0#32

/-- The value `ra` holds at construction, unspecified in the spec (10_state.md R46).
DESIGN CHOICE, log 4: unsafe. -/
def raInit : Word := 0#32

/-- The value `fa`, `fb`, `fx` hold at construction, unspecified in the spec (10_state.md R46).
DESIGN CHOICE, log 5: unsafe. -/
def floatInit : F64 := 0#64

/-- The operations whose NaN result has an open sign and payload (93_implementation_defined.md U9). -/
inductive NanSource where
  | add
  | sub
  | mul
  | sqrt
  | widen
deriving DecidableEq, Repr

/-- The open sign (bit 52) and fraction (bits 51:0) of a NaN result (46_extended_float.md R261, U9),
for the operation, the count of earlier draws and the operands. Free value, log 8. -/
opaque nanChoice : NanSource → Nat → F64 → F64 → BitVec 53

/-- The parameter `PRNG` (R7, 10_state.md R41): the number drawn after `n` earlier draws since the last
`RND_SEED` of value `v` (`some v`), or since `PRNG_RESET` (`none`). Free value, log 7. -/
opaque prngValue : Option Word → Nat → Word

/-- What `reset()` leaves in `ra`, which the spec leaves unspecified (70_reset_and_hazards.md R321).
Free value, log 6. -/
opaque resetRa : Nat → Word

/-- What `reset()` leaves in `fa`, unspecified in the spec (R321). Free value, log 6. -/
opaque resetFa : Nat → F64

/-- What `reset()` leaves in `fb`, unspecified in the spec (R321). Free value, log 6. -/
opaque resetFb : Nat → F64

/-- What `reset()` leaves in `fx`, unspecified in the spec (R321). Free value, log 6. -/
opaque resetFx : Nat → F64

end Sys2Proof.Config
end

