-- ==== Sys2Proof/Syntax.lean ====
section
/-! DEFINITION. The instructions, one constructor per row of spec/opcode_table.json, with the fields
of 30_encoding.md R92 to R97 as they stand in the word (register fields are the raw 8-bit indices;
their resolution can raise InvalidRegister, R100, R101). -/
namespace Sys2Proof

/-- The class of a register table (00_scope.md R13). -/
inductive RegClass where
  | int
  | float
deriving DecidableEq, Repr

/-- The integer register table (10_state.md R21). -/
inductive IReg where
  | z
  | a
  | b
  | x
  | sp
  | ra
deriving DecidableEq, Repr

/-- The float register table (10_state.md R28). -/
inductive FReg where
  | f0
  | fa
  | fb
  | fx
deriving DecidableEq, Repr

/-- An instruction of either opcode table (30_encoding.md R105, R106). -/
inductive Instr where
  /-- `AND_R`, format DSS (41_logic_shift_move.md R162). -/
  | andR (dest : Byte) (src1 : Byte) (src2 : Byte)
  /-- `OR_R`, format DSS (41_logic_shift_move.md R163). -/
  | orR (dest : Byte) (src1 : Byte) (src2 : Byte)
  /-- `XOR_R`, format DSS (41_logic_shift_move.md R164). -/
  | xorR (dest : Byte) (src1 : Byte) (src2 : Byte)
  /-- `LLSH_R`, format DSS (41_logic_shift_move.md R165). -/
  | llshR (dest : Byte) (src1 : Byte) (src2 : Byte)
  /-- `ALSH_R`, format DSS (41_logic_shift_move.md R166). -/
  | alshR (dest : Byte) (src1 : Byte) (src2 : Byte)
  /-- `LRSH_R`, format DSS (41_logic_shift_move.md R167). -/
  | lrshR (dest : Byte) (src1 : Byte) (src2 : Byte)
  /-- `ARSH_R`, format DSS (41_logic_shift_move.md R168). -/
  | arshR (dest : Byte) (src1 : Byte) (src2 : Byte)
  /-- `AND_I`, format DSI (41_logic_shift_move.md R169). -/
  | andI (dest : Byte) (src : Byte) (imm8 : Byte)
  /-- `OR_I`, format DSI (41_logic_shift_move.md R170). -/
  | orI (dest : Byte) (src : Byte) (imm8 : Byte)
  /-- `XOR_I`, format DSI (41_logic_shift_move.md R171). -/
  | xorI (dest : Byte) (src : Byte) (imm8 : Byte)
  /-- `LLSH_I`, format DSI (41_logic_shift_move.md R172). -/
  | llshI (dest : Byte) (src : Byte) (imm8 : Byte)
  /-- `ALSH_I`, format DSI (41_logic_shift_move.md R173). -/
  | alshI (dest : Byte) (src : Byte) (imm8 : Byte)
  /-- `LRSH_I`, format DSI (41_logic_shift_move.md R174). -/
  | lrshI (dest : Byte) (src : Byte) (imm8 : Byte)
  /-- `ARSH_I`, format DSI (41_logic_shift_move.md R175). -/
  | arshI (dest : Byte) (src : Byte) (imm8 : Byte)
  /-- `MOVE`, format DS (41_logic_shift_move.md R176). -/
  | move (dest : Byte) (src : Byte)
  /-- `NOT_R`, format DS (41_logic_shift_move.md R177). -/
  | notR (dest : Byte) (src : Byte)
  /-- `LOAD_AT_ADDR`, format DS (42_memory_stack.md R190). -/
  | loadAtAddr (dest : Byte) (src : Byte)
  /-- `STORE_AT_ADDR`, format DS (42_memory_stack.md R191). -/
  | storeAtAddr (dest : Byte) (src : Byte)
  /-- `LD_IM_A`, format LIT24 (43_arithmetic.md R201). -/
  | ldImA (lit24 : Lit24)
  /-- `LD_IM_B`, format LIT24 (43_arithmetic.md R202). -/
  | ldImB (lit24 : Lit24)
  /-- `LD_IM_X`, format LIT24 (43_arithmetic.md R203). -/
  | ldImX (lit24 : Lit24)
  /-- `INC_A`, format NONE (43_arithmetic.md R204). -/
  | incA
  /-- `INC_B`, format NONE (43_arithmetic.md R205). -/
  | incB
  /-- `INC_X`, format NONE (43_arithmetic.md R206). -/
  | incX
  /-- `ADD_DSI`, format DSI (43_arithmetic.md R207). -/
  | addDsi (dest : Byte) (src : Byte) (imm8 : Byte)
  /-- `SUB_DSI`, format DSI (43_arithmetic.md R208). -/
  | subDsi (dest : Byte) (src : Byte) (imm8 : Byte)
  /-- `MULT_DSI`, format DSI (43_arithmetic.md R209). -/
  | multDsi (dest : Byte) (src : Byte) (imm8 : Byte)
  /-- `ADD_DSS`, format DSS (43_arithmetic.md R210). -/
  | addDss (dest : Byte) (src1 : Byte) (src2 : Byte)
  /-- `SUB_DSS`, format DSS (43_arithmetic.md R211). -/
  | subDss (dest : Byte) (src1 : Byte) (src2 : Byte)
  /-- `MULT_DSS`, format DSS (43_arithmetic.md R212). -/
  | multDss (dest : Byte) (src1 : Byte) (src2 : Byte)
  /-- `BNCH`, format LIT24 (44_control.md R232). -/
  | bnch (lit24 : Lit24)
  /-- `JMP`, format LIT24 (44_control.md R230). -/
  | jmp (lit24 : Lit24)
  /-- `BNCH_WITH_OFFSET`, format LIT24 (44_control.md R233). -/
  | bnchWithOffset (lit24 : Lit24)
  /-- `JMP_WITH_OFFSET`, format LIT24 (44_control.md R231). -/
  | jmpWithOffset (lit24 : Lit24)
  /-- `HALT`, format NONE (44_control.md R236). -/
  | halt
  /-- `TEST_EQ`, format PAIR (44_control.md R237). -/
  | testEq (lhs : Byte) (rhs : Byte)
  /-- `TEST_NEQ`, format PAIR (44_control.md R238). -/
  | testNeq (lhs : Byte) (rhs : Byte)
  /-- `TEST_CTRL_NEG`, format NONE (44_control.md R239). -/
  | testCtrlNeg
  /-- `POPCNT`, format DS (41_logic_shift_move.md R178). -/
  | popcnt (dest : Byte) (src : Byte)
  /-- `PRINT_I_R`, format SINGLE (45_io.md R251). -/
  | printIR (reg : Byte)
  /-- `PUTC_R`, format SINGLE (45_io.md R252). -/
  | putcR (reg : Byte)
  /-- `CALL_FN_I`, format LIT24 (44_control.md R234). -/
  | callFnI (lit24 : Lit24)
  /-- `RET`, format NONE (44_control.md R235). -/
  | ret
  /-- `REG_PUSH`, format SINGLE (42_memory_stack.md R192). -/
  | regPush (reg : Byte)
  /-- `REG_POP`, format SINGLE (42_memory_stack.md R193). -/
  | regPop (reg : Byte)
  /-- `RND_SEED`, format SINGLE (43_arithmetic.md R214). -/
  | rndSeed (reg : Byte)
  /-- `RND_NUM`, format SINGLE (43_arithmetic.md R215). -/
  | rndNum (reg : Byte)
  /-- `SQRT_R_I`, format SINGLE (43_arithmetic.md R213). -/
  | sqrtRI (reg : Byte)
  /-- `EXT_INSTR`, format NONE (44_control.md R240). -/
  | extInstr
  /-- `FADD_DSI`, format DSI, extended table (46_extended_float.md R262). -/
  | faddDsi (dest : Byte) (src : Byte) (imm8 : Byte)
  /-- `FSUB_DSI`, format DSI, extended table (46_extended_float.md R263). -/
  | fsubDsi (dest : Byte) (src : Byte) (imm8 : Byte)
  /-- `FMULT_DSI`, format DSI, extended table (46_extended_float.md R264). -/
  | fmultDsi (dest : Byte) (src : Byte) (imm8 : Byte)
  /-- `FADD_DSS`, format DSS, extended table (46_extended_float.md R265). -/
  | faddDss (dest : Byte) (src1 : Byte) (src2 : Byte)
  /-- `FSUB_DSS`, format DSS, extended table (46_extended_float.md R266). -/
  | fsubDss (dest : Byte) (src1 : Byte) (src2 : Byte)
  /-- `FMULT_DSS`, format DSS, extended table (46_extended_float.md R267). -/
  | fmultDss (dest : Byte) (src1 : Byte) (src2 : Byte)
  /-- `FSQRT_R_I`, format SINGLE, extended table (46_extended_float.md R268). -/
  | fsqrtRI (reg : Byte)
  /-- `LOAD_FIM_FA`, format LIT24, extended table (46_extended_float.md R269). -/
  | loadFimFa (lit24 : Lit24)
  /-- `LOAD_FIM_FB`, format LIT24, extended table (46_extended_float.md R270). -/
  | loadFimFb (lit24 : Lit24)
deriving DecidableEq, Repr

end Sys2Proof
end

