-- ==== Sys2Proof/WellFormed.lean ====
section
/-! DEFINITION. Well-formed instructions: every register field lies in its table (30_encoding.md R100, R101).
An ill-formed instruction is decoded all the same; it raises InvalidRegister when it runs. -/
namespace Sys2Proof

/-- Index `k` is in the integer register table (R100). -/
def intField (k : Byte) : Bool := k ≤ 5#8

/-- Index `k` is in the float register table (R101). -/
def floatField (k : Byte) : Bool := k ≤ 3#8

/-- Every register field of the instruction resolves (R100, R101, R103). -/
def Instr.wf : Instr → Bool
  | .andR d s1 s2 => intField d && intField s1 && intField s2
  | .orR d s1 s2 => intField d && intField s1 && intField s2
  | .xorR d s1 s2 => intField d && intField s1 && intField s2
  | .llshR d s1 s2 => intField d && intField s1 && intField s2
  | .alshR d s1 s2 => intField d && intField s1 && intField s2
  | .lrshR d s1 s2 => intField d && intField s1 && intField s2
  | .arshR d s1 s2 => intField d && intField s1 && intField s2
  | .andI d r _ => intField d && intField r
  | .orI d r _ => intField d && intField r
  | .xorI d r _ => intField d && intField r
  | .llshI d r _ => intField d && intField r
  | .alshI d r _ => intField d && intField r
  | .lrshI d r _ => intField d && intField r
  | .arshI d r _ => intField d && intField r
  | .move d r => intField d && intField r
  | .notR d r => intField d && intField r
  | .loadAtAddr d r => intField d && intField r
  | .storeAtAddr d r => intField d && intField r
  | .ldImA _ => true
  | .ldImB _ => true
  | .ldImX _ => true
  | .incA => true
  | .incB => true
  | .incX => true
  | .addDsi d r _ => intField d && intField r
  | .subDsi d r _ => intField d && intField r
  | .multDsi d r _ => intField d && intField r
  | .addDss d s1 s2 => intField d && intField s1 && intField s2
  | .subDss d s1 s2 => intField d && intField s1 && intField s2
  | .multDss d s1 s2 => intField d && intField s1 && intField s2
  | .bnch _ => true
  | .jmp _ => true
  | .bnchWithOffset _ => true
  | .jmpWithOffset _ => true
  | .halt => true
  | .testEq l r => intField l && intField r
  | .testNeq l r => intField l && intField r
  | .testCtrlNeg => true
  | .popcnt d r => intField d && intField r
  | .printIR r => intField r
  | .putcR r => intField r
  | .callFnI _ => true
  | .ret => true
  | .regPush r => intField r
  | .regPop r => intField r
  | .rndSeed r => intField r
  | .rndNum r => intField r
  | .sqrtRI r => intField r
  | .extInstr => true
  | .faddDsi d r _ => floatField d && floatField r
  | .fsubDsi d r _ => floatField d && floatField r
  | .fmultDsi d r _ => floatField d && floatField r
  | .faddDss d s1 s2 => floatField d && floatField s1 && floatField s2
  | .fsubDss d s1 s2 => floatField d && floatField s1 && floatField s2
  | .fmultDss d s1 s2 => floatField d && floatField s1 && floatField s2
  | .fsqrtRI r => floatField r
  | .loadFimFa _ => true
  | .loadFimFb _ => true

end Sys2Proof
end

