-- ==== Sys2Proof/Decode.lean ====
section
/-! DEFINITION. Instruction words to instructions and back, by the formats of 30_encoding.md R92 to R97
and a numbering of the two opcode tables; the numbering of this machine is the default of R105 and R106
(log 1). -/
namespace Sys2Proof

/-- The 32-bit word of four bytes, the first (lowest address) most significant (20_memory.md R65, R71). -/
def wordOfBytes (b0 b1 b2 b3 : Byte) : Word := b0 ++ b1 ++ b2 ++ b3

/-- Bits 31:24 of a word: the opcode (30_encoding.md R91), the byte at the lowest address. -/
def byte31 (w : Word) : Byte := w.extractLsb' 24 8

/-- Bits 23:16 of a word: `dest` of DSS, DSI, DS (R92, R93). -/
def byte23 (w : Word) : Byte := w.extractLsb' 16 8

/-- Bits 15:8 of a word: `src1`, `src` or `lhs` (R92, R93, R94). -/
def byte15 (w : Word) : Byte := w.extractLsb' 8 8

/-- Bits 7:0 of a word: `src2`, `imm8`, `rhs` or `reg` (R92 to R95). -/
def byte7 (w : Word) : Byte := w.extractLsb' 0 8

/-- Bits 23:0 of a word: `lit24` (R96, R98). -/
def lit24 (w : Word) : Lit24 := w.extractLsb' 0 24

/-- A word of format DSS or DSI (R92, R93). -/
def packThree (op b23 b15 b7 : Byte) : Word := wordOfBytes op b23 b15 b7

/-- A word of format LIT24 (R96). -/
def packLit (op : Byte) (l : Lit24) : Word := op ++ l

/-- Why a word is no instruction. -/
inductive DecodeError where
  /-- The opcode byte is not assigned in the active table (R107). -/
  | unknownOpcode (opcode : Byte) (word : Word)
deriving DecidableEq, Repr

/-- The normal-table operations in the order of R105. -/
def normalOps : List NormalOp :=
  [.andR, .orR, .xorR, .llshR, .alshR, .lrshR, .arshR,
   .andI, .orI, .xorI, .llshI, .alshI, .lrshI, .arshI,
   .move, .notR, .loadAtAddr, .storeAtAddr, .ldImA, .ldImB, .ldImX,
   .incA, .incB, .incX, .addDsi, .subDsi, .multDsi, .addDss,
   .subDss, .multDss, .bnch, .jmp, .bnchWithOffset, .jmpWithOffset, .halt,
   .testEq, .testNeq, .testCtrlNeg, .popcnt, .printIR, .putcR, .callFnI,
   .ret, .regPush, .regPop, .rndSeed, .rndNum, .sqrtRI, .extInstr]

/-- The extended-table operations in the order of R106. -/
def extendedOps : List ExtendedOp :=
  [.faddDsi, .fsubDsi, .fmultDsi, .faddDss, .fsubDss, .fmultDss, .fsqrtRI,
   .loadFimFa, .loadFimFb]

/-- The parameter `OPC_N` at its default (00_scope.md R7, R105; log 1). -/
def Config.opcN : NormalOp → Byte
  | .andR => 0x00#8
  | .orR => 0x01#8
  | .xorR => 0x02#8
  | .llshR => 0x03#8
  | .alshR => 0x04#8
  | .lrshR => 0x05#8
  | .arshR => 0x06#8
  | .andI => 0x07#8
  | .orI => 0x08#8
  | .xorI => 0x09#8
  | .llshI => 0x0A#8
  | .alshI => 0x0B#8
  | .lrshI => 0x0C#8
  | .arshI => 0x0D#8
  | .move => 0x0E#8
  | .notR => 0x0F#8
  | .loadAtAddr => 0x10#8
  | .storeAtAddr => 0x11#8
  | .ldImA => 0x12#8
  | .ldImB => 0x13#8
  | .ldImX => 0x14#8
  | .incA => 0x15#8
  | .incB => 0x16#8
  | .incX => 0x17#8
  | .addDsi => 0x18#8
  | .subDsi => 0x19#8
  | .multDsi => 0x1A#8
  | .addDss => 0x1B#8
  | .subDss => 0x1C#8
  | .multDss => 0x1D#8
  | .bnch => 0x1E#8
  | .jmp => 0x1F#8
  | .bnchWithOffset => 0x20#8
  | .jmpWithOffset => 0x21#8
  | .halt => 0x22#8
  | .testEq => 0x23#8
  | .testNeq => 0x24#8
  | .testCtrlNeg => 0x25#8
  | .popcnt => 0x26#8
  | .printIR => 0x27#8
  | .putcR => 0x28#8
  | .callFnI => 0x29#8
  | .ret => 0x2A#8
  | .regPush => 0x2B#8
  | .regPop => 0x2C#8
  | .rndSeed => 0x2D#8
  | .rndNum => 0x2E#8
  | .sqrtRI => 0x2F#8
  | .extInstr => 0x30#8

/-- The parameter `OPC_X` at its default (00_scope.md R7, R106; log 1). -/
def Config.opcX : ExtendedOp → Byte
  | .faddDsi => 0x00#8
  | .fsubDsi => 0x01#8
  | .fmultDsi => 0x02#8
  | .faddDss => 0x03#8
  | .fsubDss => 0x04#8
  | .fmultDss => 0x05#8
  | .fsqrtRI => 0x06#8
  | .loadFimFa => 0x07#8
  | .loadFimFb => 0x08#8

/-- The numbering of this machine: `OPC_N` and `OPC_X`. -/
def Config.opcodes : Opcodes := ⟨Config.opcN, Config.opcX⟩

/-- The normal-table operation that `m` assigns the byte `b` to. -/
def Opcodes.findNormal (m : Opcodes) (b : Byte) : Option NormalOp :=
  normalOps.find? fun o => m.normal o == b

/-- The extended-table operation that `m` assigns the byte `b` to. -/
def Opcodes.findExtended (m : Opcodes) (b : Byte) : Option ExtendedOp :=
  extendedOps.find? fun o => m.extended o == b

/-- The fields of a word in the format of a normal-table operation (R103, R105). Ignored bits are not
examined (R102). -/
def normalInstr (w : Word) : NormalOp → Instr
  | .andR => .andR (byte23 w) (byte15 w) (byte7 w)
  | .orR => .orR (byte23 w) (byte15 w) (byte7 w)
  | .xorR => .xorR (byte23 w) (byte15 w) (byte7 w)
  | .llshR => .llshR (byte23 w) (byte15 w) (byte7 w)
  | .alshR => .alshR (byte23 w) (byte15 w) (byte7 w)
  | .lrshR => .lrshR (byte23 w) (byte15 w) (byte7 w)
  | .arshR => .arshR (byte23 w) (byte15 w) (byte7 w)
  | .andI => .andI (byte23 w) (byte15 w) (byte7 w)
  | .orI => .orI (byte23 w) (byte15 w) (byte7 w)
  | .xorI => .xorI (byte23 w) (byte15 w) (byte7 w)
  | .llshI => .llshI (byte23 w) (byte15 w) (byte7 w)
  | .alshI => .alshI (byte23 w) (byte15 w) (byte7 w)
  | .lrshI => .lrshI (byte23 w) (byte15 w) (byte7 w)
  | .arshI => .arshI (byte23 w) (byte15 w) (byte7 w)
  | .move => .move (byte23 w) (byte15 w)
  | .notR => .notR (byte23 w) (byte15 w)
  | .loadAtAddr => .loadAtAddr (byte23 w) (byte15 w)
  | .storeAtAddr => .storeAtAddr (byte23 w) (byte15 w)
  | .ldImA => .ldImA (lit24 w)
  | .ldImB => .ldImB (lit24 w)
  | .ldImX => .ldImX (lit24 w)
  | .incA => .incA
  | .incB => .incB
  | .incX => .incX
  | .addDsi => .addDsi (byte23 w) (byte15 w) (byte7 w)
  | .subDsi => .subDsi (byte23 w) (byte15 w) (byte7 w)
  | .multDsi => .multDsi (byte23 w) (byte15 w) (byte7 w)
  | .addDss => .addDss (byte23 w) (byte15 w) (byte7 w)
  | .subDss => .subDss (byte23 w) (byte15 w) (byte7 w)
  | .multDss => .multDss (byte23 w) (byte15 w) (byte7 w)
  | .bnch => .bnch (lit24 w)
  | .jmp => .jmp (lit24 w)
  | .bnchWithOffset => .bnchWithOffset (lit24 w)
  | .jmpWithOffset => .jmpWithOffset (lit24 w)
  | .halt => .halt
  | .testEq => .testEq (byte15 w) (byte7 w)
  | .testNeq => .testNeq (byte15 w) (byte7 w)
  | .testCtrlNeg => .testCtrlNeg
  | .popcnt => .popcnt (byte23 w) (byte15 w)
  | .printIR => .printIR (byte7 w)
  | .putcR => .putcR (byte7 w)
  | .callFnI => .callFnI (lit24 w)
  | .ret => .ret
  | .regPush => .regPush (byte7 w)
  | .regPop => .regPop (byte7 w)
  | .rndSeed => .rndSeed (byte7 w)
  | .rndNum => .rndNum (byte7 w)
  | .sqrtRI => .sqrtRI (byte7 w)
  | .extInstr => .extInstr

/-- The fields of a word in the format of an extended-table operation (R103, R106). -/
def extendedInstr (w : Word) : ExtendedOp → Instr
  | .faddDsi => .faddDsi (byte23 w) (byte15 w) (byte7 w)
  | .fsubDsi => .fsubDsi (byte23 w) (byte15 w) (byte7 w)
  | .fmultDsi => .fmultDsi (byte23 w) (byte15 w) (byte7 w)
  | .faddDss => .faddDss (byte23 w) (byte15 w) (byte7 w)
  | .fsubDss => .fsubDss (byte23 w) (byte15 w) (byte7 w)
  | .fmultDss => .fmultDss (byte23 w) (byte15 w) (byte7 w)
  | .fsqrtRI => .fsqrtRI (byte7 w)
  | .loadFimFa => .loadFimFa (lit24 w)
  | .loadFimFb => .loadFimFb (lit24 w)

/-- The error of a word whose opcode byte no operation of the active table has (R107). -/
def unassigned (w : Word) : DecodeError := .unknownOpcode (byte31 w) w

/-- The normal table (R105) under the numbering `m`. -/
def decodeNormal (m : Opcodes) (w : Word) : Except DecodeError Instr :=
  match m.findNormal (byte31 w) with
  | some o => .ok (normalInstr w o)
  | none => .error (unassigned w)

/-- The extended table (R106) under the numbering `m`. -/
def decodeExtended (m : Opcodes) (w : Word) : Except DecodeError Instr :=
  match m.findExtended (byte31 w) with
  | some o => .ok (extendedInstr w o)
  | none => .error (unassigned w)

/-- The instruction a word stands for under the numbering `m`, in the table that `ext` (the flag EXT_FNC)
selects (R104). -/
def decodeWith (m : Opcodes) (ext : Bool) (w : Word) : Except DecodeError Instr :=
  if ext then decodeExtended m w else decodeNormal m w

/-- The instruction a word stands for on this machine (R104). -/
def decode (ext : Bool) (w : Word) : Except DecodeError Instr := decodeWith Config.opcodes ext w

/-- The table an instruction belongs to: `true` for the extended one (R105, R106). -/
def Instr.isExtended : Instr → Bool
  | .andR _ _ _ => false
  | .orR _ _ _ => false
  | .xorR _ _ _ => false
  | .llshR _ _ _ => false
  | .alshR _ _ _ => false
  | .lrshR _ _ _ => false
  | .arshR _ _ _ => false
  | .andI _ _ _ => false
  | .orI _ _ _ => false
  | .xorI _ _ _ => false
  | .llshI _ _ _ => false
  | .alshI _ _ _ => false
  | .lrshI _ _ _ => false
  | .arshI _ _ _ => false
  | .move _ _ => false
  | .notR _ _ => false
  | .loadAtAddr _ _ => false
  | .storeAtAddr _ _ => false
  | .ldImA _ => false
  | .ldImB _ => false
  | .ldImX _ => false
  | .incA => false
  | .incB => false
  | .incX => false
  | .addDsi _ _ _ => false
  | .subDsi _ _ _ => false
  | .multDsi _ _ _ => false
  | .addDss _ _ _ => false
  | .subDss _ _ _ => false
  | .multDss _ _ _ => false
  | .bnch _ => false
  | .jmp _ => false
  | .bnchWithOffset _ => false
  | .jmpWithOffset _ => false
  | .halt => false
  | .testEq _ _ => false
  | .testNeq _ _ => false
  | .testCtrlNeg => false
  | .popcnt _ _ => false
  | .printIR _ => false
  | .putcR _ => false
  | .callFnI _ => false
  | .ret => false
  | .regPush _ => false
  | .regPop _ => false
  | .rndSeed _ => false
  | .rndNum _ => false
  | .sqrtRI _ => false
  | .extInstr => false
  | .faddDsi _ _ _ => true
  | .fsubDsi _ _ _ => true
  | .fmultDsi _ _ _ => true
  | .faddDss _ _ _ => true
  | .fsubDss _ _ _ => true
  | .fmultDss _ _ _ => true
  | .fsqrtRI _ => true
  | .loadFimFa _ => true
  | .loadFimFb _ => true

/-- The opcode byte of an instruction in its own table under the numbering `m` (R105, R106). -/
def Instr.opcodeIn (m : Opcodes) : Instr → Byte
  | .andR _ _ _ => m.normal .andR
  | .orR _ _ _ => m.normal .orR
  | .xorR _ _ _ => m.normal .xorR
  | .llshR _ _ _ => m.normal .llshR
  | .alshR _ _ _ => m.normal .alshR
  | .lrshR _ _ _ => m.normal .lrshR
  | .arshR _ _ _ => m.normal .arshR
  | .andI _ _ _ => m.normal .andI
  | .orI _ _ _ => m.normal .orI
  | .xorI _ _ _ => m.normal .xorI
  | .llshI _ _ _ => m.normal .llshI
  | .alshI _ _ _ => m.normal .alshI
  | .lrshI _ _ _ => m.normal .lrshI
  | .arshI _ _ _ => m.normal .arshI
  | .move _ _ => m.normal .move
  | .notR _ _ => m.normal .notR
  | .loadAtAddr _ _ => m.normal .loadAtAddr
  | .storeAtAddr _ _ => m.normal .storeAtAddr
  | .ldImA _ => m.normal .ldImA
  | .ldImB _ => m.normal .ldImB
  | .ldImX _ => m.normal .ldImX
  | .incA => m.normal .incA
  | .incB => m.normal .incB
  | .incX => m.normal .incX
  | .addDsi _ _ _ => m.normal .addDsi
  | .subDsi _ _ _ => m.normal .subDsi
  | .multDsi _ _ _ => m.normal .multDsi
  | .addDss _ _ _ => m.normal .addDss
  | .subDss _ _ _ => m.normal .subDss
  | .multDss _ _ _ => m.normal .multDss
  | .bnch _ => m.normal .bnch
  | .jmp _ => m.normal .jmp
  | .bnchWithOffset _ => m.normal .bnchWithOffset
  | .jmpWithOffset _ => m.normal .jmpWithOffset
  | .halt => m.normal .halt
  | .testEq _ _ => m.normal .testEq
  | .testNeq _ _ => m.normal .testNeq
  | .testCtrlNeg => m.normal .testCtrlNeg
  | .popcnt _ _ => m.normal .popcnt
  | .printIR _ => m.normal .printIR
  | .putcR _ => m.normal .putcR
  | .callFnI _ => m.normal .callFnI
  | .ret => m.normal .ret
  | .regPush _ => m.normal .regPush
  | .regPop _ => m.normal .regPop
  | .rndSeed _ => m.normal .rndSeed
  | .rndNum _ => m.normal .rndNum
  | .sqrtRI _ => m.normal .sqrtRI
  | .extInstr => m.normal .extInstr
  | .faddDsi _ _ _ => m.extended .faddDsi
  | .fsubDsi _ _ _ => m.extended .fsubDsi
  | .fmultDsi _ _ _ => m.extended .fmultDsi
  | .faddDss _ _ _ => m.extended .faddDss
  | .fsubDss _ _ _ => m.extended .fsubDss
  | .fmultDss _ _ _ => m.extended .fmultDss
  | .fsqrtRI _ => m.extended .fsqrtRI
  | .loadFimFa _ => m.extended .loadFimFa
  | .loadFimFb _ => m.extended .loadFimFb

/-- The instruction word under the numbering `m`, ignored bits written as 0 (R110). -/
def encodeWith (m : Opcodes) : Instr → Word
  | .andR d s1 s2 => packThree (m.normal .andR) d s1 s2
  | .orR d s1 s2 => packThree (m.normal .orR) d s1 s2
  | .xorR d s1 s2 => packThree (m.normal .xorR) d s1 s2
  | .llshR d s1 s2 => packThree (m.normal .llshR) d s1 s2
  | .alshR d s1 s2 => packThree (m.normal .alshR) d s1 s2
  | .lrshR d s1 s2 => packThree (m.normal .lrshR) d s1 s2
  | .arshR d s1 s2 => packThree (m.normal .arshR) d s1 s2
  | .andI d r imm => packThree (m.normal .andI) d r imm
  | .orI d r imm => packThree (m.normal .orI) d r imm
  | .xorI d r imm => packThree (m.normal .xorI) d r imm
  | .llshI d r imm => packThree (m.normal .llshI) d r imm
  | .alshI d r imm => packThree (m.normal .alshI) d r imm
  | .lrshI d r imm => packThree (m.normal .lrshI) d r imm
  | .arshI d r imm => packThree (m.normal .arshI) d r imm
  | .move d r => packThree (m.normal .move) d r 0#8
  | .notR d r => packThree (m.normal .notR) d r 0#8
  | .loadAtAddr d r => packThree (m.normal .loadAtAddr) d r 0#8
  | .storeAtAddr d r => packThree (m.normal .storeAtAddr) d r 0#8
  | .ldImA lit => packLit (m.normal .ldImA) lit
  | .ldImB lit => packLit (m.normal .ldImB) lit
  | .ldImX lit => packLit (m.normal .ldImX) lit
  | .incA => packLit (m.normal .incA) 0#24
  | .incB => packLit (m.normal .incB) 0#24
  | .incX => packLit (m.normal .incX) 0#24
  | .addDsi d r imm => packThree (m.normal .addDsi) d r imm
  | .subDsi d r imm => packThree (m.normal .subDsi) d r imm
  | .multDsi d r imm => packThree (m.normal .multDsi) d r imm
  | .addDss d s1 s2 => packThree (m.normal .addDss) d s1 s2
  | .subDss d s1 s2 => packThree (m.normal .subDss) d s1 s2
  | .multDss d s1 s2 => packThree (m.normal .multDss) d s1 s2
  | .bnch lit => packLit (m.normal .bnch) lit
  | .jmp lit => packLit (m.normal .jmp) lit
  | .bnchWithOffset lit => packLit (m.normal .bnchWithOffset) lit
  | .jmpWithOffset lit => packLit (m.normal .jmpWithOffset) lit
  | .halt => packLit (m.normal .halt) 0#24
  | .testEq l r => packThree (m.normal .testEq) 0#8 l r
  | .testNeq l r => packThree (m.normal .testNeq) 0#8 l r
  | .testCtrlNeg => packLit (m.normal .testCtrlNeg) 0#24
  | .popcnt d r => packThree (m.normal .popcnt) d r 0#8
  | .printIR r => packThree (m.normal .printIR) 0#8 0#8 r
  | .putcR r => packThree (m.normal .putcR) 0#8 0#8 r
  | .callFnI lit => packLit (m.normal .callFnI) lit
  | .ret => packLit (m.normal .ret) 0#24
  | .regPush r => packThree (m.normal .regPush) 0#8 0#8 r
  | .regPop r => packThree (m.normal .regPop) 0#8 0#8 r
  | .rndSeed r => packThree (m.normal .rndSeed) 0#8 0#8 r
  | .rndNum r => packThree (m.normal .rndNum) 0#8 0#8 r
  | .sqrtRI r => packThree (m.normal .sqrtRI) 0#8 0#8 r
  | .extInstr => packLit (m.normal .extInstr) 0#24
  | .faddDsi d r imm => packThree (m.extended .faddDsi) d r imm
  | .fsubDsi d r imm => packThree (m.extended .fsubDsi) d r imm
  | .fmultDsi d r imm => packThree (m.extended .fmultDsi) d r imm
  | .faddDss d s1 s2 => packThree (m.extended .faddDss) d s1 s2
  | .fsubDss d s1 s2 => packThree (m.extended .fsubDss) d s1 s2
  | .fmultDss d s1 s2 => packThree (m.extended .fmultDss) d s1 s2
  | .fsqrtRI r => packThree (m.extended .fsqrtRI) 0#8 0#8 r
  | .loadFimFa lit => packLit (m.extended .loadFimFa) lit
  | .loadFimFb lit => packLit (m.extended .loadFimFb) lit

/-- The instruction word on this machine (R110). -/
def encode (i : Instr) : Word := encodeWith Config.opcodes i

/-- The bits of a word that an instruction's format does not ignore (R92 to R97, R102). -/
def Instr.fieldMask : Instr → Word
  | .andR _ _ _ => 0xFFFFFFFF#32
  | .orR _ _ _ => 0xFFFFFFFF#32
  | .xorR _ _ _ => 0xFFFFFFFF#32
  | .llshR _ _ _ => 0xFFFFFFFF#32
  | .alshR _ _ _ => 0xFFFFFFFF#32
  | .lrshR _ _ _ => 0xFFFFFFFF#32
  | .arshR _ _ _ => 0xFFFFFFFF#32
  | .andI _ _ _ => 0xFFFFFFFF#32
  | .orI _ _ _ => 0xFFFFFFFF#32
  | .xorI _ _ _ => 0xFFFFFFFF#32
  | .llshI _ _ _ => 0xFFFFFFFF#32
  | .alshI _ _ _ => 0xFFFFFFFF#32
  | .lrshI _ _ _ => 0xFFFFFFFF#32
  | .arshI _ _ _ => 0xFFFFFFFF#32
  | .move _ _ => 0xFFFFFF00#32
  | .notR _ _ => 0xFFFFFF00#32
  | .loadAtAddr _ _ => 0xFFFFFF00#32
  | .storeAtAddr _ _ => 0xFFFFFF00#32
  | .ldImA _ => 0xFFFFFFFF#32
  | .ldImB _ => 0xFFFFFFFF#32
  | .ldImX _ => 0xFFFFFFFF#32
  | .incA => 0xFF000000#32
  | .incB => 0xFF000000#32
  | .incX => 0xFF000000#32
  | .addDsi _ _ _ => 0xFFFFFFFF#32
  | .subDsi _ _ _ => 0xFFFFFFFF#32
  | .multDsi _ _ _ => 0xFFFFFFFF#32
  | .addDss _ _ _ => 0xFFFFFFFF#32
  | .subDss _ _ _ => 0xFFFFFFFF#32
  | .multDss _ _ _ => 0xFFFFFFFF#32
  | .bnch _ => 0xFFFFFFFF#32
  | .jmp _ => 0xFFFFFFFF#32
  | .bnchWithOffset _ => 0xFFFFFFFF#32
  | .jmpWithOffset _ => 0xFFFFFFFF#32
  | .halt => 0xFF000000#32
  | .testEq _ _ => 0xFF00FFFF#32
  | .testNeq _ _ => 0xFF00FFFF#32
  | .testCtrlNeg => 0xFF000000#32
  | .popcnt _ _ => 0xFFFFFF00#32
  | .printIR _ => 0xFF0000FF#32
  | .putcR _ => 0xFF0000FF#32
  | .callFnI _ => 0xFFFFFFFF#32
  | .ret => 0xFF000000#32
  | .regPush _ => 0xFF0000FF#32
  | .regPop _ => 0xFF0000FF#32
  | .rndSeed _ => 0xFF0000FF#32
  | .rndNum _ => 0xFF0000FF#32
  | .sqrtRI _ => 0xFF0000FF#32
  | .extInstr => 0xFF000000#32
  | .faddDsi _ _ _ => 0xFFFFFFFF#32
  | .fsubDsi _ _ _ => 0xFFFFFFFF#32
  | .fmultDsi _ _ _ => 0xFFFFFFFF#32
  | .faddDss _ _ _ => 0xFFFFFFFF#32
  | .fsubDss _ _ _ => 0xFFFFFFFF#32
  | .fmultDss _ _ _ => 0xFFFFFFFF#32
  | .fsqrtRI _ => 0xFF0000FF#32
  | .loadFimFa _ => 0xFFFFFFFF#32
  | .loadFimFb _ => 0xFFFFFFFF#32

/-- The four bytes of a word in memory order (20_memory.md R66, R71). -/
def bytesOfWord (w : Word) : List Byte := [byte31 w, byte23 w, byte15 w, byte7 w]

/-- Decode from bytes in memory order; `none` on fewer than four bytes or an unassigned opcode. -/
def decodeBytes (ext : Bool) : List Byte → Option Instr
  | b0 :: b1 :: b2 :: b3 :: _ =>
    match decode ext (wordOfBytes b0 b1 b2 b3) with
    | .ok i => some i
    | .error _ => none
  | _ => none

/-- The word of a table row: bits above `nbits` are 0. -/
def tableWord (nbits w : Nat) : Word := BitVec.ofNat 32 (w % 2 ^ nbits)

/-- The instruction read from a table word laid out in memory, in the table that is active after
reset (EXT_FNC = 0, R104). A word alone does not select the extended table (log 11). -/
def decodeTableWord (nbits w : Nat) : Option Instr :=
  decodeBytes false (bytesOfWord (tableWord nbits w))

end Sys2Proof
end

