-- ==== Sys2Proof/Machine/State.lean ====
section
/-! DEFINITION. The machine's state (10_state.md), its fatal errors (60_exceptions.md) and the state
right after construction (70_reset_and_hazards.md R320). -/
namespace Sys2Proof.Machine
open Sys2Proof

/-- The control register as its five named flags (10_state.md R31, R37). -/
structure Ctrl where
  /-- ZERO (R32). -/
  zero : Bool
  /-- CARRY, reserved: nothing writes it (R33). -/
  carry : Bool
  /-- NEGATIVE (R34). -/
  negative : Bool
  /-- TEST_TRUE (R35). -/
  testTrue : Bool
  /-- EXT_FNC: the next dispatch uses the extended table (R36). -/
  extFnc : Bool
deriving DecidableEq, Repr

/-- The generator's state as what determines it: the last seed (`none`: never seeded, PRNG_RESET) and
the draws since (10_state.md R41; log 7). -/
structure Prng where
  seed : Option Word
  drawn : Nat
deriving DecidableEq, Repr

/-- `PRNG_RESET`, the generator never seeded with no draw made (00_scope.md R7, 10_state.md R46; log 7). -/
def prngReset : Prng := ⟨none, 0⟩

/-- An event on the OUT port (45_io.md R250). -/
inductive OutEvent where
  | int (v : Word)
  | char (c : Byte)
deriving DecidableEq, Repr

/-- The run-fatal error kinds with the information each records (60_exceptions.md R280). -/
inductive RunError where
  | unknownOpcode (opcode : Byte) (word : Word)
  | invalidRegister (index : Byte) (cls : RegClass)
  | memoryOutOfRange (addr : Word)
deriving DecidableEq, Repr

/-- The four error kinds: run-fatal, or the process-fatal ZeroRegisterViolation (R280, R285). -/
inductive Err where
  | run (e : RunError)
  | zeroRegisterViolation
deriving DecidableEq, Repr

/-- The fault record: the kind with its information, and the address of the word (R287). -/
structure FaultRecord where
  error : RunError
  addr : Word
deriving DecidableEq, Repr

/-- The memory's listed cells; an unlisted address reads 0x00 (20_memory.md R69). -/
structure Memory where
  cells : List Host.Cell
deriving DecidableEq, Repr

/-- The whole state (10_state.md R20, R45). -/
structure State where
  /-- The zero register (R22). -/
  z : Word
  a : Word
  b : Word
  x : Word
  /-- The stack pointer (R24). -/
  sp : Word
  /-- The return address (R25). -/
  ra : Word
  /-- The program counter (R26). -/
  pc : Word
  fa : F64
  fb : F64
  fx : F64
  ctrl : Ctrl
  /-- Set by HALT (R39). -/
  halted : Bool
  /-- The tick counter, unbounded (R40). -/
  cycles : Nat
  prng : Prng
  /-- The events the OUT port has received, in order (R42). -/
  out : List OutEvent
  /-- The fault latch (R43). -/
  fault : Option FaultRecord
  mem : Memory
  /-- The model's own field: how many free values have been drawn (log 8). -/
  freeDraws : Nat
deriving DecidableEq, Repr

/-- How a step stops with a fatal error (60_exceptions.md R280, R299). The run-fatal kinds carry the
state they leave, its latch set (R287). -/
inductive Fault where
  /-- Raised by the dispatch of a word whose opcode is unassigned in the active table (R281). Safe. -/
  | unknownOpcode (opcode : Byte) (word : Word) (left : State)
  /-- Raised by the resolution of a register field outside its table (R282). Safe. -/
  | invalidRegister (index : Byte) (cls : RegClass) (left : State)
  /-- Raised by a fetch, load, store, push or pop outside memory (R283). Safe. -/
  | memoryOutOfRange (addr : Word) (left : State)
  /-- Raised by a write to register 0 and by the tick-top check (R284). Process-fatal: no state is
  left (R285). Safe. -/
  | zeroRegisterViolation
deriving DecidableEq, Repr

/-- Why an instruction has no meaning. -/
inductive Refusal where
  /-- Raised by an arm of `exec` whose instruction is not modelled yet; no arm is. Safe. -/
  | notModelled (mnemonic : String)
deriving DecidableEq, Repr

/-- All flags clear: the NORMAL state (10_state.md R46). -/
def Ctrl.clear : Ctrl := ⟨false, false, false, false, false⟩

/-- The machine right after construction (10_state.md R46, 70_reset_and_hazards.md R320). The values of
`sp`, `ra`, `fa`, `fb`, `fx` and `freeDraws` are the model's (logs 3, 4, 5, 8). -/
def State.reset : State where
  z := 0#32
  a := 0#32
  b := 0#32
  x := 0#32
  sp := Config.spInit
  ra := Config.raInit
  pc := Config.bootAddr
  fa := Config.floatInit
  fb := Config.floatInit
  fx := Config.floatInit
  ctrl := Ctrl.clear
  halted := false
  cycles := 0
  prng := prngReset
  out := []
  fault := none
  mem := ⟨[]⟩
  freeDraws := 0

end Sys2Proof.Machine
end

