-- ==== Sys2Proof/Machine/Ops.lean ====
section
/-! DEFINITION. The named operations over memory and registers, and the raising of a fatal error. -/
namespace Sys2Proof.Machine
open Sys2Proof

/-- What a meaning ends in. -/
abbrev Outcome := Host.Outcome State Fault Refusal

/-! ## Memory cells (20_memory.md R60, R69) -/

/-- The byte an unlisted address reads as: memory is zero-initialised (R69). -/
def unlistedByte : Byte := 0#8

/-- The byte a list of cells gives for address `n`. -/
def cellsRead (n : Nat) : List Host.Cell → Byte
  | [] => unlistedByte
  | c :: cs => if c.1 = n then c.2 else cellsRead n cs

/-- The list with address `n` holding `v`, in the canonical form. -/
def cellsWrite (n : Nat) (v : Byte) : List Host.Cell → List Host.Cell
  | [] => if v = unlistedByte then [] else [(n, v)]
  | c :: cs =>
    if c.1 < n then c :: cellsWrite n v cs
    else if c.1 = n then (if v = unlistedByte then cs else (n, v) :: cs)
    else if v = unlistedByte then c :: cs
    else (n, v) :: c :: cs

/-- Addresses rise strictly from `lo` on, and no cell holds the unlisted byte. -/
def cellsWf : Nat → List Host.Cell → Bool
  | _, [] => true
  | lo, c :: cs => decide (lo ≤ c.1) && decide (c.2 ≠ unlistedByte) && cellsWf (c.1 + 1) cs

/-- The byte in cell `n`. -/
def Memory.read (m : Memory) (n : Nat) : Byte := cellsRead n m.cells

/-- The memory with cell `n` holding `v`. -/
def Memory.write (m : Memory) (n : Nat) (v : Byte) : Memory := ⟨cellsWrite n v m.cells⟩

/-- The canonical form: strictly rising addresses, no cell equal to what an unlisted one reads as. -/
def Memory.wf (m : Memory) : Bool := cellsWf 0 m.cells

/-- Every listed address is one of the `MEM_SIZE` cells (R61). -/
def Memory.bounded (m : Memory) : Bool := m.cells.all fun c => decide (c.1 < Config.memSize)

/-- The bytes written to `n`, `n+1`, … in turn. -/
def Memory.writeList (m : Memory) (n : Nat) : List Byte → Memory
  | [] => m
  | v :: vs => (m.write n v).writeList (n + 1) vs

/-! ## The access primitives (20_memory.md R61 to R67) -/

/-- All `n` bytes from `addr` on are in range, computed without wrap (R61, R65). -/
def inRange (addr : Word) (n : Nat) : Bool := decide (addr.toNat + n ≤ Config.memSize)

/-- The error of an access at `addr` (R64). -/
def outOfRange (addr : Word) : Err := .run (.memoryOutOfRange addr)

/-- The big-endian word at address `n` (R65, R71). -/
def Memory.readWord (m : Memory) (n : Nat) : Word :=
  wordOfBytes (m.read n) (m.read (n + 1)) (m.read (n + 2)) (m.read (n + 3))

/-- `MemRead(addr, 1)` (R62). -/
def memRead1 (m : Memory) (addr : Word) : Except Err Byte :=
  if inRange addr 1 then .ok (m.read addr.toNat) else .error (outOfRange addr)

/-- `MemRead(addr, 4)` (R65). -/
def memRead4 (m : Memory) (addr : Word) : Except Err Word :=
  if inRange addr 4 then .ok (m.readWord addr.toNat) else .error (outOfRange addr)

/-- `MemWrite(addr, 1, v)` (R63). -/
def memWrite1 (m : Memory) (addr : Word) (v : Byte) : Except Err Memory :=
  if inRange addr 1 then .ok (m.write addr.toNat v) else .error (outOfRange addr)

/-- `MemWrite(addr, 4, v)`: validate, then write the four bytes (R66, R67). -/
def memWrite4 (m : Memory) (addr : Word) (v : Word) : Except Err Memory :=
  if inRange addr 4 then .ok (m.writeList addr.toNat (bytesOfWord v)) else .error (outOfRange addr)

/-- `bulk_write` of the LOAD port: `none` when the range leaves memory (R68). -/
def bulkWrite (m : Memory) (start : Word) (bytes : List Byte) : Option Memory :=
  if start.toNat + bytes.length ≤ Config.memSize then some (m.writeList start.toNat bytes) else none

/-! ## Registers (10_state.md R21, R22, R28, R29) -/

/-- `x[r]`. -/
def State.readX (s : State) : IReg → Word
  | .z => s.z
  | .a => s.a
  | .b => s.b
  | .x => s.x
  | .sp => s.sp
  | .ra => s.ra

/-- The register file with `r` holding `v`; `z` is never changed (R22). -/
def State.setX (s : State) (r : IReg) (v : Word) : State :=
  match r with
  | .z => s
  | .a => { s with a := v }
  | .b => { s with b := v }
  | .x => { s with x := v }
  | .sp => { s with sp := v }
  | .ra => { s with ra := v }

/-- `x[r] <- v`: a write to `z` is fatal whatever the value (R22). -/
def State.writeX (s : State) (r : IReg) (v : Word) : Except Err State :=
  if r = .z then .error .zeroRegisterViolation else .ok (s.setX r v)

/-- `f[r]`; `f0` reads `+0.0` (R29). -/
def State.readF (s : State) : FReg → F64
  | .f0 => 0#64
  | .fa => s.fa
  | .fb => s.fb
  | .fx => s.fx

/-- The float registers with `r` holding `v`; `f0` has no storage. -/
def State.setF (s : State) (r : FReg) (v : F64) : State :=
  match r with
  | .f0 => s
  | .fa => { s with fa := v }
  | .fb => { s with fb := v }
  | .fx => { s with fx := v }

/-- `f[r] <- v`: a write to `f0` is fatal (R29). -/
def State.writeF (s : State) (r : FReg) (v : F64) : Except Err State :=
  if r = .f0 then .error .zeroRegisterViolation else .ok (s.setF r v)

/-- The state with another program counter (R26). -/
def State.setPc (s : State) (v : Word) : State := { s with pc := v }

/-- The state with another memory. -/
def State.setMem (s : State) (m : Memory) : State := { s with mem := m }

/-- The state with another generator state (R41). -/
def State.setPrng (s : State) (p : Prng) : State := { s with prng := p }

/-- `Emit(e)` (45_io.md R250). -/
def State.emit (s : State) (e : OutEvent) : State := { s with out := s.out ++ [e] }

/-! ## Raising a fatal error (60_exceptions.md R280 to R289) -/

/-- The state with the fault record latched (R285, R287). -/
def State.latch (s : State) (e : RunError) (addr : Word) : State :=
  { s with fault := some ⟨e, addr⟩ }

/-- The fault outcome of a run-fatal error that leaves `left`. -/
def RunError.outcome (e : RunError) (left : State) : Outcome :=
  match e with
  | .unknownOpcode op w => .fault (.unknownOpcode op w left)
  | .invalidRegister k cls => .fault (.invalidRegister k cls left)
  | .memoryOutOfRange addr => .fault (.memoryOutOfRange addr left)

/-- `raise E` for the word at `addr` with the state `s` as it stands: a run-fatal error latches the
record and leaves the rest of `s` (R287); the process-fatal one leaves nothing (R285). There is no
handler and no return (R286, R288). -/
def raise (e : Err) (addr : Word) (s : State) : Outcome :=
  match e with
  | .run r => r.outcome (s.latch r addr)
  | .zeroRegisterViolation => .fault .zeroRegisterViolation

/-- The end of an instruction's pseudocode: its next state, or the first `raise` reached, which found
registers and memory as they were on entry (R287). `pc` on entry is the word's address plus 4. -/
def finish (s : State) (r : Except Err State) : Outcome :=
  match r with
  | .ok t => .next t
  | .error e => raise e (s.pc - 4#32) s

/-- What a fault leaves: the latched state, or nothing (R285). -/
def Fault.left : Fault → Option State
  | .unknownOpcode _ _ l => some l
  | .invalidRegister _ _ l => some l
  | .memoryOutOfRange _ l => some l
  | .zeroRegisterViolation => none

/-- The numeric code of an error kind (R280). -/
def Err.code : Err → Nat
  | .run (.unknownOpcode _ _) => 1
  | .run (.invalidRegister _ _) => 2
  | .run (.memoryOutOfRange _) => 3
  | .zeroRegisterViolation => 4

/-- `ctrl` as the 32-bit word of the STATUS port (10_state.md R31, R37). -/
def Ctrl.word (c : Ctrl) : Word :=
  BitVec.ofBool c.extFnc ++ 0#27 ++ BitVec.ofBool c.testTrue ++ BitVec.ofBool c.negative
    ++ BitVec.ofBool c.carry ++ BitVec.ofBool c.zero

end Sys2Proof.Machine
end

