-- ==== Sys2Proof/Machine/Flags.lean ====
section
/-! DEFINITION. Every flag computation (10_state.md R31 to R36, 40_sequencer.md R141). -/
namespace Sys2Proof.Machine
open Sys2Proof

/-- The largest value that does not set NEGATIVE (40_sequencer.md R141). -/
def negativeThreshold : Word := 0x007FFFFF#32

/-- `SetZN(v)` on the flags (R141): ZERO and NEGATIVE only. -/
def Ctrl.setZN (c : Ctrl) (v : Word) : Ctrl :=
  { c with zero := v == 0#32, negative := negativeThreshold.ult v }

/-- `SetZN(v)`. -/
def State.setZN (s : State) (v : Word) : State := { s with ctrl := s.ctrl.setZN v }

/-- `ctrl.TEST_TRUE <- b` (10_state.md R35). -/
def State.setTest (s : State) (b : Bool) : State := { s with ctrl := { s.ctrl with testTrue := b } }

/-- `ctrl.EXT_FNC <- b` (10_state.md R36). -/
def State.setExt (s : State) (b : Bool) : State := { s with ctrl := { s.ctrl with extFnc := b } }

end Sys2Proof.Machine
end

