-- ==== Sys2Proof/Machine/Operands.lean ====
section
/-! DEFINITION. Every operand form: register resolution (30_encoding.md R100, R101), integer and float
literals (R98, R99), the jump offset (R112), and the execution orders the families share
(41_logic_shift_move.md R160, 46_extended_float.md R272). -/
namespace Sys2Proof.Machine
open Sys2Proof

/-- The index that names an integer register (10_state.md R21). -/
def ixIndex : IReg → Byte
  | .z => 0#8
  | .a => 1#8
  | .b => 2#8
  | .x => 3#8
  | .sp => 4#8
  | .ra => 5#8

/-- The index that names a float register (10_state.md R28). -/
def ixFloat : FReg → Byte
  | .f0 => 0#8
  | .fa => 1#8
  | .fb => 2#8
  | .fx => 3#8

/-- `RegX(k)` (30_encoding.md R100). -/
def regX (k : Byte) : Except Err IReg :=
  match k.toNat with
  | 0 => .ok .z
  | 1 => .ok .a
  | 2 => .ok .b
  | 3 => .ok .x
  | 4 => .ok .sp
  | 5 => .ok .ra
  | _ => .error (.run (.invalidRegister k .int))

/-- `RegF(k)` (30_encoding.md R101). -/
def regF (k : Byte) : Except Err FReg :=
  match k.toNat with
  | 0 => .ok .f0
  | 1 => .ok .fa
  | 2 => .ok .fb
  | 3 => .ok .fx
  | _ => .error (.run (.invalidRegister k .float))

/-- `zext_32(imm8)` (R98). -/
def immWord (imm : Byte) : Word := imm.setWidth 32

/-- `zext_32(lit24)` (R98). -/
def litWord (l : Lit24) : Word := l.setWidth 32

/-- The binary32 pattern of an 8-bit float literal (R99). -/
def immFloat (imm : Byte) : F32 := imm ++ 0#24

/-- The binary32 pattern of a 24-bit float literal (R99). -/
def litFloat (l : Lit24) : F32 := l ++ 0#8

/-- `JumpOffset(lit24)`: bit 23 set means forward (R112). -/
def jumpOffset (l : Lit24) : Int :=
  if l.getLsbD 23 then ((l &&& 0x7FFFFF#24).toNat : Int) else -(l.toNat : Int)

/-- The target of a relative jump: `pc` plus the offset, modulo `2^32` (44_control.md R231). -/
def relTarget (pc : Word) (l : Lit24) : Word := BitVec.ofInt 32 ((pc.toNat : Int) + jumpOffset l)

/-- `x[d] <- v; SetZN(v)` (41_logic_shift_move.md R160). -/
def writeZN (s : State) (d : IReg) (v : Word) : Except Err State := do
  let t ← s.writeX d v
  .ok (t.setZN v)

/-- The implicit-destination form: `x[d] <- v; SetZN(v)` for a `d` that is not `z`
(43_arithmetic.md R201 to R206). -/
def setZNReg (s : State) (d : IReg) (v : Word) : State := (s.setX d v).setZN v

/-- Three integer registers, result written and flagged (R160, DSS). -/
def execDss (op : Word → Word → Word) (d s1 s2 : Byte) (s : State) : Outcome :=
  finish s do
    let rd ← regX d
    let r1 ← regX s1
    let r2 ← regX s2
    writeZN s rd (op (s.readX r1) (s.readX r2))

/-- Two integer registers and an immediate, result written and flagged (R160, DSI). -/
def execDsi (op : Word → Word → Word) (d r : Byte) (imm : Byte) (s : State) : Outcome :=
  finish s do
    let rd ← regX d
    let r1 ← regX r
    writeZN s rd (op (s.readX r1) (immWord imm))

/-- Two integer registers, result written and flagged (R160, DS). -/
def execDs (op : Word → Word) (d r : Byte) (s : State) : Outcome :=
  finish s do
    let rd ← regX d
    let r1 ← regX r
    writeZN s rd (op (s.readX r1))

/-- Two integer registers compared into TEST_TRUE (44_control.md R237, PAIR). -/
def execPair (test : Word → Word → Bool) (l r : Byte) (s : State) : Outcome :=
  finish s do
    let rl ← regX l
    let rr ← regX r
    .ok (s.setTest (test (s.readX rl) (s.readX rr)))

/-- One integer register read (SINGLE as a source). -/
def execSource (f : Word → State) (r : Byte) (s : State) : Outcome :=
  finish s do
    let k ← regX r
    .ok (f (s.readX k))

end Sys2Proof.Machine
end

