-- ==== Sys2Proof/Machine/FloatNum.lean ====
section
/-! DEFINITION. The parameter `FP` at its IEEE 754 default (46_extended_float.md R260, R261; log 9):
binary64 addition, subtraction, multiplication and square root, round to nearest, ties to even, and the
exact widening of binary32 (30_encoding.md R99). Every finite operand is read as an exact integer
multiple of a fixed unit, the operation is exact, and `roundUnits` rounds once at the end. -/
namespace Sys2Proof.Machine
open Sys2Proof

/-! ## Fields of a binary64 pattern (R260) -/

/-- The sign bit. -/
def f64Sign (d : F64) : Bool := d.getLsbD 63

/-- The 11 exponent bits, biased by 1023. -/
def f64Exp (d : F64) : Nat := (d.extractLsb' 52 11).toNat

/-- The 52 fraction bits. -/
def f64Frac (d : F64) : Nat := (d.extractLsb' 0 52).toNat

/-- A NaN: exponent all ones, fraction not zero. -/
def isNaN (d : F64) : Bool := decide (f64Exp d = 2047) && decide (f64Frac d ≠ 0)

/-- A quiet NaN: the top fraction bit is set. -/
def isQuietNaN (d : F64) : Bool := decide (f64Exp d = 2047) && d.getLsbD 51

/-- An infinity. -/
def isInf (d : F64) : Bool := decide (f64Exp d = 2047) && decide (f64Frac d = 0)

/-- Zeros, subnormals and normal numbers. -/
def isFinite (d : F64) : Bool := decide (f64Exp d ≠ 2047)

/-- A zero of either sign. -/
def isZero (d : F64) : Bool := decide (f64Exp d = 0) && decide (f64Frac d = 0)

/-- The significand with its hidden bit. -/
def f64Mant (d : F64) : Nat := if f64Exp d = 0 then f64Frac d else f64Frac d + 2 ^ 52

/-- The scale of the significand above the least subnormal: value is mantissa times `2^scale` units
of `2^-1074`. -/
def f64Scale (d : F64) : Nat := f64Exp d - 1

/-- The magnitude of a finite value in units of `2^-1074`. -/
def f64Mag (d : F64) : Nat := f64Mant d * 2 ^ f64Scale d

/-- A finite value in units of `2^-1074`. -/
def f64Int (d : F64) : Int := if f64Sign d then -(f64Mag d : Int) else (f64Mag d : Int)

/-- A pattern from its sign and the other 63 bits. -/
def f64Pack (sign : Bool) (mag : Nat) : F64 := BitVec.ofBool sign ++ BitVec.ofNat 63 mag

/-- The pattern of infinity without its sign. -/
def infMag : Nat := 0x7FF * 2 ^ 52

/-- A zero. -/
def f64Zero (sign : Bool) : F64 := f64Pack sign 0

/-- An infinity. -/
def f64Inf (sign : Bool) : F64 := f64Pack sign infMag

/-- The opposite sign, nothing else changed. -/
def f64Neg (d : F64) : F64 := d ^^^ (1#64 <<< 63)

/-! ## Rounding (R261) -/

/-- The exponent of the last place of the rounded result, in units of `2^-2148`: 53 significant bits,
but no finer than the least subnormal, `2^1074` units. -/
def roundPlace (m : Nat) : Nat := max (m.log2 + 1 - 53) 1074

/-- `m` over `2^place`, rounded to nearest, ties to even. -/
def roundQuotient (m place : Nat) : Nat :=
  let q := m / 2 ^ place
  let rest := m % 2 ^ place
  let half := 2 ^ (place - 1)
  if half < rest ∨ (rest = half ∧ q % 2 = 1) then q + 1 else q

/-- The 63 bits below the sign for the magnitude `m` units of `2^-2148`, infinity on overflow. A
significand that rounds up to the next power of two carries into the exponent. -/
def roundMag (m : Nat) : Nat :=
  let place := roundPlace m
  min ((place - 1074) * 2 ^ 52 + roundQuotient m place) infMag

/-- The binary64 value nearest to `m` units of `2^-2148` with the given sign. -/
def roundUnits (sign : Bool) (m : Nat) : F64 := f64Pack sign (roundMag m)

/-! ## Results and operations -/

/-- The result of a float operation: a number, or a NaN of which the spec fixes no sign or payload
(R261, 93_implementation_defined.md U9). -/
inductive FpResult where
  /-- A number: the result is exactly this pattern. -/
  | value (d : F64)
  /-- The quiet NaN of an invalid operation. -/
  | invalid
  /-- The NaN of a NaN operand or of a widened NaN literal. -/
  | anyNaN
deriving DecidableEq, Repr

/-- The sign of an exact zero sum: the common sign of two zeros, else plus. -/
def zeroSumSign (a b : F64) : Bool := f64Sign a && f64Sign b

/-- `fadd` (R261). -/
def fadd (a b : F64) : FpResult :=
  if isNaN a || isNaN b then .anyNaN
  else if isInf a then
    if isInf b && (f64Sign a != f64Sign b) then .invalid else .value a
  else if isInf b then .value b
  else
    let sum := f64Int a + f64Int b
    if sum = 0 then .value (f64Zero (zeroSumSign a b))
    else .value (roundUnits (decide (sum < 0)) (sum.natAbs * 2 ^ 1074))

/-- `fsub` (R261): the sum with the opposite of `b`. -/
def fsub (a b : F64) : FpResult := fadd a (f64Neg b)

/-- `fmul` (R261). -/
def fmul (a b : F64) : FpResult :=
  let sign := f64Sign a != f64Sign b
  if isNaN a || isNaN b then .anyNaN
  else if isInf a || isInf b then
    if isZero a || isZero b then .invalid else .value (f64Inf sign)
  else .value (roundUnits sign (f64Mag a * f64Mag b))

/-- The integer square root found one bit at a time from bit `k - 1` down, starting from `r`. -/
def isqrtFrom : Nat → Nat → Nat → Nat
  | 0, r, _ => r
  | k + 1, r, n => isqrtFrom k (if (r + 2 ^ k) * (r + 2 ^ k) ≤ n then r + 2 ^ k else r) n

/-- The largest `q` with `q * q ≤ n`, for `n < 2^(2 * bits)`. -/
def isqrt (bits n : Nat) : Nat := isqrtFrom bits 0 n

/-- The significand of a positive finite value widened so that the scale left is even and the root has
more than 53 bits. -/
def sqrtRadicand (d : F64) : Nat := f64Mant d * 2 ^ (110 + f64Scale d % 2)

/-- The root of a positive finite value in units of `2^-2148`; an inexact root keeps a trailing one, which
decides no rounding but that of an apparent tie. -/
def sqrtUnits (d : F64) : Nat :=
  let n := sqrtRadicand d
  let r := isqrt 83 n
  r * 2 ^ (f64Scale d / 2 + 1556) + (if r * r = n then 0 else 1)

/-- `fsqrt` (R261, R268). -/
def fsqrt (a : F64) : FpResult :=
  if isNaN a then .anyNaN
  else if isZero a then .value a
  else if f64Sign a then .invalid
  else if isInf a then .value a
  else .value (roundUnits false (sqrtUnits a))

/-! ## Widening (30_encoding.md R99) -/

/-- The exponent bits of a binary32 pattern. -/
def f32Exp (p : F32) : Nat := (p.extractLsb' 23 8).toNat

/-- The fraction bits of a binary32 pattern. -/
def f32Frac (p : F32) : Nat := (p.extractLsb' 0 23).toNat

/-- The magnitude of a finite binary32 value in units of `2^-2148`. -/
def f32Units (p : F32) : Nat :=
  if f32Exp p = 0 then f32Frac p * 2 ^ 1999 else (f32Frac p + 2 ^ 23) * 2 ^ (f32Exp p + 1998)

/-- The binary64 value of a finite binary32 pattern, exact (R99). -/
def widenFinite (p : F32) : F64 := roundUnits (p.getLsbD 31) (f32Units p)

/-- `F32(bits)`: the binary64 value of a binary32 pattern (R99). -/
def widen (p : F32) : FpResult :=
  if f32Exp p = 255 then
    if f32Frac p = 0 then .value (f64Inf (p.getLsbD 31)) else .anyNaN
  else .value (widenFinite p)

/-! ## NaN results (93_implementation_defined.md U9) -/

/-- A NaN of open sign and fraction; a drawn fraction of zero stands for the one with only its top bit
set, so that every NaN is possible and nothing else is. -/
def someNaN (choice : BitVec 53) : F64 :=
  let frac := choice.extractLsb' 0 52
  choice.extractLsb' 52 1 ++ 0x7FF#11 ++ (if frac = 0#52 then 1#52 <<< 51 else frac)

/-- A quiet NaN of open sign and payload. -/
def quietNaN (choice : BitVec 53) : F64 :=
  choice.extractLsb' 52 1 ++ 0x7FF#11 ++ (choice.extractLsb' 0 52 ||| 1#52 <<< 51)

/-- The pattern a result puts in a register: the number, or a NaN drawn as a free value for the
operation, its operands and the count of earlier draws. -/
def FpResult.bits (src : Config.NanSource) (n : Nat) (a b : F64) : FpResult → F64
  | .value d => d
  | .invalid => quietNaN (Config.nanChoice src n a b)
  | .anyNaN => someNaN (Config.nanChoice src n a b)

/-- How many free values a result draws. -/
def FpResult.draws : FpResult → Nat
  | .value _ => 0
  | .invalid => 1
  | .anyNaN => 1

/-- `f[d] <- r`, drawing the NaN where the result is one (46_extended_float.md R272). -/
def writeResult (s : State) (d : FReg) (src : Config.NanSource) (a b : F64) (r : FpResult) :
    Except Err State := do
  let t ← s.writeF d (r.bits src s.freeDraws a b)
  .ok { t with freeDraws := s.freeDraws + r.draws }

/-- The 8-bit float literal as an operand: its exponent field is even, so it is finite (R99). -/
def immDouble (imm : Byte) : F64 := widenFinite (immFloat imm)

end Sys2Proof.Machine
end

