-- ==== Sys2Proof/Machine/Arith.lean ====
section
/-! DEFINITION. Load-immediate, increment, add, subtract, multiply, integer square root
(43_arithmetic.md); arithmetic is modulo `2^32` (R200). -/
namespace Sys2Proof.Machine
open Sys2Proof

/-- `LD_IM_A` (R201). -/
def execLdImA (lit : Lit24) (s : State) : Outcome := .next (setZNReg s .a (litWord lit))

/-- `LD_IM_B` (R202). -/
def execLdImB (lit : Lit24) (s : State) : Outcome := .next (setZNReg s .b (litWord lit))

/-- `LD_IM_X` (R203). -/
def execLdImX (lit : Lit24) (s : State) : Outcome := .next (setZNReg s .x (litWord lit))

/-- `INC_A` (R204). -/
def execIncA (s : State) : Outcome := .next (setZNReg s .a (s.a + 1#32))

/-- `INC_B` (R205). -/
def execIncB (s : State) : Outcome := .next (setZNReg s .b (s.b + 1#32))

/-- `INC_X` (R206). -/
def execIncX (s : State) : Outcome := .next (setZNReg s .x (s.x + 1#32))

/-- `ADD_DSI` (R207). -/
def execAddDsi (d r imm : Byte) (s : State) : Outcome := execDsi (fun u v => u + v) d r imm s

/-- `SUB_DSI` (R208). -/
def execSubDsi (d r imm : Byte) (s : State) : Outcome := execDsi (fun u v => u - v) d r imm s

/-- `MULT_DSI` (R209). -/
def execMultDsi (d r imm : Byte) (s : State) : Outcome := execDsi (fun u v => u * v) d r imm s

/-- `ADD_DSS` (R210). -/
def execAddDss (d s1 s2 : Byte) (s : State) : Outcome := execDss (fun u v => u + v) d s1 s2 s

/-- `SUB_DSS` (R211). -/
def execSubDss (d s1 s2 : Byte) (s : State) : Outcome := execDss (fun u v => u - v) d s1 s2 s

/-- `MULT_DSS` (R212). -/
def execMultDss (d s1 s2 : Byte) (s : State) : Outcome := execDss (fun u v => u * v) d s1 s2 s

/-- The integer square root of the unsigned value (R213). -/
def intSqrt (v : Word) : Word := BitVec.ofNat 32 (isqrt 16 v.toNat)

/-- `SQRT_R_I`, in place (R213). -/
def execSqrtRI (r : Byte) (s : State) : Outcome :=
  finish s do
    let k ← regX r
    writeZN s k (intSqrt (s.readX k))

end Sys2Proof.Machine
end

