-- ==== Sys2Proof/Machine/Control.lean ====
section
/-! DEFINITION. Control transfer, tests, halt and the extended prefix (44_control.md). `pc` on entry is
the address of the word plus 4 (R243). -/
namespace Sys2Proof.Machine
open Sys2Proof

/-- `JMP` (R230). -/
def execJmp (lit : Lit24) (s : State) : Outcome := .next (s.setPc (litWord lit))

/-- `JMP_WITH_OFFSET` (R231). -/
def execJmpWithOffset (lit : Lit24) (s : State) : Outcome := .next (s.setPc (relTarget s.pc lit))

/-- `BNCH`: a one-word conditional jump by its own literal; TEST_TRUE is kept (R232; log 13). -/
def execBnch (lit : Lit24) (s : State) : Outcome :=
  .next (if s.ctrl.testTrue then s.setPc (litWord lit) else s)

/-- `BNCH_WITH_OFFSET` (R233; log 13). -/
def execBnchWithOffset (lit : Lit24) (s : State) : Outcome :=
  .next (if s.ctrl.testTrue then s.setPc (relTarget s.pc lit) else s)

/-- `CALL_FN_I`: `ra` receives the address after the call (R234). -/
def execCallFnI (lit : Lit24) (s : State) : Outcome :=
  .next ((s.setX .ra s.pc).setPc (litWord lit))

/-- `RET` (R235). -/
def execRet (s : State) : Outcome := .next (s.setPc s.ra)

/-- `HALT` (R236). -/
def execHalt (s : State) : Outcome := .next { s with halted := true }

/-- `TEST_EQ` (R237). -/
def execTestEq (l r : Byte) (s : State) : Outcome := execPair (fun u v => u == v) l r s

/-- `TEST_NEQ` (R238). -/
def execTestNeq (l r : Byte) (s : State) : Outcome := execPair (fun u v => u != v) l r s

/-- `TEST_CTRL_NEG` (R239). -/
def execTestCtrlNeg (s : State) : Outcome := .next (s.setTest s.ctrl.negative)

/-- `EXT_INSTR`: the next dispatch uses the extended table (R240). -/
def execExtInstr (s : State) : Outcome := .next (s.setExt true)

end Sys2Proof.Machine
end

