-- ==== Sys2Proof/Machine/Extended.lean ====
section
/-! DEFINITION. The extended table's floating-point instructions (46_extended_float.md). None writes a
flag (R271); none stops on numeric grounds (R261). -/
namespace Sys2Proof.Machine
open Sys2Proof

/-- Two float registers and an 8-bit float literal (R272, DSI). -/
def execFloatDsi (op : F64 → F64 → FpResult) (src : Config.NanSource) (d r imm : Byte) (s : State) :
    Outcome :=
  finish s do
    let rd ← regF d
    let r1 ← regF r
    writeResult s rd src (s.readF r1) (immDouble imm) (op (s.readF r1) (immDouble imm))

/-- Three float registers (R272, DSS). -/
def execFloatDss (op : F64 → F64 → FpResult) (src : Config.NanSource) (d s1 s2 : Byte) (s : State) :
    Outcome :=
  finish s do
    let rd ← regF d
    let r1 ← regF s1
    let r2 ← regF s2
    writeResult s rd src (s.readF r1) (s.readF r2) (op (s.readF r1) (s.readF r2))

/-- A float register loaded with a widened literal (R269, R270). -/
def execLoadFloat (d : FReg) (lit : Lit24) (s : State) : Outcome :=
  finish s (writeResult s d .widen ((litFloat lit).setWidth 64) 0#64 (widen (litFloat lit)))

/-- `FADD_DSI` (R262). -/
def execFaddDsi (d r imm : Byte) (s : State) : Outcome := execFloatDsi fadd .add d r imm s

/-- `FSUB_DSI` (R263). -/
def execFsubDsi (d r imm : Byte) (s : State) : Outcome := execFloatDsi fsub .sub d r imm s

/-- `FMULT_DSI` (R264). -/
def execFmultDsi (d r imm : Byte) (s : State) : Outcome := execFloatDsi fmul .mul d r imm s

/-- `FADD_DSS` (R265). -/
def execFaddDss (d s1 s2 : Byte) (s : State) : Outcome := execFloatDss fadd .add d s1 s2 s

/-- `FSUB_DSS` (R266). -/
def execFsubDss (d s1 s2 : Byte) (s : State) : Outcome := execFloatDss fsub .sub d s1 s2 s

/-- `FMULT_DSS` (R267). -/
def execFmultDss (d s1 s2 : Byte) (s : State) : Outcome := execFloatDss fmul .mul d s1 s2 s

/-- `FSQRT_R_I`, in place (R268). -/
def execFsqrtRI (r : Byte) (s : State) : Outcome :=
  finish s do
    let k ← regF r
    writeResult s k .sqrt (s.readF k) 0#64 (fsqrt (s.readF k))

/-- `LOAD_FIM_FA` (R269). -/
def execLoadFimFa (lit : Lit24) (s : State) : Outcome := execLoadFloat .fa lit s

/-- `LOAD_FIM_FB` (R270). -/
def execLoadFimFb (lit : Lit24) (s : State) : Outcome := execLoadFloat .fb lit s

end Sys2Proof.Machine
end

