-- ==== Sys2Proof/Machine/Logic.lean ====
section
/-! DEFINITION. Bitwise, move, complement and population count (41_logic_shift_move.md). -/
namespace Sys2Proof.Machine
open Sys2Proof

/-- The number of 1 bits among the 32 (R178). -/
def popCount (v : Word) : Nat := ((List.range 32).filter fun i => v.getLsbD i).length

/-- `AND_R` (R162). -/
def execAndR (d s1 s2 : Byte) (s : State) : Outcome := execDss (fun u v => u &&& v) d s1 s2 s

/-- `OR_R` (R163). -/
def execOrR (d s1 s2 : Byte) (s : State) : Outcome := execDss (fun u v => u ||| v) d s1 s2 s

/-- `XOR_R` (R164). -/
def execXorR (d s1 s2 : Byte) (s : State) : Outcome := execDss (fun u v => u ^^^ v) d s1 s2 s

/-- `AND_I` (R169). -/
def execAndI (d r imm : Byte) (s : State) : Outcome := execDsi (fun u v => u &&& v) d r imm s

/-- `OR_I` (R170). -/
def execOrI (d r imm : Byte) (s : State) : Outcome := execDsi (fun u v => u ||| v) d r imm s

/-- `XOR_I` (R171). -/
def execXorI (d r imm : Byte) (s : State) : Outcome := execDsi (fun u v => u ^^^ v) d r imm s

/-- `MOVE` (R176). -/
def execMove (d r : Byte) (s : State) : Outcome := execDs (fun u => u) d r s

/-- `NOT_R` (R177). -/
def execNotR (d r : Byte) (s : State) : Outcome := execDs (fun u => u ^^^ 0xFFFFFFFF#32) d r s

/-- `POPCNT` writes no flag (R178). -/
def execPopcnt (d r : Byte) (s : State) : Outcome :=
  finish s do
    let rd ← regX d
    let r1 ← regX r
    s.writeX rd (BitVec.ofNat 32 (popCount (s.readX r1)))

end Sys2Proof.Machine
end

