-- ==== Sys2Proof/Machine/MemStack.lean ====
section
/-! DEFINITION. Load, store and the stack (42_memory_stack.md). -/
namespace Sys2Proof.Machine
open Sys2Proof

/-- `LOAD_AT_ADDR`: the byte zero-extended, read before the destination is written (R190). -/
def execLoadAtAddr (d r : Byte) (s : State) : Outcome :=
  finish s do
    let rd ← regX d
    let r1 ← regX r
    let v ← memRead1 s.mem (s.readX r1)
    writeZN s rd (immWord v)

/-- `STORE_AT_ADDR`: `dest` holds the address, the low byte of `src` is stored (R191). -/
def execStoreAtAddr (d r : Byte) (s : State) : Outcome :=
  finish s do
    let rd ← regX d
    let r1 ← regX r
    let m ← memWrite1 s.mem (s.readX rd) (byte7 (s.readX r1))
    .ok (s.setMem m)

/-- `REG_PUSH`: the word at `sp`, then `sp` plus 4; the value is read before the increment (R192). -/
def execRegPush (r : Byte) (s : State) : Outcome :=
  finish s do
    let r1 ← regX r
    let m ← memWrite4 s.mem s.sp (s.readX r1)
    .ok ((s.setMem m).setX .sp (s.sp + 4#32))

/-- `REG_POP`: the register receives the word at `sp - 4`, then `sp`, read again, loses 4 (R193; the
case of `sp` itself: log 15). -/
def execRegPop (r : Byte) (s : State) : Outcome :=
  finish s do
    let r1 ← regX r
    let v ← memRead4 s.mem (s.sp - 4#32)
    let t ← s.writeX r1 v
    .ok (t.setX .sp (t.sp - 4#32))

end Sys2Proof.Machine
end

