-- ==== Sys2Proof/Machine/Output.lean ====
section
/-! DEFINITION. Program output (45_io.md). -/
namespace Sys2Proof.Machine
open Sys2Proof

/-- `PRINT_I_R` (R251). -/
def execPrintIR (r : Byte) (s : State) : Outcome := execSource (fun v => s.emit (.int v)) r s

/-- `PUTC_R` (R252). -/
def execPutcR (r : Byte) (s : State) : Outcome := execSource (fun v => s.emit (.char (byte7 v))) r s

end Sys2Proof.Machine
end

