-- ==== Sys2Proof/Machine/Random.lean ====
section
/-! DEFINITION. The pseudo-random generator, an uninterpreted parameter (10_state.md R41,
43_arithmetic.md R214, R215; log 7). -/
namespace Sys2Proof.Machine
open Sys2Proof

/-- `prng_seed(v)` (R214). -/
def prngSeed (v : Word) : Prng := ⟨some v, 0⟩

/-- The number `prng_next` draws (R215). -/
def prngNumber (p : Prng) : Word := Config.prngValue p.seed p.drawn

/-- The state `prng_next` leaves (R215). -/
def prngAdvance (p : Prng) : Prng := ⟨p.seed, p.drawn + 1⟩

/-- `RND_SEED` (R214). -/
def execRndSeed (r : Byte) (s : State) : Outcome :=
  execSource (fun v => s.setPrng (prngSeed v)) r s

/-- `RND_NUM` (R215). -/
def execRndNum (r : Byte) (s : State) : Outcome :=
  finish s do
    let k ← regX r
    writeZN (s.setPrng (prngAdvance s.prng)) k (prngNumber s.prng)

end Sys2Proof.Machine
end

