-- ==== Sys2Proof/Machine/Shift.lean ====
section
/-! DEFINITION. The shifts (41_logic_shift_move.md R161, R165 to R168, R172 to R175). The amount is the
whole unsigned operand, not reduced modulo 32; the law for 32 and more is written apart, so that a huge
amount is never shifted by (log 14). -/
namespace Sys2Proof.Machine
open Sys2Proof

/-- `LLSH(v, n)` (R161). -/
def shiftLeftLogical (v amount : Word) : Word :=
  if amount.toNat < 32 then v <<< amount.toNat else 0#32

/-- `ALSH(v, n)`: the bits of the logical left shift (R161, R166). -/
def shiftLeftArith (v amount : Word) : Word := shiftLeftLogical v amount

/-- `LRSH(v, n)` (R161). -/
def shiftRightLogical (v amount : Word) : Word :=
  if amount.toNat < 32 then v >>> amount.toNat else 0#32

/-- `ARSH(v, n)`: copies of bit 31 enter at the top (R161). -/
def shiftRightArith (v amount : Word) : Word :=
  if amount.toNat < 32 then v.sshiftRight amount.toNat
  else if v.msb then 0xFFFFFFFF#32 else 0#32

/-- `LLSH_R` (R165). -/
def execLlshR (d s1 s2 : Byte) (s : State) : Outcome := execDss shiftLeftLogical d s1 s2 s

/-- `ALSH_R` (R166). -/
def execAlshR (d s1 s2 : Byte) (s : State) : Outcome := execDss shiftLeftArith d s1 s2 s

/-- `LRSH_R` (R167). -/
def execLrshR (d s1 s2 : Byte) (s : State) : Outcome := execDss shiftRightLogical d s1 s2 s

/-- `ARSH_R` (R168). -/
def execArshR (d s1 s2 : Byte) (s : State) : Outcome := execDss shiftRightArith d s1 s2 s

/-- `LLSH_I` (R172). -/
def execLlshI (d r imm : Byte) (s : State) : Outcome := execDsi shiftLeftLogical d r imm s

/-- `ALSH_I` (R173). -/
def execAlshI (d r imm : Byte) (s : State) : Outcome := execDsi shiftLeftArith d r imm s

/-- `LRSH_I` (R174). -/
def execLrshI (d r imm : Byte) (s : State) : Outcome := execDsi shiftRightLogical d r imm s

/-- `ARSH_I` (R175). -/
def execArshI (d r imm : Byte) (s : State) : Outcome := execDsi shiftRightArith d r imm s

end Sys2Proof.Machine
end

