-- ==== Sys2Proof/Machine/Dispatch.lean ====
section
/-! DEFINITION. One arm per instruction: the meaning that the execute step of 40_sequencer.md R131 runs. -/
namespace Sys2Proof.Machine
open Sys2Proof

def exec (i : Instr) (s : State) : Host.Outcome State Fault Refusal :=
  match i with
  | .andR d s1 s2 => Sys2Proof.Machine.execAndR d s1 s2 s
  | .orR d s1 s2 => Sys2Proof.Machine.execOrR d s1 s2 s
  | .xorR d s1 s2 => Sys2Proof.Machine.execXorR d s1 s2 s
  | .llshR d s1 s2 => Sys2Proof.Machine.execLlshR d s1 s2 s
  | .alshR d s1 s2 => Sys2Proof.Machine.execAlshR d s1 s2 s
  | .lrshR d s1 s2 => Sys2Proof.Machine.execLrshR d s1 s2 s
  | .arshR d s1 s2 => Sys2Proof.Machine.execArshR d s1 s2 s
  | .andI d r imm => Sys2Proof.Machine.execAndI d r imm s
  | .orI d r imm => Sys2Proof.Machine.execOrI d r imm s
  | .xorI d r imm => Sys2Proof.Machine.execXorI d r imm s
  | .llshI d r imm => Sys2Proof.Machine.execLlshI d r imm s
  | .alshI d r imm => Sys2Proof.Machine.execAlshI d r imm s
  | .lrshI d r imm => Sys2Proof.Machine.execLrshI d r imm s
  | .arshI d r imm => Sys2Proof.Machine.execArshI d r imm s
  | .move d r => Sys2Proof.Machine.execMove d r s
  | .notR d r => Sys2Proof.Machine.execNotR d r s
  | .loadAtAddr d r => Sys2Proof.Machine.execLoadAtAddr d r s
  | .storeAtAddr d r => Sys2Proof.Machine.execStoreAtAddr d r s
  | .ldImA lit => Sys2Proof.Machine.execLdImA lit s
  | .ldImB lit => Sys2Proof.Machine.execLdImB lit s
  | .ldImX lit => Sys2Proof.Machine.execLdImX lit s
  | .incA => Sys2Proof.Machine.execIncA s
  | .incB => Sys2Proof.Machine.execIncB s
  | .incX => Sys2Proof.Machine.execIncX s
  | .addDsi d r imm => Sys2Proof.Machine.execAddDsi d r imm s
  | .subDsi d r imm => Sys2Proof.Machine.execSubDsi d r imm s
  | .multDsi d r imm => Sys2Proof.Machine.execMultDsi d r imm s
  | .addDss d s1 s2 => Sys2Proof.Machine.execAddDss d s1 s2 s
  | .subDss d s1 s2 => Sys2Proof.Machine.execSubDss d s1 s2 s
  | .multDss d s1 s2 => Sys2Proof.Machine.execMultDss d s1 s2 s
  | .bnch lit => Sys2Proof.Machine.execBnch lit s
  | .jmp lit => Sys2Proof.Machine.execJmp lit s
  | .bnchWithOffset lit => Sys2Proof.Machine.execBnchWithOffset lit s
  | .jmpWithOffset lit => Sys2Proof.Machine.execJmpWithOffset lit s
  | .halt => Sys2Proof.Machine.execHalt s
  | .testEq l r => Sys2Proof.Machine.execTestEq l r s
  | .testNeq l r => Sys2Proof.Machine.execTestNeq l r s
  | .testCtrlNeg => Sys2Proof.Machine.execTestCtrlNeg s
  | .popcnt d r => Sys2Proof.Machine.execPopcnt d r s
  | .printIR r => Sys2Proof.Machine.execPrintIR r s
  | .putcR r => Sys2Proof.Machine.execPutcR r s
  | .callFnI lit => Sys2Proof.Machine.execCallFnI lit s
  | .ret => Sys2Proof.Machine.execRet s
  | .regPush r => Sys2Proof.Machine.execRegPush r s
  | .regPop r => Sys2Proof.Machine.execRegPop r s
  | .rndSeed r => Sys2Proof.Machine.execRndSeed r s
  | .rndNum r => Sys2Proof.Machine.execRndNum r s
  | .sqrtRI r => Sys2Proof.Machine.execSqrtRI r s
  | .extInstr => Sys2Proof.Machine.execExtInstr s
  | .faddDsi d r imm => Sys2Proof.Machine.execFaddDsi d r imm s
  | .fsubDsi d r imm => Sys2Proof.Machine.execFsubDsi d r imm s
  | .fmultDsi d r imm => Sys2Proof.Machine.execFmultDsi d r imm s
  | .faddDss d s1 s2 => Sys2Proof.Machine.execFaddDss d s1 s2 s
  | .fsubDss d s1 s2 => Sys2Proof.Machine.execFsubDss d s1 s2 s
  | .fmultDss d s1 s2 => Sys2Proof.Machine.execFmultDss d s1 s2 s
  | .fsqrtRI r => Sys2Proof.Machine.execFsqrtRI r s
  | .loadFimFa lit => Sys2Proof.Machine.execLoadFimFa lit s
  | .loadFimFb lit => Sys2Proof.Machine.execLoadFimFb lit s

end Sys2Proof.Machine
end

