-- ==== Sys2Proof/Machine/Sequencer.lean ====
section
/-! DEFINITION. The parts of a tick before the instruction's own effect (40_sequencer.md R131 to R138). -/
namespace Sys2Proof.Machine
open Sys2Proof

/-- The counter increment, first and unconditional (R132). -/
def State.countTick (s : State) : State := { s with cycles := s.cycles + 1 }

/-- The zero-register check at the top of the tick (R133). -/
def zeroHolds (s : State) : Bool := s.z == 0#32

/-- The big-endian word at `pc` (R135). -/
def fetchWord (s : State) : Except Err Word := memRead4 s.mem s.pc

/-- `pc` advanced by 4 modulo `2^32`, and EXT_FNC cleared if it was set: the state in which the
instruction executes (R136, R138). -/
def State.beginDispatch (s : State) : State := (s.setPc (s.pc + 4#32)).setExt false

/-- The error of a word that no instruction of the active table has (60_exceptions.md R281). -/
def decodeErr : DecodeError → Err
  | .unknownOpcode op w => .run (.unknownOpcode op w)

/-- The memory with a word stored at `addr`, unchanged where it does not fit. -/
def placeWord (m : Memory) (addr : Word) (w : Word) : Memory :=
  match memWrite4 m addr w with
  | .ok m' => m'
  | .error _ => m

end Sys2Proof.Machine
end

