-- ==== Sys2Proof/Machine/Step.lean ====
section
/-! DEFINITION. One tick (40_sequencer.md R131). -/
namespace Sys2Proof.Machine
open Sys2Proof

/-- The word `w`, fetched from `s.pc`, dispatched in the table EXT_FNC selects and executed
(R136 to R138, 60_exceptions.md R281). -/
def dispatchWord (s : State) (w : Word) : Outcome :=
  match decode s.ctrl.extFnc w with
  | .ok i => exec i s.beginDispatch
  | .error e => raise (decodeErr e) s.pc s.beginDispatch

/-- Fetch and dispatch on a running machine (R135). -/
def fetchAndRun (s : State) : Outcome :=
  match fetchWord s with
  | .ok w => dispatchWord s w
  | .error e => raise e s.pc s

/-- `tick()` (R131): nothing on a faulted machine (R146), else count, check `z`, stop there if halted
(R134), else fetch and run. -/
def step (s : State) : Outcome :=
  if s.fault.isSome then .next s
  else if !zeroHolds s.countTick then .fault .zeroRegisterViolation
  else if s.countTick.halted then .next s.countTick
  else fetchAndRun s.countTick

/-- The state with a table word stored at `pc`, where `step` fetches: it stands for the host's `load`
(log 12). A word that does not fit in memory there changes nothing. -/
def State.withFetchWord (s : State) (nbits w : Nat) : State :=
  s.setMem (placeWord s.mem s.pc (tableWord nbits w))

end Sys2Proof.Machine
end

