-- ==== Sys2Proof/Machine/Ports.lean ====
section
/-! DEFINITION. The host's moves on the LOAD and CONTROL ports (00_scope.md R6), and the life of a
machine across faults (60_exceptions.md R285, 70_reset_and_hazards.md R333). -/
namespace Sys2Proof.Machine
open Sys2Proof

/-- `reset()` on a machine that exists: memory, generator and output stay; `ra`, `fa`, `fb`, `fx` become
free values (70_reset_and_hazards.md R321, R322; log 6). -/
def controlReset (s : State) : State :=
  { s with
    pc := Config.bootAddr
    a := 0#32
    b := 0#32
    x := 0#32
    sp := Config.spInit
    ra := Config.resetRa s.freeDraws
    fa := Config.resetFa s.freeDraws
    fb := Config.resetFb s.freeDraws
    fx := Config.resetFx s.freeDraws
    ctrl := Ctrl.clear
    halted := false
    cycles := 0
    fault := none
    freeDraws := s.freeDraws + 1 }

/-- `load(bytes, start)`: `none` is the failure reported to the host, with nothing changed
(20_memory.md R68). -/
def loadPort (bytes : List Byte) (start : Word) (s : State) : Option State :=
  (bulkWrite s.mem start bytes).map s.setMem

/-- A machine: existing in a state, or destroyed by a process-fatal fault (R285). -/
inductive Life where
  | alive (s : State)
  | destroyed
deriving DecidableEq, Repr

/-- What an outcome makes of the machine: a run-fatal fault leaves its latched state, a process-fatal
one nothing (R285, R287). A refusal would leave the state before it. -/
def lifeAfter (before : State) : Outcome → Life
  | .next t => .alive t
  | .fault f =>
    match f.left with
    | some l => .alive l
    | none => .destroyed
  | .refused _ => .alive before

/-- The host's `tick()` on a machine. -/
def Life.tick : Life → Life
  | .alive s => lifeAfter s (step s)
  | .destroyed => .destroyed

/-- The host's `reset()` on a machine (R321, R333). -/
def Life.reset : Life → Life
  | .alive s => .alive (controlReset s)
  | .destroyed => .destroyed

/-- A new construction (70_reset_and_hazards.md R320, R333). -/
def construct : Life := .alive State.reset

/-- How a run ends (40_sequencer.md R145); running out of the host's bound is no end of the machine's
(93_implementation_defined.md U16). -/
inductive RunEnd where
  /-- HALT was executed, or the machine was halted already (R139). -/
  | halted (s : State)
  /-- A tick raised. -/
  | faulted (f : Fault)
  /-- The latch was set already: no tick happens (R139). -/
  | stopped (s : State)
  | outOfFuel (s : State)
  | refused (r : Refusal)
deriving DecidableEq, Repr

/-- `run()` bounded by a number of ticks (40_sequencer.md R139). -/
def controlRun : Nat → State → RunEnd
  | 0, s => if s.halted then .halted s else if s.fault.isSome then .stopped s else .outOfFuel s
  | n + 1, s =>
    if s.halted then .halted s
    else if s.fault.isSome then .stopped s
    else
      match step s with
      | .next t => controlRun n t
      | .fault f => .faulted f
      | .refused r => .refused r

end Sys2Proof.Machine
end

