-- ==== Sys2Proof/Safety.lean ====
section
/-! DEFINITION. The terms claims are stated in: what stays the same across an instruction, the result of
an integer or float instruction, the invariant of the machine, which instructions write which state, and
correct rounding. -/
namespace Sys2Proof.Safety
open Sys2Proof Sys2Proof.Machine

/-! ## Frames -/

/-- Every cell of memory reads as before. -/
def SameMem (s t : State) : Prop := ∀ n, t.mem.read n = s.mem.read n

/-- Every integer register but `d` reads as before. -/
def SameXBut (d : IReg) (s t : State) : Prop := ∀ r, r ≠ d → t.readX r = s.readX r

/-- Every integer register reads as before. -/
def SameX (s t : State) : Prop := ∀ r, t.readX r = s.readX r

/-- Every float register but `d` reads as before. -/
def SameFBut (d : FReg) (s t : State) : Prop := ∀ r, r ≠ d → t.readF r = s.readF r

/-- Every float register reads as before. -/
def SameF (s t : State) : Prop := ∀ r, t.readF r = s.readF r

/-- The halted flag, the tick counter and the fault latch are as before. -/
def SameLatches (s t : State) : Prop :=
  t.halted = s.halted ∧ t.cycles = s.cycles ∧ t.fault = s.fault

/-- The generator and the output are as before. -/
def SameDevices (s t : State) : Prop := t.prng = s.prng ∧ t.out = s.out

/-- ZERO and NEGATIVE are those of `v` (40_sequencer.md R141); the other three flags are as before. -/
def FlagsOf (v : Word) (s t : State) : Prop :=
  (t.ctrl.zero = true ↔ v.toNat = 0) ∧ (t.ctrl.negative = true ↔ 0x7FFFFF < v.toNat) ∧
  t.ctrl.carry = s.ctrl.carry ∧ t.ctrl.testTrue = s.ctrl.testTrue ∧ t.ctrl.extFnc = s.ctrl.extFnc

/-- From `s` to `t` the integer register `d` received `v` and the flags those of `v`; nothing else changed. -/
def IntResult (s t : State) (d : IReg) (v : Word) : Prop :=
  t.readX d = v ∧ FlagsOf v s t ∧ SameXBut d s t ∧ SameF s t ∧ t.pc = s.pc ∧ SameLatches s t ∧
  SameDevices s t ∧ SameMem s t

/-- `r` as a register's content: the number itself, or some NaN, a quiet one for an invalid operation
(46_extended_float.md R261). -/
def HoldsResult (r : FpResult) (v : F64) : Prop :=
  (∀ d, r = .value d → v = d) ∧ (r = .invalid → isQuietNaN v = true) ∧ (r = .anyNaN → isNaN v = true)

/-- From `s` to `t` the float register `d` received `r`; nothing else changed. -/
def FloatResult (s t : State) (d : FReg) (r : FpResult) : Prop :=
  HoldsResult r (t.readF d) ∧ SameFBut d s t ∧ t.ctrl = s.ctrl ∧ SameX s t ∧ t.pc = s.pc ∧
  SameLatches s t ∧ SameDevices s t ∧ SameMem s t

/-! ## Faults -/

/-- The state a run-fatal error of an executing instruction leaves: the record latched for the word's
address, `pc - 4`, and nothing else changed (60_exceptions.md R287). -/
def Latched (s : State) (e : RunError) : State := { s with fault := some ⟨e, s.pc - 4#32⟩ }

/-- The first of the fields that is no integer register (30_encoding.md R102). -/
def firstBadInt : List Byte → Option Byte
  | [] => none
  | k :: ks => if 6 ≤ k.toNat then some k else firstBadInt ks

/-- The first of the fields that is no float register (30_encoding.md R102). -/
def firstBadFloat : List Byte → Option Byte
  | [] => none
  | k :: ks => if 4 ≤ k.toNat then some k else firstBadFloat ks

/-- The state runs: no fault latched, `z` is zero, not halted. -/
def Running (s : State) : Prop := s.fault = none ∧ s.z = 0#32 ∧ s.halted = false

/-! ## The invariant -/

/-- `z` is zero (10_state.md R22), CARRY is clear (R33), and memory is in its canonical form with every
cell in range (20_memory.md R61). -/
def Inv (s : State) : Prop :=
  s.z = 0#32 ∧ s.ctrl.carry = false ∧ s.mem.wf = true ∧ s.mem.bounded = true

/-! ## Which instructions write what -/

/-- The instructions that apply `SetZN` (40_sequencer.md R142). -/
def appliesSetZN : Instr → Bool
  | .andR .. | .orR .. | .xorR .. | .llshR .. | .alshR .. | .lrshR .. | .arshR .. => true
  | .andI .. | .orI .. | .xorI .. | .llshI .. | .alshI .. | .lrshI .. | .arshI .. => true
  | .move .. | .notR .. | .loadAtAddr .. | .ldImA .. | .ldImB .. | .ldImX .. => true
  | .incA | .incB | .incX | .addDsi .. | .subDsi .. | .multDsi .. => true
  | .addDss .. | .subDss .. | .multDss .. | .rndNum .. | .sqrtRI .. => true
  | _ => false

/-- The instructions that write TEST_TRUE (10_state.md R35). -/
def writesTest : Instr → Bool
  | .testEq .. | .testNeq .. | .testCtrlNeg => true
  | _ => false

/-- The control transfers, which alone write `pc` (10_state.md R26). -/
def transfers : Instr → Bool
  | .jmp .. | .jmpWithOffset .. | .bnch .. | .bnchWithOffset .. | .callFnI .. | .ret => true
  | _ => false

/-- The instructions that write memory (20_memory.md R60). -/
def storesToMemory : Instr → Bool
  | .storeAtAddr .. | .regPush .. => true
  | _ => false

/-- The instructions that write the generator (10_state.md R41). -/
def writesPrng : Instr → Bool
  | .rndSeed .. | .rndNum .. => true
  | _ => false

/-- The instructions that write the OUT port (45_io.md R250). -/
def writesOut : Instr → Bool
  | .printIR .. | .putcR .. => true
  | _ => false

/-- The integer registers an instruction writes (10_state.md R47). -/
def writesX (i : Instr) (r : IReg) : Bool :=
  match i with
  | .andR d .. | .orR d .. | .xorR d .. | .llshR d .. | .alshR d .. | .lrshR d ..
  | .arshR d .. => d == ixIndex r
  | .andI d .. | .orI d .. | .xorI d .. | .llshI d .. | .alshI d .. | .lrshI d ..
  | .arshI d .. => d == ixIndex r
  | .move d .. | .notR d .. | .popcnt d .. | .loadAtAddr d .. | .rndNum d | .sqrtRI d => d == ixIndex r
  | .addDsi d .. | .subDsi d .. | .multDsi d .. => d == ixIndex r
  | .addDss d .. | .subDss d .. | .multDss d .. => d == ixIndex r
  | .ldImA .. | .incA => r == .a
  | .ldImB .. | .incB => r == .b
  | .ldImX .. | .incX => r == .x
  | .regPush .. => r == .sp
  | .regPop d => d == ixIndex r || r == .sp
  | .callFnI .. => r == .ra
  | _ => false

/-- The float registers an instruction writes (R47). -/
def writesF (i : Instr) (r : FReg) : Bool :=
  match i with
  | .faddDsi d .. | .fsubDsi d .. | .fmultDsi d .. => d == ixFloat r
  | .faddDss d .. | .fsubDss d .. | .fmultDss d .. | .fsqrtRI d => d == ixFloat r
  | .loadFimFa .. => r == .fa
  | .loadFimFb .. => r == .fb
  | _ => false

/-! ## Correct rounding (46_extended_float.md R261) -/

/-- The distance of two exact values. -/
def dist (x y : Int) : Nat := (x - y).natAbs

/-- A finite value in units of `2^-2148`, fine enough for the product of two. -/
def units (d : F64) : Int := f64Int d * 2 ^ 1074

/-- Halfway between the largest finite magnitude and the next power of two, in units of `2^-2148`. -/
def overflowAt : Nat := (2 ^ 54 - 1) * 2 ^ 3118

/-- `d` is `x` units of `2^-2148` rounded to nearest, ties to even: no finite value is nearer, a value
just as near leaves `d` even, and infinity of the right sign stands for magnitudes from halfway past
the largest finite value on. -/
def NearestEven (x : Int) (d : F64) : Prop :=
  (x.natAbs < overflowAt → isFinite d = true ∧
    (∀ e, isFinite e = true → dist (units d) x ≤ dist (units e) x) ∧
    (∀ e, isFinite e = true → dist (units e) x = dist (units d) x → units e ≠ units d →
      f64Frac d % 2 = 0)) ∧
  (overflowAt ≤ x.natAbs → d = f64Inf (decide (x < 0)))

end Sys2Proof.Safety
end

