-- ==== Sys2Proof/Certificates/Slice0/Obligations.lean ====
section
/-! DEFINITION. The statements for the provers. Where a statement gives a word's fields, it takes them by
shifts of the whole word, so it holds for every value of the ignored bits (30_encoding.md R102). -/
namespace Sys2Proof.Claims
open Sys2Proof Sys2Proof.Machine Sys2Proof.Safety

/-! ## Forms of statement -/

/-- Bits 31:24 of a word as a number (30_encoding.md R91). -/
def opcodeOf (w : Word) : Nat := w.toNat / 2 ^ 24

/-- Bits 23:16 of a word (R92). -/
def field23 (w : Word) : Byte := (w >>> 16).setWidth 8

/-- Bits 15:8 of a word (R92). -/
def field15 (w : Word) : Byte := (w >>> 8).setWidth 8

/-- Bits 7:0 of a word (R92). -/
def field7 (w : Word) : Byte := w.setWidth 8

/-- Bits 23:0 of a word (R96). -/
def fieldLit (w : Word) : Lit24 := w.setWidth 24

/-- Every word with opcode byte `op` decodes, in the table `ext`, to `mk` of its fields. The opcode bytes
stated are those the instructions' rules give: the spec's default numbering (R105, R106; log 1). -/
def Encodes (ext : Bool) (op : Nat) (mk : Word → Instr) : Prop :=
  ∀ w : Word, opcodeOf w = op → decode ext w = .ok (mk w)

/-- A field that is no integer register stops the instruction before any effect. The state it leaves holds
the fault record, the spec's own addition (60_exceptions.md R287, D22, log 19). -/
def StopsOnBadInt (k : Byte) (i : Instr) (s : State) : Prop :=
  exec i s = .fault (.invalidRegister k .int (Latched s (.invalidRegister k .int)))

/-- A field that is no float register stops the instruction before any effect; the record as for
`StopsOnBadInt`. -/
def StopsOnBadFloat (k : Byte) (i : Instr) (s : State) : Prop :=
  exec i s = .fault (.invalidRegister k .float (Latched s (.invalidRegister k .float)))

/-- The rule of a three-register integer instruction: its encoding, its result, flags and frame for every
destination but `z`, the fault for `z`, the fault for an index outside the table (R160). -/
def DssRule (op : Nat) (mk : Byte → Byte → Byte → Instr) (f : Word → Word → Word) : Prop :=
  Encodes false op (fun w => mk (field23 w) (field15 w) (field7 w)) ∧
  (∀ (d r1 r2 : IReg) (s : State), d ≠ .z →
    ∃ t, exec (mk (ixIndex d) (ixIndex r1) (ixIndex r2)) s = .next t ∧
      IntResult s t d (f (s.readX r1) (s.readX r2))) ∧
  (∀ (r1 r2 : IReg) (s : State),
    exec (mk (ixIndex .z) (ixIndex r1) (ixIndex r2)) s = .fault .zeroRegisterViolation) ∧
  (∀ (k1 k2 k3 k : Byte) (s : State), firstBadInt [k1, k2, k3] = some k →
    StopsOnBadInt k (mk k1 k2 k3) s)

/-- The rule of an integer instruction with an 8-bit immediate, zero-extended (R160, 30_encoding.md R98). -/
def DsiRule (op : Nat) (mk : Byte → Byte → Byte → Instr) (f : Word → Word → Word) : Prop :=
  Encodes false op (fun w => mk (field23 w) (field15 w) (field7 w)) ∧
  (∀ (d r : IReg) (imm : Byte) (s : State), d ≠ .z →
    ∃ t, exec (mk (ixIndex d) (ixIndex r) imm) s = .next t ∧
      IntResult s t d (f (s.readX r) (BitVec.ofNat 32 imm.toNat))) ∧
  (∀ (r : IReg) (imm : Byte) (s : State),
    exec (mk (ixIndex .z) (ixIndex r) imm) s = .fault .zeroRegisterViolation) ∧
  (∀ (k1 k2 imm k : Byte) (s : State), firstBadInt [k1, k2] = some k →
    StopsOnBadInt k (mk k1 k2 imm) s)

/-- The rule of a two-register integer instruction that sets flags (R176). -/
def DsRule (op : Nat) (mk : Byte → Byte → Instr) (f : Word → Word) : Prop :=
  Encodes false op (fun w => mk (field23 w) (field15 w)) ∧
  (∀ (d r : IReg) (s : State), d ≠ .z →
    ∃ t, exec (mk (ixIndex d) (ixIndex r)) s = .next t ∧ IntResult s t d (f (s.readX r))) ∧
  (∀ (r : IReg) (s : State),
    exec (mk (ixIndex .z) (ixIndex r)) s = .fault .zeroRegisterViolation) ∧
  (∀ (k1 k2 k : Byte) (s : State), firstBadInt [k1, k2] = some k → StopsOnBadInt k (mk k1 k2) s)

/-- The rule of a comparison: TEST_TRUE and nothing else (44_control.md R237). -/
def PairRule (op : Nat) (mk : Byte → Byte → Instr) (test : Word → Word → Prop) : Prop :=
  Encodes false op (fun w => mk (field15 w) (field7 w)) ∧
  (∀ (l r : IReg) (s : State), ∃ b : Bool, (b = true ↔ test (s.readX l) (s.readX r)) ∧
    exec (mk (ixIndex l) (ixIndex r)) s = .next { s with ctrl := { s.ctrl with testTrue := b } }) ∧
  (∀ (k1 k2 k : Byte) (s : State), firstBadInt [k1, k2] = some k → StopsOnBadInt k (mk k1 k2) s)

/-- The rule of an instruction that reads one integer register and leaves the state `f` gives. -/
def SourceRule (op : Nat) (mk : Byte → Instr) (f : State → Word → State) : Prop :=
  Encodes false op (fun w => mk (field7 w)) ∧
  (∀ (r : IReg) (s : State), exec (mk (ixIndex r)) s = .next (f s (s.readX r))) ∧
  (∀ (k : Byte) (s : State), 6 ≤ k.toNat → StopsOnBadInt k (mk k) s)

/-- The rule of a three-register float instruction (46_extended_float.md R272). -/
def FloatDssRule (op : Nat) (mk : Byte → Byte → Byte → Instr) (f : F64 → F64 → FpResult) : Prop :=
  Encodes true op (fun w => mk (field23 w) (field15 w) (field7 w)) ∧
  (∀ (d r1 r2 : FReg) (s : State), d ≠ .f0 →
    ∃ t, exec (mk (ixFloat d) (ixFloat r1) (ixFloat r2)) s = .next t ∧
      FloatResult s t d (f (s.readF r1) (s.readF r2))) ∧
  (∀ (r1 r2 : FReg) (s : State),
    exec (mk (ixFloat .f0) (ixFloat r1) (ixFloat r2)) s = .fault .zeroRegisterViolation) ∧
  (∀ (k1 k2 k3 k : Byte) (s : State), firstBadFloat [k1, k2, k3] = some k →
    StopsOnBadFloat k (mk k1 k2 k3) s)

/-- The rule of a float instruction with an 8-bit float literal (R272, 30_encoding.md R99). -/
def FloatDsiRule (op : Nat) (mk : Byte → Byte → Byte → Instr) (f : F64 → F64 → FpResult) : Prop :=
  Encodes true op (fun w => mk (field23 w) (field15 w) (field7 w)) ∧
  (∀ (d r : FReg) (imm : Byte) (s : State), d ≠ .f0 →
    ∃ t v, widen (imm.setWidth 32 <<< 24) = .value v ∧
      exec (mk (ixFloat d) (ixFloat r) imm) s = .next t ∧ FloatResult s t d (f (s.readF r) v)) ∧
  (∀ (r : FReg) (imm : Byte) (s : State),
    exec (mk (ixFloat .f0) (ixFloat r) imm) s = .fault .zeroRegisterViolation) ∧
  (∀ (k1 k2 imm k : Byte) (s : State), firstBadFloat [k1, k2] = some k →
    StopsOnBadFloat k (mk k1 k2 imm) s)

/-- The word at `n` composed by shifts (20_memory.md R65). -/
def composed (m : Memory) (n : Nat) : Word :=
  ((m.read n).setWidth 32 <<< 24) ||| ((m.read (n + 1)).setWidth 32 <<< 16) |||
    ((m.read (n + 2)).setWidth 32 <<< 8) ||| (m.read (n + 3)).setWidth 32

/-- `m'` is `m` with the four bytes of `v` at `n`, most significant first (20_memory.md R66). -/
def HoldsWordAt (m m' : Memory) (n : Nat) (v : Word) : Prop :=
  m'.read n = (v >>> 24).setWidth 8 ∧ m'.read (n + 1) = (v >>> 16).setWidth 8 ∧
  m'.read (n + 2) = (v >>> 8).setWidth 8 ∧ m'.read (n + 3) = v.setWidth 8 ∧
  ∀ k, k < n ∨ n + 4 ≤ k → m'.read k = m.read k

/-- The two states differ at most in the float registers and the model's count of free draws. -/
def AgreeButFloats (s t : State) : Prop :=
  t = { s with fa := t.fa, fb := t.fb, fx := t.fx, freeDraws := t.freeDraws }

/-- The two outcomes differ at most in the float registers and the model's count of free draws. -/
def OutcomesAgree : Outcome → Outcome → Prop
  | .next s, .next t => AgreeButFloats s t
  | .fault (.unknownOpcode op w s), .fault (.unknownOpcode op' w' t) =>
    op = op' ∧ w = w' ∧ AgreeButFloats s t
  | .fault (.invalidRegister k c s), .fault (.invalidRegister k' c' t) =>
    k = k' ∧ c = c' ∧ AgreeButFloats s t
  | .fault (.memoryOutOfRange a s), .fault (.memoryOutOfRange a' t) => a = a' ∧ AgreeButFloats s t
  | .fault .zeroRegisterViolation, .fault .zeroRegisterViolation => True
  | _, _ => False

/-- The fault outcome that reports the run-fatal error `e` and leaves `l` (60_exceptions.md R280). -/
def faultOf (e : RunError) (l : State) : Fault :=
  match e with
  | .unknownOpcode op w => .unknownOpcode op w l
  | .invalidRegister k c => .invalidRegister k c l
  | .memoryOutOfRange a => .memoryOutOfRange a l

/-- `r`, a nonnegative finite value, is the one nearest to the square root of `x` units of `2^-1074`:
the root lies on the near side of the middle between `r` and any other nonnegative finite value. -/
def NearestRoot (x : Nat) (r : F64) : Prop :=
  isFinite r = true ∧ f64Sign r = false ∧
  ∀ e, isFinite e = true →
    (f64Mag e < f64Mag r → (f64Mag r + f64Mag e) ^ 2 ≤ 4 * (x * 2 ^ 1074)) ∧
    (f64Mag r < f64Mag e → 4 * (x * 2 ^ 1074) ≤ (f64Mag r + f64Mag e) ^ 2)

end Sys2Proof.Claims

open Sys2Proof Sys2Proof.Machine Sys2Proof.Safety Sys2Proof.Claims

/-! ## Encoding -/

/-- Under every injective numbering of the opcode tables, decoding the encoded instruction in its own table
gives it back, with every operand at every value of its field (00_scope.md R7, 30_encoding.md R92 to R97). This
machine's numbering, the default of R105 and R106 (log 1), is injective. -/
def Obligations.DecodeOfEncodeIsIdentity : Prop :=
  (∀ m : Opcodes, m.Injective → ∀ i : Instr, decodeWith m i.isExtended (encodeWith m i) = .ok i) ∧
  Config.opcodes.Injective ∧ ∀ i : Instr, decode i.isExtended (encode i) = .ok i

/-- Under every numbering, an instruction that a word decodes to belongs to the table asked for, and its
encoding is the word with the ignored bits cleared (R102, R104). -/
def Obligations.EncodeOfDecodeKeepsEveryField : Prop :=
  (∀ (m : Opcodes) (ext : Bool) (w : Word) (i : Instr), decodeWith m ext w = .ok i →
    i.isExtended = ext ∧ encodeWith m i = w &&& i.fieldMask) ∧
  ∀ (ext : Bool) (w : Word) (i : Instr), decode ext w = .ok i →
    i.isExtended = ext ∧ encode i = w &&& i.fieldMask

/-- Under every injective numbering, a word that agrees with the encoding of an instruction of the table
on the bits its format does not ignore decodes to it; under every numbering, a word whose opcode byte no
instruction of the table has is refused with that byte and the word (00_scope.md R7, 30_encoding.md R102, R104,
R107; that ignored bits may have any value is the spec's own decision D10, log 19). -/
def Obligations.EveryNumberingDecodesItsWords : Prop :=
  (∀ (m : Opcodes) (w : Word) (i : Instr), m.Injective → encodeWith m i = w &&& i.fieldMask →
    decodeWith m i.isExtended w = .ok i) ∧
  ∀ (m : Opcodes) (ext : Bool) (w : Word),
    (∀ i : Instr, i.isExtended = ext → i.opcodeIn m ≠ (w >>> 24).setWidth 8) →
    decodeWith m ext w = .error (.unknownOpcode ((w >>> 24).setWidth 8) w)

/-- Words written out from the opcode tables of R105 and R106. -/
def Obligations.SpecWordsDecode : Prop :=
  decode false 0x00010203#32 = .ok (.andR 1#8 2#8 3#8) ∧
  decode false 0x070201FF#32 = .ok (.andI 2#8 1#8 0xFF#8) ∧
  decode false 0x0E0101EE#32 = .ok (.move 1#8 1#8) ∧
  decode false 0x12FFFFFF#32 = .ok (.ldImA 0xFFFFFF#24) ∧
  decode false 0x22ABCDEF#32 = .ok .halt ∧
  decode false 0x23AA0102#32 = .ok (.testEq 1#8 2#8) ∧
  decode false 0x2BAABB04#32 = .ok (.regPush 4#8) ∧
  decode true 0x00020140#32 = .ok (.faddDsi 2#8 1#8 0x40#8) ∧
  decode true 0x07BF8000#32 = .ok (.loadFimFa 0xBF8000#24) ∧
  decode true 0x30000000#32 = .error (.unknownOpcode 0x30#8 0x30000000#32)

/-- A register field resolves to the register of that number, or raises the error of its class
(R100, R101; 10_state.md R21, R28). -/
def Obligations.RegisterFieldsResolve : Prop :=
  (∀ k : Byte, regX k =
    if k.toNat = 0 then .ok .z else if k.toNat = 1 then .ok .a else if k.toNat = 2 then .ok .b
    else if k.toNat = 3 then .ok .x else if k.toNat = 4 then .ok .sp else if k.toNat = 5 then .ok .ra
    else .error (.run (.invalidRegister k .int))) ∧
  (∀ k : Byte, regF k =
    if k.toNat = 0 then .ok .f0 else if k.toNat = 1 then .ok .fa else if k.toNat = 2 then .ok .fb
    else if k.toNat = 3 then .ok .fx else .error (.run (.invalidRegister k .float))) ∧
  (∀ (r : IReg) (k : Byte), regX k = .ok r ↔ k = ixIndex r) ∧
  (∀ (r : FReg) (k : Byte), regF k = .ok r ↔ k = ixFloat r)

/-- The signed jump offset: bit 23 set means forward, by the low 23 bits (R112). -/
def Obligations.JumpOffsetIsSignAndMagnitude : Prop :=
  ∀ l : Lit24,
    (2 ^ 23 ≤ l.toNat → jumpOffset l = (l.toNat : Int) - 2 ^ 23) ∧
    (l.toNat < 2 ^ 23 → jumpOffset l = -(l.toNat : Int))

/-! ## The tick -/

/-- A running machine whose word at `pc` decodes executes that instruction in the state with the tick
counted, `pc` advanced by 4 and EXT_FNC cleared (40_sequencer.md R131 to R138). -/
def Obligations.StepRunsTheDecodedInstruction : Prop :=
  ∀ (s : State) (i : Instr), Running s → s.pc.toNat + 3 < Config.memSize →
    decode s.ctrl.extFnc (composed s.mem s.pc.toNat) = .ok i →
    step s = exec i
      { s with
        cycles := s.cycles + 1
        pc := s.pc + 4#32
        ctrl := { s.ctrl with extFnc := false } }

/-- A faulted machine does not change; a non-zero `z` is fatal before anything else; a halted machine
only counts (40_sequencer.md R133, R134, R146; the fault latch, and that a tick on a faulted machine changes
nothing, is the spec's own decision D22, log 19). -/
def Obligations.TickStopsBeforeFetch : Prop :=
  (∀ s : State, s.fault ≠ none → step s = .next s) ∧
  (∀ s : State, s.fault = none → s.z ≠ 0#32 → step s = .fault .zeroRegisterViolation) ∧
  (∀ s : State, s.fault = none → s.z = 0#32 → s.halted = true →
    step s = .next { s with cycles := s.cycles + 1 })

/-- The fetch reads the big-endian word at `pc`; where it leaves memory the tick ends in
MemoryOutOfRange with only the counter moved, the fault record aside (R135). -/
def Obligations.FetchOutOfRangeFaults : Prop :=
  (∀ s : State, s.pc.toNat + 3 < Config.memSize → fetchWord s = .ok (composed s.mem s.pc.toNat)) ∧
  ∀ s : State, Running s → Config.memSize ≤ s.pc.toNat + 3 →
    ∃ l, step s = .fault (.memoryOutOfRange s.pc l) ∧
      l = { s with cycles := s.cycles + 1, fault := l.fault }

/-- A word whose opcode is unassigned in the active table (from `0x31`, from `0x09` in the extended one:
the spec's default numbering, log 1) ends the tick in UnknownOpcode, with the tick counted, `pc` advanced,
EXT_FNC cleared and nothing else changed, the fault record aside; no instruction raises that fault
(60_exceptions.md R281, 30_encoding.md R107). -/
def Obligations.UnknownOpcodeTick : Prop :=
  (∀ s : State, Running s → s.pc.toNat + 3 < Config.memSize →
    (if s.ctrl.extFnc then 0x09 else 0x31) ≤ opcodeOf (composed s.mem s.pc.toNat) →
    ∃ l, step s =
        .fault (.unknownOpcode (s.mem.read s.pc.toNat) (composed s.mem s.pc.toNat) l) ∧
      l = { s with
        cycles := s.cycles + 1
        pc := s.pc + 4#32
        ctrl := { s.ctrl with extFnc := false }
        fault := l.fault }) ∧
  (∀ (ext : Bool) (w : Word), opcodeOf w < (if ext then 0x09 else 0x31) → ∃ i, decode ext w = .ok i) ∧
  (∀ (i : Instr) (s l : State) (op : Byte) (w : Word), exec i s ≠ .fault (.unknownOpcode op w l))

/-- Every tick of a machine without a fault counts, halted, faulting or not (R132). -/
def Obligations.EveryTickCounts : Prop :=
  ∀ s : State, s.fault = none →
    (∀ t, step s = .next t → t.cycles = s.cycles + 1) ∧
    (∀ f l, step s = .fault f → f.left = some l → l.cycles = s.cycles + 1)

/-- EXT_FNC lasts one dispatch: after a tick that dispatched it is set exactly if the word was
EXT_INSTR in the normal table; a dispatch that ends in a fault leaves it clear; a tick that ends at the
fetch or earlier leaves it as it was (R137, R138; for a halted tick R134, for a fetch fault R135). That the
latter two leave it is also the sentence of R138 that the spec marks as its own decision D33, and the
faulted tick and what a fault leaves are its decision D22 (log 19). -/
def Obligations.ExtendedModeLastsOneDispatch : Prop :=
  (∀ s t : State, Running s → step s = .next t →
    (t.ctrl.extFnc = true ↔
      s.ctrl.extFnc = false ∧ opcodeOf (composed s.mem s.pc.toNat) = 0x30)) ∧
  (∀ (s l : State) (f : Fault), step s = .fault f → f.left = some l →
    (s.pc.toNat + 3 < Config.memSize → l.ctrl.extFnc = false) ∧
    (Config.memSize ≤ s.pc.toNat + 3 → l.ctrl.extFnc = s.ctrl.extFnc)) ∧
  (∀ s t : State, (s.fault ≠ none ∨ s.halted = true) → step s = .next t →
    t.ctrl.extFnc = s.ctrl.extFnc)

/-- No tick of any state is refused: every instruction has a meaning. -/
def Obligations.StepNeverRefuses : Prop :=
  ∀ (s : State) (r : Refusal), step s ≠ .refused r

/-- Faults are precise: a run-fatal fault leaves the tick counted and the record of its kind latched with
the address of the word; `pc` is advanced and EXT_FNC cleared if the fetch succeeded; all else is as
before the tick (60_exceptions.md R287; the record is the spec's own addition, D22, log 19). -/
def Obligations.RunFatalFaultsArePrecise : Prop :=
  ∀ (s l : State) (f : Fault), step s = .fault f → f.left = some l →
    ∃ e : RunError, f = faultOf e l ∧
      ((Config.memSize ≤ s.pc.toNat + 3 ∧
          l = { s with cycles := s.cycles + 1, fault := some ⟨e, s.pc⟩ }) ∨
        (s.pc.toNat + 3 < Config.memSize ∧
          l = { s with
            cycles := s.cycles + 1
            pc := s.pc + 4#32
            ctrl := { s.ctrl with extFnc := false }
            fault := some ⟨e, s.pc⟩ }))

/-! ## The invariant -/

/-- Every step keeps the invariant. -/
def Obligations.StepKeepsInvariant : Prop :=
  ∀ s t : State, Inv s → step s = .next t → Inv t

/-- The invariant holds after construction. -/
def Obligations.ResetHasInvariant : Prop := Inv State.reset

/-- The host's `reset()` and `load`, and every run-fatal fault, keep the invariant. -/
def Obligations.PortsAndFaultsKeepInvariant : Prop :=
  ∀ s : State, Inv s →
    Inv (controlReset s) ∧
    (∀ (bytes : List Byte) (start : Word) (t : State), loadPort bytes start s = some t → Inv t) ∧
    (∀ (f : Fault) (l : State), step s = .fault f → f.left = some l → Inv l)

/-! ## Reset and the host's ports -/

/-- What the spec gives construction: `pc`, the general registers, the flags, the latches, the output,
zeroed memory; `sp` and the generator hold the parameters SP_INIT and PRNG_RESET, whose values the model
chose (logs 3, 7) and this does not say; `ra`, `fa`, `fb`, `fx` are unspecified (70_reset_and_hazards.md
R320). -/
def Obligations.ConstructionValues : Prop :=
  State.reset.pc = 0xF000#32 ∧ State.reset.z = 0#32 ∧ State.reset.a = 0#32 ∧ State.reset.b = 0#32 ∧
  State.reset.x = 0#32 ∧ State.reset.sp = Config.spInit ∧ State.reset.readF .f0 = 0#64 ∧
  State.reset.ctrl = ⟨false, false, false, false, false⟩ ∧ State.reset.halted = false ∧
  State.reset.cycles = 0 ∧ State.reset.fault = none ∧ State.reset.out = [] ∧
  State.reset.prng = prngReset ∧ ∀ n, State.reset.mem.read n = 0x00#8

/-- `reset()` restores what its list names and leaves memory, generator and output; a destroyed machine
it does not bring back (70_reset_and_hazards.md R321, R322; decisions D4, D18, D20, D22, logs 3, 19). -/
def Obligations.ResetOperation : Prop :=
  (∀ s : State, let t := controlReset s
    t.pc = 0xF000#32 ∧ t.a = 0#32 ∧ t.b = 0#32 ∧ t.x = 0#32 ∧ t.sp = Config.spInit ∧ t.z = s.z ∧
    t.ctrl.zero = false ∧ t.ctrl.carry = false ∧ t.ctrl.negative = false ∧ t.ctrl.testTrue = false ∧
    t.ctrl.extFnc = false ∧ t.halted = false ∧ t.cycles = 0 ∧ t.fault = none ∧
    t.mem = s.mem ∧ t.prng = s.prng ∧ t.out = s.out ∧ Life.reset (.alive s) = .alive t) ∧
  Life.reset .destroyed = .destroyed

/-- A run-fatal fault leaves a machine that does not tick until `reset()`; a process-fatal one leaves
none (60_exceptions.md R285; as hardware the spec's own reading, D22, log 19). -/
def Obligations.FaultsEndTheRun : Prop :=
  (∀ (s l : State) (f : Fault), step s = .fault f → f.left = some l →
    Life.tick (.alive s) = .alive l ∧ Life.tick (.alive l) = .alive l ∧
    Life.reset (.alive l) = .alive (controlReset l) ∧ (controlReset l).mem = s.mem) ∧
  (∀ s : State, step s = .fault .zeroRegisterViolation →
    Life.tick (.alive s) = .destroyed ∧ Life.tick .destroyed = .destroyed)

/-- `load` writes the bytes at the address if they all fit, and fails otherwise (20_memory.md R68; that a load
that fails is no fault of the machine is the spec's own decision D34, log 19). R68 gives a load of no bytes no
meaning: what the clauses say of one is the model's choice, after 93_implementation_defined.md U14 (log 18). -/
def Obligations.LoadPortWritesItsRange : Prop :=
  ∀ (bytes : List Byte) (start : Word) (s : State), s.mem.wf = true →
    (Config.memSize < start.toNat + bytes.length → loadPort bytes start s = none) ∧
    (start.toNat + bytes.length ≤ Config.memSize →
      ∃ m, loadPort bytes start s = some { s with mem := m } ∧
        (∀ (i : Nat) (h : i < bytes.length), m.read (start.toNat + i) = bytes[i]) ∧
        (∀ k, k < start.toNat ∨ start.toNat + bytes.length ≤ k → m.read k = s.mem.read k))

/-! ## Memory access -/

/-- `MemRead(addr, 1)` and `MemWrite(addr, 1, v)` (20_memory.md R62, R63). -/
def Obligations.ByteAccess : Prop :=
  ∀ (m : Memory) (addr : Word) (v : Byte), m.wf = true →
    (addr.toNat < Config.memSize → memRead1 m addr = .ok (m.read addr.toNat) ∧
      ∃ m', memWrite1 m addr v = .ok m' ∧ m'.read addr.toNat = v ∧
        ∀ k, k ≠ addr.toNat → m'.read k = m.read k) ∧
    (Config.memSize ≤ addr.toNat →
      memRead1 m addr = .error (.run (.memoryOutOfRange addr)) ∧
      memWrite1 m addr v = .error (.run (.memoryOutOfRange addr)))

/-- `MemRead(addr, 4)` composes four bytes big-endian, or raises if any is out of range (R65). -/
def Obligations.WordReadIsBigEndian : Prop :=
  ∀ (m : Memory) (addr : Word),
    (addr.toNat + 3 < Config.memSize → memRead4 m addr = .ok (composed m addr.toNat)) ∧
    (Config.memSize ≤ addr.toNat + 3 → memRead4 m addr = .error (.run (.memoryOutOfRange addr)))

/-- `MemWrite(addr, 4, v)` writes the four bytes big-endian and no other, or raises (R66). -/
def Obligations.WordWriteIsBigEndian : Prop :=
  ∀ (m : Memory) (addr v : Word), m.wf = true →
    (addr.toNat + 3 < Config.memSize →
      ∃ m', memWrite4 m addr v = .ok m' ∧ HoldsWordAt m m' addr.toNat v) ∧
    (Config.memSize ≤ addr.toNat + 3 → memWrite4 m addr v = .error (.run (.memoryOutOfRange addr)))

/-! ## Flags -/

/-- `SetZN(v)` writes ZERO and NEGATIVE by value and threshold and nothing else (40_sequencer.md R141;
that a negative result clears ZERO and stays in the register as it is, is the spec's own reading, D14,
log 19). -/
def Obligations.SetZNPolicy : Prop :=
  ∀ (s : State) (v : Word), FlagsOf v s (s.setZN v) ∧
    s.setZN v = { s with ctrl := { s.ctrl with
      zero := (s.setZN v).ctrl.zero, negative := (s.setZN v).ctrl.negative } }

/-- ZERO and NEGATIVE change only by the instructions that apply SetZN, TEST_TRUE only by the tests,
EXT_FNC only by EXT_INSTR, CARRY never (40_sequencer.md R142, 10_state.md R33, R35). -/
def Obligations.FlagsChangeOnlyByTheirInstructions : Prop :=
  ∀ (i : Instr) (s t : State), exec i s = .next t →
    (appliesSetZN i = false → t.ctrl.zero = s.ctrl.zero ∧ t.ctrl.negative = s.ctrl.negative) ∧
    (writesTest i = false → t.ctrl.testTrue = s.ctrl.testTrue) ∧
    (i ≠ .extInstr → t.ctrl.extFnc = s.ctrl.extFnc) ∧
    t.ctrl.carry = s.ctrl.carry

/-- Every register, latch and memory, the flags apart, changes only by the instructions the spec names for
it (10_state.md R22, R26, R39 to R43, R47, 20_memory.md R60, 46_extended_float.md R271, R273; the fault latch
is the spec's own decision D22, log 19). -/
def Obligations.StateChangesOnlyByItsInstructions : Prop :=
  ∀ (i : Instr) (s t : State), exec i s = .next t →
    (∀ r : IReg, writesX i r = false → t.readX r = s.readX r) ∧
    (∀ r : FReg, writesF i r = false → t.readF r = s.readF r) ∧
    (transfers i = false → t.pc = s.pc) ∧
    (i ≠ .halt → t.halted = s.halted) ∧
    t.cycles = s.cycles ∧ t.fault = s.fault ∧ t.z = s.z ∧
    (writesPrng i = false → t.prng = s.prng) ∧
    (writesOut i = false → t.out = s.out) ∧
    (storesToMemory i = false → t.mem = s.mem) ∧
    (i.isExtended = false → SameF s t) ∧
    (i.isExtended = true → SameX s t ∧ t.ctrl = s.ctrl)

/-- No float register ever reaches the rest of the machine: two states that differ only there tick to
outcomes that differ only there (46_extended_float.md R273). -/
def Obligations.FloatRegistersAreIsolated : Prop :=
  ∀ s t : State, AgreeButFloats s t → OutcomesAgree (step s) (step t)

/-! ## Logic, shift, move -/

/-- AND_R, OR_R, XOR_R (41_logic_shift_move.md R162 to R164; what the fault record holds is the spec's own
addition, R287 and D22, log 19). -/
def Obligations.BitwiseRegisterInstructions : Prop :=
  DssRule 0x00 .andR (fun u v => u &&& v) ∧ DssRule 0x01 .orR (fun u v => u ||| v) ∧
  DssRule 0x02 .xorR (fun u v => u ^^^ v)

/-- LLSH_R, ALSH_R, LRSH_R, ARSH_R by the arithmetic of R161 (R165 to R168). That the whole amount is used
and that ALSH is LLSH is the spec's own reading (R161, decision D13; log 14). -/
def Obligations.ShiftRegisterInstructions : Prop :=
  DssRule 0x03 .llshR (fun u v => BitVec.ofNat 32 (u.toNat * 2 ^ v.toNat)) ∧
  DssRule 0x04 .alshR (fun u v => BitVec.ofNat 32 (u.toNat * 2 ^ v.toNat)) ∧
  DssRule 0x05 .lrshR (fun u v => BitVec.ofNat 32 (u.toNat / 2 ^ v.toNat)) ∧
  DssRule 0x06 .arshR (fun u v => BitVec.ofInt 32 (u.toInt / 2 ^ v.toNat))

/-- AND_I, OR_I, XOR_I (R169 to R171; what the fault record holds is the spec's own addition, R287 and D22,
log 19). -/
def Obligations.BitwiseImmediateInstructions : Prop :=
  DsiRule 0x07 .andI (fun u v => u &&& v) ∧ DsiRule 0x08 .orI (fun u v => u ||| v) ∧
  DsiRule 0x09 .xorI (fun u v => u ^^^ v)

/-- LLSH_I, ALSH_I, LRSH_I, ARSH_I by the arithmetic of R161, the spec's own reading (decision D13; log 14)
(R172 to R175). -/
def Obligations.ShiftImmediateInstructions : Prop :=
  DsiRule 0x0A .llshI (fun u v => BitVec.ofNat 32 (u.toNat * 2 ^ v.toNat)) ∧
  DsiRule 0x0B .alshI (fun u v => BitVec.ofNat 32 (u.toNat * 2 ^ v.toNat)) ∧
  DsiRule 0x0C .lrshI (fun u v => BitVec.ofNat 32 (u.toNat / 2 ^ v.toNat)) ∧
  DsiRule 0x0D .arshI (fun u v => BitVec.ofInt 32 (u.toInt / 2 ^ v.toNat))

/-- MOVE and NOT_R (R176, R177; what the fault record holds is the spec's own addition, R287 and D22,
log 19). -/
def Obligations.MoveAndComplement : Prop :=
  DsRule 0x0E .move (fun u => u) ∧ DsRule 0x0F .notR (fun u => ~~~u)

/-- POPCNT counts the ones among 32 bits and writes no flag (R178). -/
def Obligations.PopulationCount : Prop :=
  Encodes false 0x26 (fun w => .popcnt (field23 w) (field15 w)) ∧
  (∀ (d r : IReg) (s : State), d ≠ .z →
    ∃ t, exec (.popcnt (ixIndex d) (ixIndex r)) s = .next t ∧
      (t.readX d).toNat = (Finset.univ.filter fun i : Fin 32 => (s.readX r)[i] = true).card ∧
      t.ctrl = s.ctrl ∧ SameXBut d s t ∧ SameF s t ∧ t.pc = s.pc ∧ SameLatches s t ∧
      SameDevices s t ∧ SameMem s t) ∧
  (∀ (r : IReg) (s : State),
    exec (.popcnt (ixIndex .z) (ixIndex r)) s = .fault .zeroRegisterViolation) ∧
  (∀ (k1 k2 k : Byte) (s : State), firstBadInt [k1, k2] = some k → StopsOnBadInt k (.popcnt k1 k2) s)

/-! ## Arithmetic -/

/-- ADD_DSI, SUB_DSI, MULT_DSI modulo `2^32`, a wrap that R200 calls the spec's own reading (D12, log 19)
(43_arithmetic.md R207 to R209; what the fault record holds is the spec's own addition, R287 and D22,
log 19). -/
def Obligations.ArithmeticImmediateInstructions : Prop :=
  DsiRule 0x18 .addDsi (fun u v => BitVec.ofInt 32 (u.toNat + v.toNat)) ∧
  DsiRule 0x19 .subDsi (fun u v => BitVec.ofInt 32 (u.toNat - v.toNat)) ∧
  DsiRule 0x1A .multDsi (fun u v => BitVec.ofInt 32 (u.toNat * v.toNat))

/-- ADD_DSS, SUB_DSS, MULT_DSS modulo `2^32`, a wrap that R200 calls the spec's own reading (D12, log 19)
(R210 to R212). -/
def Obligations.ArithmeticRegisterInstructions : Prop :=
  DssRule 0x1B .addDss (fun u v => BitVec.ofInt 32 (u.toNat + v.toNat)) ∧
  DssRule 0x1C .subDss (fun u v => BitVec.ofInt 32 (u.toNat - v.toNat)) ∧
  DssRule 0x1D .multDss (fun u v => BitVec.ofInt 32 (u.toNat * v.toNat))

/-- LD_IM_A, LD_IM_B, LD_IM_X load the zero-extended literal (R201 to R203). -/
def Obligations.LoadImmediateInstructions : Prop :=
  Encodes false 0x12 (fun w => .ldImA (fieldLit w)) ∧ Encodes false 0x13 (fun w => .ldImB (fieldLit w)) ∧
  Encodes false 0x14 (fun w => .ldImX (fieldLit w)) ∧
  ∀ (l : Lit24) (s : State),
    (∃ t, exec (.ldImA l) s = .next t ∧ IntResult s t .a (BitVec.ofNat 32 l.toNat)) ∧
    (∃ t, exec (.ldImB l) s = .next t ∧ IntResult s t .b (BitVec.ofNat 32 l.toNat)) ∧
    (∃ t, exec (.ldImX l) s = .next t ∧ IntResult s t .x (BitVec.ofNat 32 l.toNat))

/-- INC_A, INC_B, INC_X add 1 modulo `2^32` (R204 to R206). -/
def Obligations.IncrementInstructions : Prop :=
  Encodes false 0x15 (fun _ => .incA) ∧ Encodes false 0x16 (fun _ => .incB) ∧
  Encodes false 0x17 (fun _ => .incX) ∧
  ∀ s : State,
    (∃ t, exec .incA s = .next t ∧ IntResult s t .a (BitVec.ofNat 32 (s.a.toNat + 1))) ∧
    (∃ t, exec .incB s = .next t ∧ IntResult s t .b (BitVec.ofNat 32 (s.b.toNat + 1))) ∧
    (∃ t, exec .incX s = .next t ∧ IntResult s t .x (BitVec.ofNat 32 (s.x.toNat + 1)))

/-- SQRT_R_I gives the largest integer whose square is at most the unsigned value, which R213 calls the
spec's own reading of "integer_sqrt" (log 19). -/
def Obligations.IntegerSquareRoot : Prop :=
  Encodes false 0x2F (fun w => .sqrtRI (field7 w)) ∧
  (∀ (d : IReg) (s : State), d ≠ .z →
    ∃ t q, exec (.sqrtRI (ixIndex d)) s = .next t ∧ IntResult s t d q ∧
      q.toNat * q.toNat ≤ (s.readX d).toNat ∧ (s.readX d).toNat < (q.toNat + 1) * (q.toNat + 1)) ∧
  (∀ s : State, exec (.sqrtRI (ixIndex .z)) s = .fault .zeroRegisterViolation) ∧
  (∀ (k : Byte) (s : State), 6 ≤ k.toNat → StopsOnBadInt k (.sqrtRI k) s)

/-- RND_SEED changes the generator alone, and RND_NUM the generator, its destination and the flags of the
number drawn; the same seed and the same count of draws give the same number (R214, R215). The numbers
are free values (log 7). -/
def Obligations.RandomInstructions : Prop :=
  Encodes false 0x2D (fun w => .rndSeed (field7 w)) ∧ Encodes false 0x2E (fun w => .rndNum (field7 w)) ∧
  ∃ (seed : Word → Prng) (number : Prng → Word) (next : Prng → Prng),
    (∀ (r : IReg) (s : State),
      exec (.rndSeed (ixIndex r)) s = .next { s with prng := seed (s.readX r) }) ∧
    (∀ (d : IReg) (s : State), d ≠ .z →
      ∃ t, exec (.rndNum (ixIndex d)) s = .next t ∧ t.prng = next s.prng ∧
        t.readX d = number s.prng ∧ FlagsOf (number s.prng) s t ∧ SameXBut d s t ∧ SameF s t ∧
        t.pc = s.pc ∧ SameLatches s t ∧ t.out = s.out ∧ SameMem s t) ∧
    (∀ s : State, exec (.rndNum (ixIndex .z)) s = .fault .zeroRegisterViolation) ∧
    (∀ (k : Byte) (s : State), 6 ≤ k.toNat →
      StopsOnBadInt k (.rndSeed k) s ∧ StopsOnBadInt k (.rndNum k) s)

/-! ## Load, store, stack -/

/-- LOAD_AT_ADDR loads one byte zero-extended; its faults come in the order register field, memory range,
destination `z` (42_memory_stack.md R190). The zero extension is the spec's own reading (D15, log 19). -/
def Obligations.LoadByteInstruction : Prop :=
  Encodes false 0x10 (fun w => .loadAtAddr (field23 w) (field15 w)) ∧
  (∀ (d r : IReg) (s : State), d ≠ .z → (s.readX r).toNat < Config.memSize →
    ∃ t, exec (.loadAtAddr (ixIndex d) (ixIndex r)) s = .next t ∧
      IntResult s t d (BitVec.ofNat 32 (s.mem.read (s.readX r).toNat).toNat)) ∧
  (∀ (d r : IReg) (s : State), Config.memSize ≤ (s.readX r).toNat →
    exec (.loadAtAddr (ixIndex d) (ixIndex r)) s =
      .fault (.memoryOutOfRange (s.readX r) (Latched s (.memoryOutOfRange (s.readX r))))) ∧
  (∀ (r : IReg) (s : State), (s.readX r).toNat < Config.memSize →
    exec (.loadAtAddr (ixIndex .z) (ixIndex r)) s = .fault .zeroRegisterViolation) ∧
  (∀ (k1 k2 k : Byte) (s : State), firstBadInt [k1, k2] = some k →
    StopsOnBadInt k (.loadAtAddr k1 k2) s)

/-- STORE_AT_ADDR stores the low byte of `src` in the cell whose address `dest` holds, `z` included, and
changes nothing else (R191). The choice of the low byte is the spec's own reading (D15, log 19). -/
def Obligations.StoreByteInstruction : Prop :=
  Encodes false 0x11 (fun w => .storeAtAddr (field23 w) (field15 w)) ∧
  (∀ (d r : IReg) (s : State), s.mem.wf = true → (s.readX d).toNat < Config.memSize →
    ∃ t, exec (.storeAtAddr (ixIndex d) (ixIndex r)) s = .next t ∧
      t.mem.read (s.readX d).toNat = (s.readX r).setWidth 8 ∧
      (∀ n, n ≠ (s.readX d).toNat → t.mem.read n = s.mem.read n) ∧
      t = { s with mem := t.mem }) ∧
  (∀ (d r : IReg) (s : State), Config.memSize ≤ (s.readX d).toNat →
    exec (.storeAtAddr (ixIndex d) (ixIndex r)) s =
      .fault (.memoryOutOfRange (s.readX d) (Latched s (.memoryOutOfRange (s.readX d))))) ∧
  (∀ (k1 k2 k : Byte) (s : State), firstBadInt [k1, k2] = some k →
    StopsOnBadInt k (.storeAtAddr k1 k2) s)

/-- REG_PUSH stores the register big-endian at `sp` and adds 4 to `sp`; nothing else changes (R192;
what the fault record holds is the spec's own addition, R287 and D22, log 19). -/
def Obligations.PushInstruction : Prop :=
  Encodes false 0x2B (fun w => .regPush (field7 w)) ∧
  (∀ (r : IReg) (s : State), s.mem.wf = true → s.sp.toNat + 3 < Config.memSize →
    ∃ t, exec (.regPush (ixIndex r)) s = .next t ∧
      HoldsWordAt s.mem t.mem s.sp.toNat (s.readX r) ∧
      t = { s with mem := t.mem, sp := s.sp + 4#32 }) ∧
  (∀ (r : IReg) (s : State), Config.memSize ≤ s.sp.toNat + 3 →
    exec (.regPush (ixIndex r)) s =
      .fault (.memoryOutOfRange s.sp (Latched s (.memoryOutOfRange s.sp)))) ∧
  (∀ (k : Byte) (s : State), 6 ≤ k.toNat → StopsOnBadInt k (.regPush k) s)

/-- REG_POP reads the word at `sp - 4` and takes 4 from `sp`; popping into `sp` leaves the word less 4;
no flag changes (R193). What popping into `sp` leaves is the spec's choice (90_conflicts.md C4; log 15). -/
def Obligations.PopInstruction : Prop :=
  Encodes false 0x2C (fun w => .regPop (field7 w)) ∧
  (∀ (r : IReg) (s : State), r ≠ .z → (s.sp - 4#32).toNat + 3 < Config.memSize →
    ∃ t, exec (.regPop (ixIndex r)) s = .next t ∧
      (r ≠ .sp → t.readX r = composed s.mem (s.sp - 4#32).toNat ∧ t.sp = s.sp - 4#32) ∧
      (r = .sp → t.sp = composed s.mem (s.sp - 4#32).toNat - 4#32) ∧
      (∀ q, q ≠ r → q ≠ .sp → t.readX q = s.readX q) ∧ t.ctrl = s.ctrl ∧ SameF s t ∧ t.pc = s.pc ∧
      SameLatches s t ∧ SameDevices s t ∧ SameMem s t) ∧
  (∀ (r : IReg) (s : State), Config.memSize ≤ (s.sp - 4#32).toNat + 3 →
    exec (.regPop (ixIndex r)) s =
      .fault (.memoryOutOfRange (s.sp - 4#32) (Latched s (.memoryOutOfRange (s.sp - 4#32))))) ∧
  (∀ s : State, (s.sp - 4#32).toNat + 3 < Config.memSize →
    exec (.regPop (ixIndex .z)) s = .fault .zeroRegisterViolation) ∧
  (∀ (k : Byte) (s : State), 6 ≤ k.toNat → StopsOnBadInt k (.regPop k) s)

/-- A push followed by a pop of the same register restores it and `sp`, for every register but `z` and
`sp` (R195). -/
def Obligations.PushThenPopRestores : Prop :=
  ∀ (r : IReg) (s : State), r ≠ .z → r ≠ .sp → s.mem.wf = true → s.sp.toNat + 3 < Config.memSize →
    ∃ t u, exec (.regPush (ixIndex r)) s = .next t ∧ exec (.regPop (ixIndex r)) t = .next u ∧
      u.readX r = s.readX r ∧ u.sp = s.sp ∧ SameX s u

/-! ## Control -/

/-- JMP and JMP_WITH_OFFSET write `pc` and nothing else (44_control.md R230, R231). The wrap of the sum
is the spec's own reading (D17, log 19). -/
def Obligations.JumpInstructions : Prop :=
  Encodes false 0x1F (fun w => .jmp (fieldLit w)) ∧
  Encodes false 0x21 (fun w => .jmpWithOffset (fieldLit w)) ∧
  ∀ (l : Lit24) (s : State),
    exec (.jmp l) s = .next { s with pc := BitVec.ofNat 32 l.toNat } ∧
    exec (.jmpWithOffset l) s = .next { s with pc := s.pc + BitVec.ofInt 32 (jumpOffset l) }

/-- BNCH and BNCH_WITH_OFFSET jump exactly if TEST_TRUE is set, which they keep
(R232, R233). That a branch jumps by its own literal is the spec's own reading (D11, log 13). -/
def Obligations.BranchInstructions : Prop :=
  Encodes false 0x1E (fun w => .bnch (fieldLit w)) ∧
  Encodes false 0x20 (fun w => .bnchWithOffset (fieldLit w)) ∧
  ∀ (l : Lit24) (s : State),
    (s.ctrl.testTrue = true →
      exec (.bnch l) s = .next { s with pc := BitVec.ofNat 32 l.toNat } ∧
      exec (.bnchWithOffset l) s = .next { s with pc := s.pc + BitVec.ofInt 32 (jumpOffset l) }) ∧
    (s.ctrl.testTrue = false → exec (.bnch l) s = .next s ∧ exec (.bnchWithOffset l) s = .next s)

/-- CALL_FN_I links in `ra` and jumps; RET jumps to `ra` (R234, R235). -/
def Obligations.CallAndReturn : Prop :=
  Encodes false 0x29 (fun w => .callFnI (fieldLit w)) ∧ Encodes false 0x2A (fun _ => .ret) ∧
  ∀ (l : Lit24) (s : State),
    exec (.callFnI l) s = .next { s with ra := s.pc, pc := BitVec.ofNat 32 l.toNat } ∧
    exec .ret s = .next { s with pc := s.ra }

/-- HALT sets the latch, and every later tick only counts; EXT_INSTR sets EXT_FNC and nothing else
(R236, R240). -/
def Obligations.HaltAndExtendedPrefix : Prop :=
  Encodes false 0x22 (fun _ => .halt) ∧ Encodes false 0x30 (fun _ => .extInstr) ∧
  (∀ s : State, exec .halt s = .next { s with halted := true } ∧
    exec .extInstr s = .next { s with ctrl := { s.ctrl with extFnc := true } }) ∧
  (∀ s : State, s.fault = none → s.z = 0#32 →
    step { s with halted := true } = .next { s with halted := true, cycles := s.cycles + 1 })

/-- TEST_EQ and TEST_NEQ compare all 32 bits; TEST_CTRL_NEG copies NEGATIVE; each writes TEST_TRUE and
nothing else (R237 to R239). That TEST_EQ compares 32 bits is the spec's own reading (D29, log 19). -/
def Obligations.TestInstructions : Prop :=
  PairRule 0x23 .testEq (fun u v => u.toNat = v.toNat) ∧
  PairRule 0x24 .testNeq (fun u v => u.toNat ≠ v.toNat) ∧
  Encodes false 0x25 (fun _ => .testCtrlNeg) ∧
  ∀ s : State, exec .testCtrlNeg s = .next { s with ctrl := { s.ctrl with testTrue := s.ctrl.negative } }

/-! ## Output -/

/-- PRINT_I_R and PUTC_R append one event, of the whole register or of its low byte
(45_io.md R251, R252; what the fault record holds is the spec's own addition, R287 and D22, log 19). -/
def Obligations.OutputInstructions : Prop :=
  SourceRule 0x27 .printIR (fun s v => { s with out := s.out ++ [.int v] }) ∧
  SourceRule 0x28 .putcR (fun s v => { s with out := s.out ++ [.char (v.setWidth 8)] })

/-! ## Floating point -/

/-- FADD_DSI, FSUB_DSI, FMULT_DSI by the operations of R261, IEEE 754 at the spec's presumption (log 9)
(46_extended_float.md R262 to R264). -/
def Obligations.FloatImmediateInstructions : Prop :=
  FloatDsiRule 0x00 .faddDsi fadd ∧ FloatDsiRule 0x01 .fsubDsi fsub ∧ FloatDsiRule 0x02 .fmultDsi fmul

/-- FADD_DSS, FSUB_DSS, FMULT_DSS by the operations of R261 (log 9) (R265 to R267). -/
def Obligations.FloatRegisterInstructions : Prop :=
  FloatDssRule 0x03 .faddDss fadd ∧ FloatDssRule 0x04 .fsubDss fsub ∧ FloatDssRule 0x05 .fmultDss fmul

/-- FSQRT_R_I in place by the operation of R261 (log 9) (R268). -/
def Obligations.FloatSquareRootInstruction : Prop :=
  Encodes true 0x06 (fun w => .fsqrtRI (field7 w)) ∧
  (∀ (d : FReg) (s : State), d ≠ .f0 →
    ∃ t, exec (.fsqrtRI (ixFloat d)) s = .next t ∧ FloatResult s t d (fsqrt (s.readF d))) ∧
  (∀ s : State, exec (.fsqrtRI (ixFloat .f0)) s = .fault .zeroRegisterViolation) ∧
  (∀ (k : Byte) (s : State), 4 ≤ k.toNat → StopsOnBadFloat k (.fsqrtRI k) s)

/-- LOAD_FIM_FA and LOAD_FIM_FB load the literal, the top bits of a binary32 pattern, widened
(R269, R270; log 9, and D32 of log 19). -/
def Obligations.FloatLoadInstructions : Prop :=
  Encodes true 0x07 (fun w => .loadFimFa (fieldLit w)) ∧
  Encodes true 0x08 (fun w => .loadFimFb (fieldLit w)) ∧
  ∀ (l : Lit24) (s : State),
    (∃ t, exec (.loadFimFa l) s = .next t ∧ FloatResult s t .fa (widen (l.setWidth 32 <<< 8))) ∧
    (∃ t, exec (.loadFimFb l) s = .next t ∧ FloatResult s t .fb (widen (l.setWidth 32 <<< 8)))

/-- A binary32 pattern widens exactly; infinities keep their sign and NaNs stay NaNs
(30_encoding.md R99; log 9). -/
def Obligations.WideningIsExact : Prop :=
  ∀ p : F32,
    let e := p.toNat / 2 ^ 23 % 256
    let fr := p.toNat % 2 ^ 23
    (e = 255 → fr = 0 → widen p = .value (f64Inf (p.getLsbD 31))) ∧
    (e = 255 → fr ≠ 0 → widen p = .anyNaN) ∧
    (e ≠ 255 → ∃ v, widen p = .value v ∧ isFinite v = true ∧ f64Sign v = p.getLsbD 31 ∧
      f64Mag v = if e = 0 then fr * 2 ^ 925 else (fr + 2 ^ 23) * 2 ^ (e + 924))

/-- Sums and differences of finite values are correctly rounded; an exact zero is `-0.0` only when both
terms are negative zeros (46_extended_float.md R261; IEEE 754 is the spec's presumption, log 9). -/
def Obligations.FloatSumIsCorrectlyRounded : Prop :=
  ∀ a b : F64, isFinite a = true → isFinite b = true →
    (∃ r, fadd a b = .value r ∧ NearestEven (units a + units b) r ∧
      (f64Int a + f64Int b = 0 → r = f64Zero (f64Sign a && f64Sign b))) ∧
    (∃ r, fsub a b = .value r ∧ NearestEven (units a - units b) r ∧
      (f64Int a - f64Int b = 0 → r = f64Zero (f64Sign a && !f64Sign b)))

/-- Products of finite values are correctly rounded and carry the product of the signs (R261; log 9). -/
def Obligations.FloatProductIsCorrectlyRounded : Prop :=
  ∀ a b : F64, isFinite a = true → isFinite b = true →
    ∃ r, fmul a b = .value r ∧ NearestEven (f64Int a * f64Int b) r ∧
      f64Sign r = (f64Sign a != f64Sign b)

/-- The square root of a positive finite value is the nearest value to the exact root
(R261, R268; log 9). -/
def Obligations.FloatRootIsCorrectlyRounded : Prop :=
  ∀ a : F64, isFinite a = true → isZero a = false → f64Sign a = false →
    ∃ r, fsqrt a = .value r ∧ NearestRoot (f64Mag a) r

/-- The results on NaNs, infinities and zeros that R261 and R268 list, and those IEEE 754 gives beside
them (log 9). -/
def Obligations.FloatSpecialValues : Prop :=
  (∀ a b : F64, isNaN a = true ∨ isNaN b = true →
    fadd a b = .anyNaN ∧ fsub a b = .anyNaN ∧ fmul a b = .anyNaN) ∧
  (∀ a : F64, isNaN a = true → fsqrt a = .anyNaN) ∧
  (∀ a b : F64, isInf a = true → isInf b = true →
    fadd a b = (if f64Sign a = f64Sign b then .value a else .invalid) ∧
    fsub a b = (if f64Sign a = f64Sign b then .invalid else .value a)) ∧
  (∀ a b : F64, isInf a = true → isFinite b = true →
    fadd a b = .value a ∧ fadd b a = .value a ∧ fsub a b = .value a ∧ fsub b a = .value (f64Neg a)) ∧
  (∀ a b : F64, isInf a = true → isZero b = true → fmul a b = .invalid ∧ fmul b a = .invalid) ∧
  (∀ a b : F64, isInf a = true → isNaN b = false → isZero b = false →
    fmul a b = .value (f64Inf (f64Sign a != f64Sign b)) ∧
    fmul b a = .value (f64Inf (f64Sign a != f64Sign b))) ∧
  (∀ a : F64, isZero a = true → fsqrt a = .value a) ∧
  (∀ a : F64, isInf a = true → f64Sign a = false → fsqrt a = .value a) ∧
  (∀ a : F64, isNaN a = false → isZero a = false → f64Sign a = true → fsqrt a = .invalid)
end

