-- ==== Sys2Proof/Laws/Decode.lean ====
section
/-! SUPPORT. The fields of a packed word, a word from its fields, and what a numbering of the opcode tables
finds for a byte. -/
namespace Sys2Proof

theorem packThree_bit (o p q r : Byte) (i : Nat) : (packThree o p q r).getLsbD i =
    if i < 8 then r.getLsbD i else if i < 16 then q.getLsbD (i - 8)
    else if i < 24 then p.getLsbD (i - 16) else o.getLsbD (i - 24) := by
  show BitVec.getLsbD (w := 8 + 8 + 8 + 8) (o ++ p ++ q ++ r) i = _
  simp only [BitVec.getLsbD_append]
  by_cases h1 : i < 8
  · simp [h1]
  · by_cases h2 : i < 16
    · simp [h1, h2, show i - 8 < 8 by omega]
    · by_cases h3 : i < 24
      · simp [h1, h2, h3, show ¬ i - 8 < 8 by omega, show i - 16 < 8 by omega, Nat.sub_sub]
      · simp [h1, h2, h3, show ¬ i - 8 < 8 by omega, show ¬ i - 16 < 8 by omega, Nat.sub_sub]

theorem packLit_bit (o : Byte) (l : Lit24) (i : Nat) : (packLit o l).getLsbD i =
    if i < 24 then l.getLsbD i else o.getLsbD (i - 24) := by
  show BitVec.getLsbD (w := 8 + 24) (o ++ l) i = _
  simp only [BitVec.getLsbD_append]

@[simp] theorem byte31_packThree (o p q r : Byte) : byte31 (packThree o p q r) = o := by
  ext i hi
  simp [byte31, packThree_bit, hi, show ¬ 24 + i < 8 by omega, show ¬ 24 + i < 16 by omega]

@[simp] theorem byte23_packThree (o p q r : Byte) : byte23 (packThree o p q r) = p := by
  ext i hi
  simp [byte23, packThree_bit, hi, show 16 + i < 24 by omega, show ¬ 16 + i < 8 by omega]

@[simp] theorem byte15_packThree (o p q r : Byte) : byte15 (packThree o p q r) = q := by
  ext i hi
  simp [byte15, packThree_bit, hi, show 8 + i < 16 by omega]

@[simp] theorem byte7_packThree (o p q r : Byte) : byte7 (packThree o p q r) = r := by
  ext i hi
  simp [byte7, packThree_bit, hi]

@[simp] theorem byte31_packLit (o : Byte) (l : Lit24) : byte31 (packLit o l) = o := by
  ext i hi
  simp [byte31, packLit_bit, hi]

@[simp] theorem lit24_packLit (o : Byte) (l : Lit24) : lit24 (packLit o l) = l := by
  ext i hi
  simp [lit24, packLit_bit, hi]

/-- A word is its four bytes. -/
theorem packThree_bytes (w : Word) : packThree (byte31 w) (byte23 w) (byte15 w) (byte7 w) = w := by
  apply BitVec.eq_of_getLsbD_eq
  intro i hi
  rw [packThree_bit]
  simp only [byte31, byte23, byte15, byte7, BitVec.getLsbD_extractLsb']
  split
  · simp [*]
  · split
    · simp [show i - 8 < 8 by omega, show 8 + (i - 8) = i by omega]
    · split
      · simp [show i - 16 < 8 by omega, show 16 + (i - 16) = i by omega]
      · simp [show i - 24 < 8 by omega, show 24 + (i - 24) = i by omega]

/-- A word is its opcode byte and its 24-bit literal. -/
theorem packLit_bytes (w : Word) : packLit (byte31 w) (lit24 w) = w := by
  apply BitVec.eq_of_getLsbD_eq
  intro i hi
  rw [packLit_bit]
  simp only [byte31, lit24, BitVec.getLsbD_extractLsb']
  split
  · simp [*]
  · simp [show i - 24 < 8 by omega, show 24 + (i - 24) = i by omega]

/-- Clearing the bits that DS, PAIR, SINGLE and NONE ignore (30_encoding.md R94, R95, R97, R103). -/
theorem packThree_ds (w : Word) : packThree (byte31 w) (byte23 w) (byte15 w) 0#8 = w &&& 0xFFFFFF00#32 := by
  apply BitVec.eq_of_getLsbD_eq
  intro i hi
  conv_rhs => rw [← packThree_bytes w]
  rw [BitVec.getLsbD_and, packThree_bit, packThree_bit]
  interval_cases i <;> simp

theorem packThree_pair (w : Word) : packThree (byte31 w) 0#8 (byte15 w) (byte7 w) = w &&& 0xFF00FFFF#32 := by
  apply BitVec.eq_of_getLsbD_eq
  intro i hi
  conv_rhs => rw [← packThree_bytes w]
  rw [BitVec.getLsbD_and, packThree_bit, packThree_bit]
  interval_cases i <;> simp

theorem packThree_single (w : Word) : packThree (byte31 w) 0#8 0#8 (byte7 w) = w &&& 0xFF0000FF#32 := by
  apply BitVec.eq_of_getLsbD_eq
  intro i hi
  conv_rhs => rw [← packThree_bytes w]
  rw [BitVec.getLsbD_and, packThree_bit, packThree_bit]
  interval_cases i <;> simp

theorem packLit_none (w : Word) : packLit (byte31 w) 0#24 = w &&& 0xFF000000#32 := by
  apply BitVec.eq_of_getLsbD_eq
  intro i hi
  conv_rhs => rw [← packLit_bytes w]
  rw [BitVec.getLsbD_and, packLit_bit, packLit_bit]
  interval_cases i <;> simp

/-- The word laid out in memory order and read back (20_memory.md R65, R66). -/
theorem wordOfBytes_bytes (w : Word) : wordOfBytes (byte31 w) (byte23 w) (byte15 w) (byte7 w) = w :=
  packThree_bytes w

/-! ## Numberings (00_scope.md R7) -/

theorem mem_normalOps (o : NormalOp) : o ∈ normalOps := by cases o <;> decide

theorem mem_extendedOps (o : ExtendedOp) : o ∈ extendedOps := by cases o <;> decide

/-- A byte finds no operation exactly if none has it. -/
theorem findNormal_eq_none {m : Opcodes} {b : Byte} : m.findNormal b = none ↔ ∀ o, m.normal o ≠ b := by
  simp [Opcodes.findNormal, mem_normalOps]

theorem findExtended_eq_none {m : Opcodes} {b : Byte} :
    m.findExtended b = none ↔ ∀ o, m.extended o ≠ b := by
  simp [Opcodes.findExtended, mem_extendedOps]

/-- What a byte finds has that byte. -/
theorem normal_of_find {m : Opcodes} {b : Byte} {o : NormalOp} (h : m.findNormal b = some o) :
    m.normal o = b := by
  simpa using List.find?_some h

theorem extended_of_find {m : Opcodes} {b : Byte} {o : ExtendedOp} (h : m.findExtended b = some o) :
    m.extended o = b := by
  simpa using List.find?_some h

/-- Under an injective numbering an operation's byte finds that operation. -/
theorem findNormal_normal {m : Opcodes} (hm : m.Injective) (o : NormalOp) :
    m.findNormal (m.normal o) = some o := by
  cases h : m.findNormal (m.normal o) with
  | none => exact absurd rfl (findNormal_eq_none.1 h o)
  | some p => rw [hm.1 _ _ (normal_of_find h)]

theorem findExtended_extended {m : Opcodes} (hm : m.Injective) (o : ExtendedOp) :
    m.findExtended (m.extended o) = some o := by
  cases h : m.findExtended (m.extended o) with
  | none => exact absurd rfl (findExtended_eq_none.1 h o)
  | some p => rw [hm.2 _ _ (extended_of_find h)]

/-- On this machine an operation's byte finds that operation. -/
theorem findNormal_opcN (o : NormalOp) : Config.opcodes.findNormal (Config.opcN o) = some o := by
  cases o <;> decide

theorem findExtended_opcX (o : ExtendedOp) :
    Config.opcodes.findExtended (Config.opcX o) = some o := by
  cases o <;> decide

/-- A word with an operation's opcode byte decodes to that operation's instruction. -/
theorem decode_normal {w : Word} {o : NormalOp} (h : byte31 w = Config.opcN o) :
    decode false w = .ok (normalInstr w o) := by
  simp [decode, decodeWith, decodeNormal, h, findNormal_opcN]

theorem decode_extended {w : Word} {o : ExtendedOp} (h : byte31 w = Config.opcX o) :
    decode true w = .ok (extendedInstr w o) := by
  simp [decode, decodeWith, decodeExtended, h, findExtended_opcX]

end Sys2Proof
end

