-- ==== Sys2Proof/Laws/Memory.lean ====
section
/-! SUPPORT. The laws of memory: read after write, and that every operation keeps the canonical form and
the range of the cells (20_memory.md R61 to R69). -/
namespace Sys2Proof.Machine
open Sys2Proof

theorem cellsRead_write_self (n : Nat) (v : Byte) (cs : List Host.Cell) (lo : Nat)
    (h : cellsWf lo cs = true) : cellsRead n (cellsWrite n v cs) = v := by
  induction cs generalizing lo with
  | nil => by_cases hv : v = unlistedByte <;> simp [cellsWrite, cellsRead, hv]
  | cons c cs ih =>
    simp only [cellsWf, Bool.and_eq_true, decide_eq_true_eq] at h
    have above : ∀ (ds : List Host.Cell) (k : Nat), n < k → cellsWf k ds = true →
        cellsRead n ds = unlistedByte := by
      intro ds
      induction ds with
      | nil => intros; rfl
      | cons d ds ihd =>
        intro k hk hd
        simp only [cellsWf, Bool.and_eq_true, decide_eq_true_eq] at hd
        simp only [cellsRead]
        rw [if_neg (by omega)]
        exact ihd _ (by omega) hd.2
    simp only [cellsWrite]
    by_cases h1 : c.1 < n
    · simp only [h1, if_true, cellsRead]
      rw [if_neg (by omega)]
      exact ih _ h.2
    · by_cases h2 : c.1 = n
      · by_cases hv : v = unlistedByte
        · simp only [h2, lt_irrefl, if_false, if_true, hv]
          exact above cs _ (by omega) (h2 ▸ h.2)
        · simp [h2, hv, cellsRead]
      · by_cases hv : v = unlistedByte
        · simp only [h1, h2, if_false, if_true, hv, cellsRead]
          exact above cs _ (by omega) h.2
        · simp [h1, h2, hv, cellsRead]

theorem cellsRead_write_ne (n k : Nat) (v : Byte) (cs : List Host.Cell) (h : k ≠ n) :
    cellsRead k (cellsWrite n v cs) = cellsRead k cs := by
  induction cs with
  | nil => by_cases hv : v = unlistedByte <;> simp [cellsWrite, cellsRead, hv, Ne.symm h]
  | cons c cs ih =>
    simp only [cellsWrite]
    split
    · simp [cellsRead, ih]
    · split
      · rename_i h2
        split <;> simp [cellsRead, h2, Ne.symm h]
      · split <;> simp [cellsRead, Ne.symm h]

theorem cellsWf_write (n : Nat) (v : Byte) (cs : List Host.Cell) (lo : Nat) (hlo : lo ≤ n)
    (h : cellsWf lo cs = true) : cellsWf lo (cellsWrite n v cs) = true := by
  induction cs generalizing lo with
  | nil => by_cases hv : v = unlistedByte <;> simp [cellsWrite, cellsWf, hv, hlo]
  | cons c cs ih =>
    simp only [cellsWf, Bool.and_eq_true, decide_eq_true_eq] at h
    obtain ⟨⟨h1, h2⟩, h3⟩ := h
    have weaken : ∀ k, k ≤ c.1 + 1 → cellsWf k cs = true := by
      intro k hk
      cases cs with
      | nil => rfl
      | cons d ds =>
        simp only [cellsWf, Bool.and_eq_true, decide_eq_true_eq] at h3 ⊢
        exact ⟨⟨by omega, h3.1.2⟩, h3.2⟩
    simp only [cellsWrite]
    split
    · simp [cellsWf, h1, h2, ih _ (by omega) h3]
    · split
      · rename_i h5
        split
        · exact weaken _ (by omega)
        · rename_i hv
          simp [cellsWf, hv, ← h5, h3, h1]
      · split
        · simp [cellsWf, h1, h2, h3]
        · rename_i hv
          simp only [cellsWf, Bool.and_eq_true, decide_eq_true_eq]
          exact ⟨⟨hlo, hv⟩, ⟨⟨by omega, h2⟩, h3⟩⟩

theorem cellsAll_write (p : Host.Cell → Bool) (n : Nat) (v : Byte) (cs : List Host.Cell)
    (h : cs.all p = true) (hp : p (n, v) = true) : (cellsWrite n v cs).all p = true := by
  induction cs with
  | nil => by_cases hv : v = unlistedByte <;> simp [cellsWrite, hv, hp]
  | cons c cs ih =>
    simp only [List.all_cons, Bool.and_eq_true] at h
    simp only [cellsWrite]
    split
    · simp [h.1, ih h.2]
    · split
      · split
        · exact h.2
        · simp [hp, h.2]
      · split <;> simp [hp, h.1, h.2]

/-! ## One cell -/

theorem Memory.read_write_self (m : Memory) (n : Nat) (v : Byte) (h : m.wf = true) :
    (m.write n v).read n = v :=
  cellsRead_write_self n v m.cells 0 h

theorem Memory.read_write_ne (m : Memory) (n k : Nat) (v : Byte) (h : k ≠ n) :
    (m.write n v).read k = m.read k :=
  cellsRead_write_ne n k v m.cells h

theorem Memory.write_wf (m : Memory) (n : Nat) (v : Byte) (h : m.wf = true) :
    (m.write n v).wf = true :=
  cellsWf_write n v m.cells 0 (Nat.zero_le n) h

theorem Memory.write_bounded (m : Memory) (n : Nat) (v : Byte) (h : m.bounded = true)
    (hn : n < Config.memSize) : (m.write n v).bounded = true :=
  cellsAll_write _ n v m.cells h (by simpa using hn)

/-! ## A list of bytes -/

theorem Memory.writeList_wf (vs : List Byte) (m : Memory) (n : Nat) (h : m.wf = true) :
    (m.writeList n vs).wf = true := by
  induction vs generalizing m n with
  | nil => exact h
  | cons v vs ih => exact ih _ _ (m.write_wf n v h)

theorem Memory.writeList_bounded (vs : List Byte) (m : Memory) (n : Nat) (h : m.bounded = true)
    (hn : n + vs.length ≤ Config.memSize) : (m.writeList n vs).bounded = true := by
  induction vs generalizing m n with
  | nil => exact h
  | cons v vs ih =>
    simp only [List.length_cons] at hn
    exact ih _ _ (m.write_bounded n v h (by omega)) (by omega)

theorem Memory.read_writeList_before (vs : List Byte) (m : Memory) (n k : Nat) (h : k < n) :
    (m.writeList n vs).read k = m.read k := by
  induction vs generalizing m n with
  | nil => rfl
  | cons v vs ih =>
    simp only [Memory.writeList]
    rw [ih _ _ (by omega), Memory.read_write_ne _ _ _ _ (by omega)]

theorem Memory.read_writeList_out (vs : List Byte) (m : Memory) (n k : Nat)
    (h : k < n ∨ n + vs.length ≤ k) : (m.writeList n vs).read k = m.read k := by
  induction vs generalizing m n with
  | nil => rfl
  | cons v vs ih =>
    simp only [List.length_cons] at h
    simp only [Memory.writeList]
    rw [ih _ _ (by omega), Memory.read_write_ne _ _ _ _ (by omega)]

theorem Memory.read_writeList_in (vs : List Byte) (m : Memory) (n i : Nat) (hm : m.wf = true)
    (h : i < vs.length) : (m.writeList n vs).read (n + i) = vs[i] := by
  induction vs generalizing m n i with
  | nil => simp at h
  | cons v vs ih =>
    simp only [Memory.writeList]
    cases i with
    | zero =>
      rw [Memory.read_writeList_before _ _ _ _ (by omega)]
      exact Memory.read_write_self _ _ _ hm
    | succ i =>
      have := ih (m.write n v) (n + 1) i (m.write_wf n v hm) (by simpa using h)
      simpa [Nat.add_assoc, Nat.add_comm 1 i] using this

/-! ## The access primitives -/

theorem inRange_iff (addr : Word) (n : Nat) :
    inRange addr n = true ↔ addr.toNat + n ≤ Config.memSize := by
  simp [inRange]

theorem memWrite1_wf (m m' : Memory) (addr : Word) (v : Byte) (h : m.wf = true)
    (hw : memWrite1 m addr v = .ok m') : m'.wf = true := by
  unfold memWrite1 at hw
  split at hw
  · cases hw; exact m.write_wf _ _ h
  · cases hw

theorem memWrite4_wf (m m' : Memory) (addr v : Word) (h : m.wf = true)
    (hw : memWrite4 m addr v = .ok m') : m'.wf = true := by
  unfold memWrite4 at hw
  split at hw
  · cases hw; exact Memory.writeList_wf _ _ _ h
  · cases hw

theorem memWrite1_bounded (m m' : Memory) (addr : Word) (v : Byte) (h : m.bounded = true)
    (hw : memWrite1 m addr v = .ok m') : m'.bounded = true := by
  unfold memWrite1 at hw
  split at hw
  · rename_i hr
    rw [inRange_iff] at hr
    cases hw; exact m.write_bounded _ _ h (by omega)
  · cases hw

theorem memWrite4_bounded (m m' : Memory) (addr v : Word) (h : m.bounded = true)
    (hw : memWrite4 m addr v = .ok m') : m'.bounded = true := by
  unfold memWrite4 at hw
  split at hw
  · rename_i hr
    rw [inRange_iff] at hr
    cases hw; exact Memory.writeList_bounded _ _ _ h (by simpa [bytesOfWord] using hr)
  · cases hw

theorem bulkWrite_wf (m m' : Memory) (start : Word) (vs : List Byte) (h : m.wf = true)
    (hw : bulkWrite m start vs = some m') : m'.wf = true := by
  unfold bulkWrite at hw
  split at hw
  · cases hw; exact Memory.writeList_wf _ _ _ h
  · cases hw

theorem bulkWrite_bounded (m m' : Memory) (start : Word) (vs : List Byte) (h : m.bounded = true)
    (hw : bulkWrite m start vs = some m') : m'.bounded = true := by
  unfold bulkWrite at hw
  split at hw
  · cases hw; exact Memory.writeList_bounded _ _ _ h (by assumption)
  · cases hw

theorem reset_mem_wf : State.reset.mem.wf = true := rfl

theorem reset_mem_bounded : State.reset.mem.bounded = true := rfl

end Sys2Proof.Machine
end

