-- ==== Sys2Proof/Laws/State.lean ====
section
/-! SUPPORT. What each update of the state leaves in each field and register. -/
namespace Sys2Proof.Machine
open Sys2Proof

@[simp] theorem State.setPc_z (s : State) (v : Word) : (s.setPc v).z = s.z := rfl
@[simp] theorem State.setPc_a (s : State) (v : Word) : (s.setPc v).a = s.a := rfl
@[simp] theorem State.setPc_b (s : State) (v : Word) : (s.setPc v).b = s.b := rfl
@[simp] theorem State.setPc_x (s : State) (v : Word) : (s.setPc v).x = s.x := rfl
@[simp] theorem State.setPc_sp (s : State) (v : Word) : (s.setPc v).sp = s.sp := rfl
@[simp] theorem State.setPc_ra (s : State) (v : Word) : (s.setPc v).ra = s.ra := rfl
@[simp] theorem State.setPc_pc (s : State) (v : Word) : (s.setPc v).pc = v := rfl
@[simp] theorem State.setPc_fa (s : State) (v : Word) : (s.setPc v).fa = s.fa := rfl
@[simp] theorem State.setPc_fb (s : State) (v : Word) : (s.setPc v).fb = s.fb := rfl
@[simp] theorem State.setPc_fx (s : State) (v : Word) : (s.setPc v).fx = s.fx := rfl
@[simp] theorem State.setPc_ctrl (s : State) (v : Word) : (s.setPc v).ctrl = s.ctrl := rfl
@[simp] theorem State.setPc_halted (s : State) (v : Word) : (s.setPc v).halted = s.halted := rfl
@[simp] theorem State.setPc_cycles (s : State) (v : Word) : (s.setPc v).cycles = s.cycles := rfl
@[simp] theorem State.setPc_prng (s : State) (v : Word) : (s.setPc v).prng = s.prng := rfl
@[simp] theorem State.setPc_out (s : State) (v : Word) : (s.setPc v).out = s.out := rfl
@[simp] theorem State.setPc_fault (s : State) (v : Word) : (s.setPc v).fault = s.fault := rfl
@[simp] theorem State.setPc_mem (s : State) (v : Word) : (s.setPc v).mem = s.mem := rfl
@[simp] theorem State.setPc_freeDraws (s : State) (v : Word) : (s.setPc v).freeDraws = s.freeDraws := rfl
@[simp] theorem State.setPc_readX (s : State) (v : Word) (r : IReg) : (s.setPc v).readX r = s.readX r := by
  cases r <;> rfl
@[simp] theorem State.setPc_readF (s : State) (v : Word) (r : FReg) : (s.setPc v).readF r = s.readF r := by
  cases r <;> rfl

@[simp] theorem State.setMem_z (s : State) (m : Memory) : (s.setMem m).z = s.z := rfl
@[simp] theorem State.setMem_a (s : State) (m : Memory) : (s.setMem m).a = s.a := rfl
@[simp] theorem State.setMem_b (s : State) (m : Memory) : (s.setMem m).b = s.b := rfl
@[simp] theorem State.setMem_x (s : State) (m : Memory) : (s.setMem m).x = s.x := rfl
@[simp] theorem State.setMem_sp (s : State) (m : Memory) : (s.setMem m).sp = s.sp := rfl
@[simp] theorem State.setMem_ra (s : State) (m : Memory) : (s.setMem m).ra = s.ra := rfl
@[simp] theorem State.setMem_pc (s : State) (m : Memory) : (s.setMem m).pc = s.pc := rfl
@[simp] theorem State.setMem_fa (s : State) (m : Memory) : (s.setMem m).fa = s.fa := rfl
@[simp] theorem State.setMem_fb (s : State) (m : Memory) : (s.setMem m).fb = s.fb := rfl
@[simp] theorem State.setMem_fx (s : State) (m : Memory) : (s.setMem m).fx = s.fx := rfl
@[simp] theorem State.setMem_ctrl (s : State) (m : Memory) : (s.setMem m).ctrl = s.ctrl := rfl
@[simp] theorem State.setMem_halted (s : State) (m : Memory) : (s.setMem m).halted = s.halted := rfl
@[simp] theorem State.setMem_cycles (s : State) (m : Memory) : (s.setMem m).cycles = s.cycles := rfl
@[simp] theorem State.setMem_prng (s : State) (m : Memory) : (s.setMem m).prng = s.prng := rfl
@[simp] theorem State.setMem_out (s : State) (m : Memory) : (s.setMem m).out = s.out := rfl
@[simp] theorem State.setMem_fault (s : State) (m : Memory) : (s.setMem m).fault = s.fault := rfl
@[simp] theorem State.setMem_mem (s : State) (m : Memory) : (s.setMem m).mem = m := rfl
@[simp] theorem State.setMem_freeDraws (s : State) (m : Memory) : (s.setMem m).freeDraws = s.freeDraws := rfl
@[simp] theorem State.setMem_readX (s : State) (m : Memory) (r : IReg) : (s.setMem m).readX r = s.readX r := by
  cases r <;> rfl
@[simp] theorem State.setMem_readF (s : State) (m : Memory) (r : FReg) : (s.setMem m).readF r = s.readF r := by
  cases r <;> rfl

@[simp] theorem State.setPrng_z (s : State) (p : Prng) : (s.setPrng p).z = s.z := rfl
@[simp] theorem State.setPrng_a (s : State) (p : Prng) : (s.setPrng p).a = s.a := rfl
@[simp] theorem State.setPrng_b (s : State) (p : Prng) : (s.setPrng p).b = s.b := rfl
@[simp] theorem State.setPrng_x (s : State) (p : Prng) : (s.setPrng p).x = s.x := rfl
@[simp] theorem State.setPrng_sp (s : State) (p : Prng) : (s.setPrng p).sp = s.sp := rfl
@[simp] theorem State.setPrng_ra (s : State) (p : Prng) : (s.setPrng p).ra = s.ra := rfl
@[simp] theorem State.setPrng_pc (s : State) (p : Prng) : (s.setPrng p).pc = s.pc := rfl
@[simp] theorem State.setPrng_fa (s : State) (p : Prng) : (s.setPrng p).fa = s.fa := rfl
@[simp] theorem State.setPrng_fb (s : State) (p : Prng) : (s.setPrng p).fb = s.fb := rfl
@[simp] theorem State.setPrng_fx (s : State) (p : Prng) : (s.setPrng p).fx = s.fx := rfl
@[simp] theorem State.setPrng_ctrl (s : State) (p : Prng) : (s.setPrng p).ctrl = s.ctrl := rfl
@[simp] theorem State.setPrng_halted (s : State) (p : Prng) : (s.setPrng p).halted = s.halted := rfl
@[simp] theorem State.setPrng_cycles (s : State) (p : Prng) : (s.setPrng p).cycles = s.cycles := rfl
@[simp] theorem State.setPrng_prng (s : State) (p : Prng) : (s.setPrng p).prng = p := rfl
@[simp] theorem State.setPrng_out (s : State) (p : Prng) : (s.setPrng p).out = s.out := rfl
@[simp] theorem State.setPrng_fault (s : State) (p : Prng) : (s.setPrng p).fault = s.fault := rfl
@[simp] theorem State.setPrng_mem (s : State) (p : Prng) : (s.setPrng p).mem = s.mem := rfl
@[simp] theorem State.setPrng_freeDraws (s : State) (p : Prng) : (s.setPrng p).freeDraws = s.freeDraws := rfl
@[simp] theorem State.setPrng_readX (s : State) (p : Prng) (r : IReg) : (s.setPrng p).readX r = s.readX r := by
  cases r <;> rfl
@[simp] theorem State.setPrng_readF (s : State) (p : Prng) (r : FReg) : (s.setPrng p).readF r = s.readF r := by
  cases r <;> rfl

@[simp] theorem State.emit_z (s : State) (e : OutEvent) : (s.emit e).z = s.z := rfl
@[simp] theorem State.emit_a (s : State) (e : OutEvent) : (s.emit e).a = s.a := rfl
@[simp] theorem State.emit_b (s : State) (e : OutEvent) : (s.emit e).b = s.b := rfl
@[simp] theorem State.emit_x (s : State) (e : OutEvent) : (s.emit e).x = s.x := rfl
@[simp] theorem State.emit_sp (s : State) (e : OutEvent) : (s.emit e).sp = s.sp := rfl
@[simp] theorem State.emit_ra (s : State) (e : OutEvent) : (s.emit e).ra = s.ra := rfl
@[simp] theorem State.emit_pc (s : State) (e : OutEvent) : (s.emit e).pc = s.pc := rfl
@[simp] theorem State.emit_fa (s : State) (e : OutEvent) : (s.emit e).fa = s.fa := rfl
@[simp] theorem State.emit_fb (s : State) (e : OutEvent) : (s.emit e).fb = s.fb := rfl
@[simp] theorem State.emit_fx (s : State) (e : OutEvent) : (s.emit e).fx = s.fx := rfl
@[simp] theorem State.emit_ctrl (s : State) (e : OutEvent) : (s.emit e).ctrl = s.ctrl := rfl
@[simp] theorem State.emit_halted (s : State) (e : OutEvent) : (s.emit e).halted = s.halted := rfl
@[simp] theorem State.emit_cycles (s : State) (e : OutEvent) : (s.emit e).cycles = s.cycles := rfl
@[simp] theorem State.emit_prng (s : State) (e : OutEvent) : (s.emit e).prng = s.prng := rfl
@[simp] theorem State.emit_out (s : State) (e : OutEvent) : (s.emit e).out = s.out ++ [e] := rfl
@[simp] theorem State.emit_fault (s : State) (e : OutEvent) : (s.emit e).fault = s.fault := rfl
@[simp] theorem State.emit_mem (s : State) (e : OutEvent) : (s.emit e).mem = s.mem := rfl
@[simp] theorem State.emit_freeDraws (s : State) (e : OutEvent) : (s.emit e).freeDraws = s.freeDraws := rfl
@[simp] theorem State.emit_readX (s : State) (e : OutEvent) (r : IReg) : (s.emit e).readX r = s.readX r := by
  cases r <;> rfl
@[simp] theorem State.emit_readF (s : State) (e : OutEvent) (r : FReg) : (s.emit e).readF r = s.readF r := by
  cases r <;> rfl

@[simp] theorem State.latch_z (s : State) (e : RunError) (addr : Word) : (s.latch e addr).z = s.z := rfl
@[simp] theorem State.latch_a (s : State) (e : RunError) (addr : Word) : (s.latch e addr).a = s.a := rfl
@[simp] theorem State.latch_b (s : State) (e : RunError) (addr : Word) : (s.latch e addr).b = s.b := rfl
@[simp] theorem State.latch_x (s : State) (e : RunError) (addr : Word) : (s.latch e addr).x = s.x := rfl
@[simp] theorem State.latch_sp (s : State) (e : RunError) (addr : Word) : (s.latch e addr).sp = s.sp := rfl
@[simp] theorem State.latch_ra (s : State) (e : RunError) (addr : Word) : (s.latch e addr).ra = s.ra := rfl
@[simp] theorem State.latch_pc (s : State) (e : RunError) (addr : Word) : (s.latch e addr).pc = s.pc := rfl
@[simp] theorem State.latch_fa (s : State) (e : RunError) (addr : Word) : (s.latch e addr).fa = s.fa := rfl
@[simp] theorem State.latch_fb (s : State) (e : RunError) (addr : Word) : (s.latch e addr).fb = s.fb := rfl
@[simp] theorem State.latch_fx (s : State) (e : RunError) (addr : Word) : (s.latch e addr).fx = s.fx := rfl
@[simp] theorem State.latch_ctrl (s : State) (e : RunError) (addr : Word) : (s.latch e addr).ctrl = s.ctrl := rfl
@[simp] theorem State.latch_halted (s : State) (e : RunError) (addr : Word) : (s.latch e addr).halted = s.halted := rfl
@[simp] theorem State.latch_cycles (s : State) (e : RunError) (addr : Word) : (s.latch e addr).cycles = s.cycles := rfl
@[simp] theorem State.latch_prng (s : State) (e : RunError) (addr : Word) : (s.latch e addr).prng = s.prng := rfl
@[simp] theorem State.latch_out (s : State) (e : RunError) (addr : Word) : (s.latch e addr).out = s.out := rfl
@[simp] theorem State.latch_fault (s : State) (e : RunError) (addr : Word) : (s.latch e addr).fault = some ⟨e, addr⟩ := rfl
@[simp] theorem State.latch_mem (s : State) (e : RunError) (addr : Word) : (s.latch e addr).mem = s.mem := rfl
@[simp] theorem State.latch_freeDraws (s : State) (e : RunError) (addr : Word) : (s.latch e addr).freeDraws = s.freeDraws := rfl
@[simp] theorem State.latch_readX (s : State) (e : RunError) (addr : Word) (r : IReg) : (s.latch e addr).readX r = s.readX r := by
  cases r <;> rfl
@[simp] theorem State.latch_readF (s : State) (e : RunError) (addr : Word) (r : FReg) : (s.latch e addr).readF r = s.readF r := by
  cases r <;> rfl

@[simp] theorem State.setZN_z (s : State) (v : Word) : (s.setZN v).z = s.z := rfl
@[simp] theorem State.setZN_a (s : State) (v : Word) : (s.setZN v).a = s.a := rfl
@[simp] theorem State.setZN_b (s : State) (v : Word) : (s.setZN v).b = s.b := rfl
@[simp] theorem State.setZN_x (s : State) (v : Word) : (s.setZN v).x = s.x := rfl
@[simp] theorem State.setZN_sp (s : State) (v : Word) : (s.setZN v).sp = s.sp := rfl
@[simp] theorem State.setZN_ra (s : State) (v : Word) : (s.setZN v).ra = s.ra := rfl
@[simp] theorem State.setZN_pc (s : State) (v : Word) : (s.setZN v).pc = s.pc := rfl
@[simp] theorem State.setZN_fa (s : State) (v : Word) : (s.setZN v).fa = s.fa := rfl
@[simp] theorem State.setZN_fb (s : State) (v : Word) : (s.setZN v).fb = s.fb := rfl
@[simp] theorem State.setZN_fx (s : State) (v : Word) : (s.setZN v).fx = s.fx := rfl
@[simp] theorem State.setZN_ctrl (s : State) (v : Word) : (s.setZN v).ctrl = s.ctrl.setZN v := rfl
@[simp] theorem State.setZN_halted (s : State) (v : Word) : (s.setZN v).halted = s.halted := rfl
@[simp] theorem State.setZN_cycles (s : State) (v : Word) : (s.setZN v).cycles = s.cycles := rfl
@[simp] theorem State.setZN_prng (s : State) (v : Word) : (s.setZN v).prng = s.prng := rfl
@[simp] theorem State.setZN_out (s : State) (v : Word) : (s.setZN v).out = s.out := rfl
@[simp] theorem State.setZN_fault (s : State) (v : Word) : (s.setZN v).fault = s.fault := rfl
@[simp] theorem State.setZN_mem (s : State) (v : Word) : (s.setZN v).mem = s.mem := rfl
@[simp] theorem State.setZN_freeDraws (s : State) (v : Word) : (s.setZN v).freeDraws = s.freeDraws := rfl
@[simp] theorem State.setZN_readX (s : State) (v : Word) (r : IReg) : (s.setZN v).readX r = s.readX r := by
  cases r <;> rfl
@[simp] theorem State.setZN_readF (s : State) (v : Word) (r : FReg) : (s.setZN v).readF r = s.readF r := by
  cases r <;> rfl

@[simp] theorem State.setTest_z (s : State) (b : Bool) : (s.setTest b).z = s.z := rfl
@[simp] theorem State.setTest_a (s : State) (b : Bool) : (s.setTest b).a = s.a := rfl
@[simp] theorem State.setTest_b (s : State) (b : Bool) : (s.setTest b).b = s.b := rfl
@[simp] theorem State.setTest_x (s : State) (b : Bool) : (s.setTest b).x = s.x := rfl
@[simp] theorem State.setTest_sp (s : State) (b : Bool) : (s.setTest b).sp = s.sp := rfl
@[simp] theorem State.setTest_ra (s : State) (b : Bool) : (s.setTest b).ra = s.ra := rfl
@[simp] theorem State.setTest_pc (s : State) (b : Bool) : (s.setTest b).pc = s.pc := rfl
@[simp] theorem State.setTest_fa (s : State) (b : Bool) : (s.setTest b).fa = s.fa := rfl
@[simp] theorem State.setTest_fb (s : State) (b : Bool) : (s.setTest b).fb = s.fb := rfl
@[simp] theorem State.setTest_fx (s : State) (b : Bool) : (s.setTest b).fx = s.fx := rfl
@[simp] theorem State.setTest_ctrl_zero (s : State) (b : Bool) : (s.setTest b).ctrl.zero = s.ctrl.zero := rfl
@[simp] theorem State.setTest_ctrl_carry (s : State) (b : Bool) : (s.setTest b).ctrl.carry = s.ctrl.carry := rfl
@[simp] theorem State.setTest_ctrl_negative (s : State) (b : Bool) : (s.setTest b).ctrl.negative = s.ctrl.negative := rfl
@[simp] theorem State.setTest_ctrl_testTrue (s : State) (b : Bool) : (s.setTest b).ctrl.testTrue = b := rfl
@[simp] theorem State.setTest_ctrl_extFnc (s : State) (b : Bool) : (s.setTest b).ctrl.extFnc = s.ctrl.extFnc := rfl
@[simp] theorem State.setTest_halted (s : State) (b : Bool) : (s.setTest b).halted = s.halted := rfl
@[simp] theorem State.setTest_cycles (s : State) (b : Bool) : (s.setTest b).cycles = s.cycles := rfl
@[simp] theorem State.setTest_prng (s : State) (b : Bool) : (s.setTest b).prng = s.prng := rfl
@[simp] theorem State.setTest_out (s : State) (b : Bool) : (s.setTest b).out = s.out := rfl
@[simp] theorem State.setTest_fault (s : State) (b : Bool) : (s.setTest b).fault = s.fault := rfl
@[simp] theorem State.setTest_mem (s : State) (b : Bool) : (s.setTest b).mem = s.mem := rfl
@[simp] theorem State.setTest_freeDraws (s : State) (b : Bool) : (s.setTest b).freeDraws = s.freeDraws := rfl
@[simp] theorem State.setTest_readX (s : State) (b : Bool) (r : IReg) : (s.setTest b).readX r = s.readX r := by
  cases r <;> rfl
@[simp] theorem State.setTest_readF (s : State) (b : Bool) (r : FReg) : (s.setTest b).readF r = s.readF r := by
  cases r <;> rfl

@[simp] theorem State.setExt_z (s : State) (b : Bool) : (s.setExt b).z = s.z := rfl
@[simp] theorem State.setExt_a (s : State) (b : Bool) : (s.setExt b).a = s.a := rfl
@[simp] theorem State.setExt_b (s : State) (b : Bool) : (s.setExt b).b = s.b := rfl
@[simp] theorem State.setExt_x (s : State) (b : Bool) : (s.setExt b).x = s.x := rfl
@[simp] theorem State.setExt_sp (s : State) (b : Bool) : (s.setExt b).sp = s.sp := rfl
@[simp] theorem State.setExt_ra (s : State) (b : Bool) : (s.setExt b).ra = s.ra := rfl
@[simp] theorem State.setExt_pc (s : State) (b : Bool) : (s.setExt b).pc = s.pc := rfl
@[simp] theorem State.setExt_fa (s : State) (b : Bool) : (s.setExt b).fa = s.fa := rfl
@[simp] theorem State.setExt_fb (s : State) (b : Bool) : (s.setExt b).fb = s.fb := rfl
@[simp] theorem State.setExt_fx (s : State) (b : Bool) : (s.setExt b).fx = s.fx := rfl
@[simp] theorem State.setExt_ctrl_zero (s : State) (b : Bool) : (s.setExt b).ctrl.zero = s.ctrl.zero := rfl
@[simp] theorem State.setExt_ctrl_carry (s : State) (b : Bool) : (s.setExt b).ctrl.carry = s.ctrl.carry := rfl
@[simp] theorem State.setExt_ctrl_negative (s : State) (b : Bool) : (s.setExt b).ctrl.negative = s.ctrl.negative := rfl
@[simp] theorem State.setExt_ctrl_testTrue (s : State) (b : Bool) : (s.setExt b).ctrl.testTrue = s.ctrl.testTrue := rfl
@[simp] theorem State.setExt_ctrl_extFnc (s : State) (b : Bool) : (s.setExt b).ctrl.extFnc = b := rfl
@[simp] theorem State.setExt_halted (s : State) (b : Bool) : (s.setExt b).halted = s.halted := rfl
@[simp] theorem State.setExt_cycles (s : State) (b : Bool) : (s.setExt b).cycles = s.cycles := rfl
@[simp] theorem State.setExt_prng (s : State) (b : Bool) : (s.setExt b).prng = s.prng := rfl
@[simp] theorem State.setExt_out (s : State) (b : Bool) : (s.setExt b).out = s.out := rfl
@[simp] theorem State.setExt_fault (s : State) (b : Bool) : (s.setExt b).fault = s.fault := rfl
@[simp] theorem State.setExt_mem (s : State) (b : Bool) : (s.setExt b).mem = s.mem := rfl
@[simp] theorem State.setExt_freeDraws (s : State) (b : Bool) : (s.setExt b).freeDraws = s.freeDraws := rfl
@[simp] theorem State.setExt_readX (s : State) (b : Bool) (r : IReg) : (s.setExt b).readX r = s.readX r := by
  cases r <;> rfl
@[simp] theorem State.setExt_readF (s : State) (b : Bool) (r : FReg) : (s.setExt b).readF r = s.readF r := by
  cases r <;> rfl

@[simp] theorem State.countTick_z (s : State) : (s.countTick).z = s.z := rfl
@[simp] theorem State.countTick_a (s : State) : (s.countTick).a = s.a := rfl
@[simp] theorem State.countTick_b (s : State) : (s.countTick).b = s.b := rfl
@[simp] theorem State.countTick_x (s : State) : (s.countTick).x = s.x := rfl
@[simp] theorem State.countTick_sp (s : State) : (s.countTick).sp = s.sp := rfl
@[simp] theorem State.countTick_ra (s : State) : (s.countTick).ra = s.ra := rfl
@[simp] theorem State.countTick_pc (s : State) : (s.countTick).pc = s.pc := rfl
@[simp] theorem State.countTick_fa (s : State) : (s.countTick).fa = s.fa := rfl
@[simp] theorem State.countTick_fb (s : State) : (s.countTick).fb = s.fb := rfl
@[simp] theorem State.countTick_fx (s : State) : (s.countTick).fx = s.fx := rfl
@[simp] theorem State.countTick_ctrl (s : State) : (s.countTick).ctrl = s.ctrl := rfl
@[simp] theorem State.countTick_halted (s : State) : (s.countTick).halted = s.halted := rfl
@[simp] theorem State.countTick_cycles (s : State) : (s.countTick).cycles = s.cycles + 1 := rfl
@[simp] theorem State.countTick_prng (s : State) : (s.countTick).prng = s.prng := rfl
@[simp] theorem State.countTick_out (s : State) : (s.countTick).out = s.out := rfl
@[simp] theorem State.countTick_fault (s : State) : (s.countTick).fault = s.fault := rfl
@[simp] theorem State.countTick_mem (s : State) : (s.countTick).mem = s.mem := rfl
@[simp] theorem State.countTick_freeDraws (s : State) : (s.countTick).freeDraws = s.freeDraws := rfl
@[simp] theorem State.countTick_readX (s : State) (r : IReg) : (s.countTick).readX r = s.readX r := by
  cases r <;> rfl
@[simp] theorem State.countTick_readF (s : State) (r : FReg) : (s.countTick).readF r = s.readF r := by
  cases r <;> rfl

@[simp] theorem State.beginDispatch_z (s : State) : (s.beginDispatch).z = s.z := rfl
@[simp] theorem State.beginDispatch_a (s : State) : (s.beginDispatch).a = s.a := rfl
@[simp] theorem State.beginDispatch_b (s : State) : (s.beginDispatch).b = s.b := rfl
@[simp] theorem State.beginDispatch_x (s : State) : (s.beginDispatch).x = s.x := rfl
@[simp] theorem State.beginDispatch_sp (s : State) : (s.beginDispatch).sp = s.sp := rfl
@[simp] theorem State.beginDispatch_ra (s : State) : (s.beginDispatch).ra = s.ra := rfl
@[simp] theorem State.beginDispatch_pc (s : State) : (s.beginDispatch).pc = s.pc + 4#32 := rfl
@[simp] theorem State.beginDispatch_fa (s : State) : (s.beginDispatch).fa = s.fa := rfl
@[simp] theorem State.beginDispatch_fb (s : State) : (s.beginDispatch).fb = s.fb := rfl
@[simp] theorem State.beginDispatch_fx (s : State) : (s.beginDispatch).fx = s.fx := rfl
@[simp] theorem State.beginDispatch_ctrl_zero (s : State) : (s.beginDispatch).ctrl.zero = s.ctrl.zero := rfl
@[simp] theorem State.beginDispatch_ctrl_carry (s : State) : (s.beginDispatch).ctrl.carry = s.ctrl.carry := rfl
@[simp] theorem State.beginDispatch_ctrl_negative (s : State) : (s.beginDispatch).ctrl.negative = s.ctrl.negative := rfl
@[simp] theorem State.beginDispatch_ctrl_testTrue (s : State) : (s.beginDispatch).ctrl.testTrue = s.ctrl.testTrue := rfl
@[simp] theorem State.beginDispatch_ctrl_extFnc (s : State) : (s.beginDispatch).ctrl.extFnc = false := rfl
@[simp] theorem State.beginDispatch_halted (s : State) : (s.beginDispatch).halted = s.halted := rfl
@[simp] theorem State.beginDispatch_cycles (s : State) : (s.beginDispatch).cycles = s.cycles := rfl
@[simp] theorem State.beginDispatch_prng (s : State) : (s.beginDispatch).prng = s.prng := rfl
@[simp] theorem State.beginDispatch_out (s : State) : (s.beginDispatch).out = s.out := rfl
@[simp] theorem State.beginDispatch_fault (s : State) : (s.beginDispatch).fault = s.fault := rfl
@[simp] theorem State.beginDispatch_mem (s : State) : (s.beginDispatch).mem = s.mem := rfl
@[simp] theorem State.beginDispatch_freeDraws (s : State) : (s.beginDispatch).freeDraws = s.freeDraws := rfl
@[simp] theorem State.beginDispatch_readX (s : State) (r : IReg) : (s.beginDispatch).readX r = s.readX r := by
  cases r <;> rfl
@[simp] theorem State.beginDispatch_readF (s : State) (r : FReg) : (s.beginDispatch).readF r = s.readF r := by
  cases r <;> rfl

@[simp] theorem State.setX_z (s : State) (r : IReg) (v : Word) : (s.setX r v).z = s.z := by
  cases r <;> rfl
@[simp] theorem State.setX_pc (s : State) (r : IReg) (v : Word) : (s.setX r v).pc = s.pc := by
  cases r <;> rfl
@[simp] theorem State.setX_fa (s : State) (r : IReg) (v : Word) : (s.setX r v).fa = s.fa := by
  cases r <;> rfl
@[simp] theorem State.setX_fb (s : State) (r : IReg) (v : Word) : (s.setX r v).fb = s.fb := by
  cases r <;> rfl
@[simp] theorem State.setX_fx (s : State) (r : IReg) (v : Word) : (s.setX r v).fx = s.fx := by
  cases r <;> rfl
@[simp] theorem State.setX_ctrl (s : State) (r : IReg) (v : Word) : (s.setX r v).ctrl = s.ctrl := by
  cases r <;> rfl
@[simp] theorem State.setX_halted (s : State) (r : IReg) (v : Word) : (s.setX r v).halted = s.halted := by
  cases r <;> rfl
@[simp] theorem State.setX_cycles (s : State) (r : IReg) (v : Word) : (s.setX r v).cycles = s.cycles := by
  cases r <;> rfl
@[simp] theorem State.setX_prng (s : State) (r : IReg) (v : Word) : (s.setX r v).prng = s.prng := by
  cases r <;> rfl
@[simp] theorem State.setX_out (s : State) (r : IReg) (v : Word) : (s.setX r v).out = s.out := by
  cases r <;> rfl
@[simp] theorem State.setX_fault (s : State) (r : IReg) (v : Word) : (s.setX r v).fault = s.fault := by
  cases r <;> rfl
@[simp] theorem State.setX_mem (s : State) (r : IReg) (v : Word) : (s.setX r v).mem = s.mem := by
  cases r <;> rfl
@[simp] theorem State.setX_freeDraws (s : State) (r : IReg) (v : Word) : (s.setX r v).freeDraws = s.freeDraws := by
  cases r <;> rfl
@[simp] theorem State.setX_readF (s : State) (r : IReg) (v : Word) (q : FReg) :
    (s.setX r v).readF q = s.readF q := by
  cases r <;> rfl
theorem State.setX_readX (s : State) (r q : IReg) (v : Word) :
    (s.setX r v).readX q = if q = r ∧ r ≠ .z then v else s.readX q := by
  cases r <;> cases q <;> rfl
@[simp] theorem State.setX_readX_self (s : State) (r : IReg) (v : Word) (h : r ≠ .z) :
    (s.setX r v).readX r = v := by
  simp [State.setX_readX, h]
@[simp] theorem State.setX_readX_ne (s : State) (r q : IReg) (v : Word) (h : q ≠ r) :
    (s.setX r v).readX q = s.readX q := by
  simp [State.setX_readX, h]
@[simp] theorem State.setX_readX_z (s : State) (r : IReg) (v : Word) :
    (s.setX r v).readX .z = s.readX .z := by
  cases r <;> rfl

@[simp] theorem State.setF_z (s : State) (r : FReg) (v : F64) : (s.setF r v).z = s.z := by
  cases r <;> rfl
@[simp] theorem State.setF_a (s : State) (r : FReg) (v : F64) : (s.setF r v).a = s.a := by
  cases r <;> rfl
@[simp] theorem State.setF_b (s : State) (r : FReg) (v : F64) : (s.setF r v).b = s.b := by
  cases r <;> rfl
@[simp] theorem State.setF_x (s : State) (r : FReg) (v : F64) : (s.setF r v).x = s.x := by
  cases r <;> rfl
@[simp] theorem State.setF_sp (s : State) (r : FReg) (v : F64) : (s.setF r v).sp = s.sp := by
  cases r <;> rfl
@[simp] theorem State.setF_ra (s : State) (r : FReg) (v : F64) : (s.setF r v).ra = s.ra := by
  cases r <;> rfl
@[simp] theorem State.setF_pc (s : State) (r : FReg) (v : F64) : (s.setF r v).pc = s.pc := by
  cases r <;> rfl
@[simp] theorem State.setF_ctrl (s : State) (r : FReg) (v : F64) : (s.setF r v).ctrl = s.ctrl := by
  cases r <;> rfl
@[simp] theorem State.setF_halted (s : State) (r : FReg) (v : F64) : (s.setF r v).halted = s.halted := by
  cases r <;> rfl
@[simp] theorem State.setF_cycles (s : State) (r : FReg) (v : F64) : (s.setF r v).cycles = s.cycles := by
  cases r <;> rfl
@[simp] theorem State.setF_prng (s : State) (r : FReg) (v : F64) : (s.setF r v).prng = s.prng := by
  cases r <;> rfl
@[simp] theorem State.setF_out (s : State) (r : FReg) (v : F64) : (s.setF r v).out = s.out := by
  cases r <;> rfl
@[simp] theorem State.setF_fault (s : State) (r : FReg) (v : F64) : (s.setF r v).fault = s.fault := by
  cases r <;> rfl
@[simp] theorem State.setF_mem (s : State) (r : FReg) (v : F64) : (s.setF r v).mem = s.mem := by
  cases r <;> rfl
@[simp] theorem State.setF_freeDraws (s : State) (r : FReg) (v : F64) : (s.setF r v).freeDraws = s.freeDraws := by
  cases r <;> rfl
@[simp] theorem State.setF_readX (s : State) (r : FReg) (v : F64) (q : IReg) :
    (s.setF r v).readX q = s.readX q := by
  cases r <;> cases q <;> rfl
theorem State.setF_readF (s : State) (r q : FReg) (v : F64) :
    (s.setF r v).readF q = if q = r ∧ r ≠ .f0 then v else s.readF q := by
  cases r <;> cases q <;> rfl
@[simp] theorem State.setF_readF_self (s : State) (r : FReg) (v : F64) (h : r ≠ .f0) :
    (s.setF r v).readF r = v := by
  simp [State.setF_readF, h]
@[simp] theorem State.setF_readF_ne (s : State) (r q : FReg) (v : F64) (h : q ≠ r) :
    (s.setF r v).readF q = s.readF q := by
  simp [State.setF_readF, h]

/-! ## Flags -/

@[simp] theorem Ctrl.setZN_zero (c : Ctrl) (v : Word) : (c.setZN v).zero = (v == 0#32) := rfl
@[simp] theorem Ctrl.setZN_negative (c : Ctrl) (v : Word) :
    (c.setZN v).negative = negativeThreshold.ult v := rfl
@[simp] theorem Ctrl.setZN_carry (c : Ctrl) (v : Word) : (c.setZN v).carry = c.carry := rfl
@[simp] theorem Ctrl.setZN_testTrue (c : Ctrl) (v : Word) : (c.setZN v).testTrue = c.testTrue := rfl
@[simp] theorem Ctrl.setZN_extFnc (c : Ctrl) (v : Word) : (c.setZN v).extFnc = c.extFnc := rfl

theorem negativeThreshold_ult_iff (v : Word) : negativeThreshold.ult v = true ↔ 0x7FFFFF < v.toNat := by
  simp [negativeThreshold, BitVec.ult]

@[simp] theorem readF_f0 (s : State) : s.readF .f0 = 0#64 := rfl
@[simp] theorem readX_z (s : State) : s.readX .z = s.z := rfl

end Sys2Proof.Machine
end

