-- ==== Sys2Proof/Laws/Ops.lean ====
section
/-! SUPPORT. What each shared operation can answer: one lemma per operation, cited instead of unfolding it. -/
namespace Sys2Proof.Machine
open Sys2Proof

/-! ## Sequencing of steps that can raise -/

@[simp] theorem bind_ok {α β : Type} (v : α) (f : α → Except Err β) :
    ((Except.ok v : Except Err α) >>= f) = f v := rfl

@[simp] theorem bind_error {α β : Type} (e : Err) (f : α → Except Err β) :
    ((Except.error e : Except Err α) >>= f) = Except.error e := rfl

theorem bind_eq_ok {α β : Type} {r : Except Err α} {f : α → Except Err β} {v : β} :
    (r >>= f) = .ok v ↔ ∃ u, r = .ok u ∧ f u = .ok v := by
  cases r <;> simp

theorem bind_eq_error {α β : Type} {r : Except Err α} {f : α → Except Err β} {e : Err} :
    (r >>= f) = .error e ↔ r = .error e ∨ ∃ u, r = .ok u ∧ f u = .error e := by
  cases r <;> simp

/-! ## Resolution of register fields -/

@[simp] theorem regX_ixIndex (r : IReg) : regX (ixIndex r) = .ok r := by
  cases r <;> rfl

@[simp] theorem regF_ixFloat (r : FReg) : regF (ixFloat r) = .ok r := by
  cases r <;> rfl

theorem regX_bad (k : Byte) (h : 6 ≤ k.toNat) : regX k = .error (.run (.invalidRegister k .int)) := by
  unfold regX
  split <;> first | omega | rfl

theorem regF_bad (k : Byte) (h : 4 ≤ k.toNat) : regF k = .error (.run (.invalidRegister k .float)) := by
  unfold regF
  split <;> first | omega | rfl

theorem regX_good (k : Byte) (h : k.toNat < 6) : ∃ r, k = ixIndex r := by
  obtain ⟨k, rfl⟩ : ∃ n : Fin 6, k = BitVec.ofNat 8 n.1 :=
    ⟨⟨k.toNat, h⟩, by apply BitVec.eq_of_toNat_eq; simp⟩
  match k with
  | 0 => exact ⟨.z, rfl⟩
  | 1 => exact ⟨.a, rfl⟩
  | 2 => exact ⟨.b, rfl⟩
  | 3 => exact ⟨.x, rfl⟩
  | 4 => exact ⟨.sp, rfl⟩
  | 5 => exact ⟨.ra, rfl⟩

theorem regF_good (k : Byte) (h : k.toNat < 4) : ∃ r, k = ixFloat r := by
  obtain ⟨k, rfl⟩ : ∃ n : Fin 4, k = BitVec.ofNat 8 n.1 :=
    ⟨⟨k.toNat, h⟩, by apply BitVec.eq_of_toNat_eq; simp⟩
  match k with
  | 0 => exact ⟨.f0, rfl⟩
  | 1 => exact ⟨.fa, rfl⟩
  | 2 => exact ⟨.fb, rfl⟩
  | 3 => exact ⟨.fx, rfl⟩

/-- A field resolves to the register whose index it is, or raises (30_encoding.md R100). -/
theorem regX_cases (k : Byte) :
    (∃ r, k = ixIndex r ∧ regX k = .ok r) ∨
    (6 ≤ k.toNat ∧ regX k = .error (.run (.invalidRegister k .int))) := by
  by_cases h : k.toNat < 6
  · obtain ⟨r, rfl⟩ := regX_good k h
    exact .inl ⟨r, rfl, regX_ixIndex r⟩
  · exact .inr ⟨by omega, regX_bad k (by omega)⟩

/-- A field resolves to the float register whose index it is, or raises (30_encoding.md R101). -/
theorem regF_cases (k : Byte) :
    (∃ r, k = ixFloat r ∧ regF k = .ok r) ∨
    (4 ≤ k.toNat ∧ regF k = .error (.run (.invalidRegister k .float))) := by
  by_cases h : k.toNat < 4
  · obtain ⟨r, rfl⟩ := regF_good k h
    exact .inl ⟨r, rfl, regF_ixFloat r⟩
  · exact .inr ⟨by omega, regF_bad k (by omega)⟩

theorem ixIndex_small (r : IReg) : (ixIndex r).toNat < 6 := by
  cases r <;> decide

theorem ixFloat_small (r : FReg) : (ixFloat r).toNat < 4 := by
  cases r <;> decide

/-! ## Register writes -/

@[simp] theorem writeX_z (s : State) (v : Word) : s.writeX .z v = .error .zeroRegisterViolation := rfl

@[simp] theorem writeX_ne (s : State) (r : IReg) (v : Word) (h : r ≠ .z) :
    s.writeX r v = .ok (s.setX r v) := by
  simp [State.writeX, h]

@[simp] theorem writeF_f0 (s : State) (v : F64) : s.writeF .f0 v = .error .zeroRegisterViolation := rfl

@[simp] theorem writeF_ne (s : State) (r : FReg) (v : F64) (h : r ≠ .f0) :
    s.writeF r v = .ok (s.setF r v) := by
  simp [State.writeF, h]

theorem writeX_eq_ok {s t : State} {r : IReg} {v : Word} :
    s.writeX r v = .ok t ↔ r ≠ .z ∧ t = s.setX r v := by
  by_cases h : r = .z <;> simp [State.writeX, h, eq_comm]

theorem writeZN_eq_ok {s t : State} {r : IReg} {v : Word} :
    writeZN s r v = .ok t ↔ r ≠ .z ∧ t = (s.setX r v).setZN v := by
  by_cases h : r = .z <;> simp [writeZN, h, eq_comm]

@[simp] theorem writeZN_ne (s : State) (r : IReg) (v : Word) (h : r ≠ .z) :
    writeZN s r v = .ok ((s.setX r v).setZN v) := by
  simp [writeZN, h]

@[simp] theorem writeZN_z (s : State) (v : Word) : writeZN s .z v = .error .zeroRegisterViolation := rfl

/-! ## Accesses -/

theorem memRead1_ok (m : Memory) (addr : Word) (h : addr.toNat < Config.memSize) :
    memRead1 m addr = .ok (m.read addr.toNat) := by
  simp [memRead1, inRange]; omega

theorem memRead1_error (m : Memory) (addr : Word) (h : Config.memSize ≤ addr.toNat) :
    memRead1 m addr = .error (.run (.memoryOutOfRange addr)) := by
  simp [memRead1, inRange, outOfRange]; omega

theorem memRead4_ok (m : Memory) (addr : Word) (h : addr.toNat + 3 < Config.memSize) :
    memRead4 m addr = .ok (m.readWord addr.toNat) := by
  simp [memRead4, inRange]; omega

theorem memRead4_error (m : Memory) (addr : Word) (h : Config.memSize ≤ addr.toNat + 3) :
    memRead4 m addr = .error (.run (.memoryOutOfRange addr)) := by
  simp [memRead4, inRange, outOfRange]; omega

theorem memWrite1_ok (m : Memory) (addr : Word) (v : Byte) (h : addr.toNat < Config.memSize) :
    memWrite1 m addr v = .ok (m.write addr.toNat v) := by
  simp [memWrite1, inRange]; omega

theorem memWrite1_error (m : Memory) (addr : Word) (v : Byte) (h : Config.memSize ≤ addr.toNat) :
    memWrite1 m addr v = .error (.run (.memoryOutOfRange addr)) := by
  simp [memWrite1, inRange, outOfRange]; omega

theorem memWrite4_ok (m : Memory) (addr v : Word) (h : addr.toNat + 3 < Config.memSize) :
    memWrite4 m addr v = .ok (m.writeList addr.toNat (bytesOfWord v)) := by
  simp [memWrite4, inRange]; omega

theorem memWrite4_error (m : Memory) (addr v : Word) (h : Config.memSize ≤ addr.toNat + 3) :
    memWrite4 m addr v = .error (.run (.memoryOutOfRange addr)) := by
  simp [memWrite4, inRange, outOfRange]; omega

/-! ## The end of an instruction -/

@[simp] theorem finish_ok (s t : State) : finish s (.ok t) = .next t := rfl

@[simp] theorem finish_error (s : State) (e : Err) : finish s (.error e) = raise e (s.pc - 4#32) s := rfl

theorem finish_eq_next {s t : State} {r : Except Err State} : finish s r = .next t ↔ r = .ok t := by
  cases r with
  | ok u => simp [finish]
  | error e => rcases e with (_ | _ | _) | _ <;> simp [finish, raise, RunError.outcome]

/-- A fault of an instruction: which error it raised, and the state it leaves (60_exceptions.md R287). -/
theorem raise_cases (e : Err) (addr : Word) (s : State) :
    (e = .zeroRegisterViolation ∧ raise e addr s = .fault .zeroRegisterViolation) ∨
    (∃ op w, e = .run (.unknownOpcode op w) ∧
      raise e addr s = .fault (.unknownOpcode op w (s.latch (.unknownOpcode op w) addr))) ∨
    (∃ k cls, e = .run (.invalidRegister k cls) ∧
      raise e addr s = .fault (.invalidRegister k cls (s.latch (.invalidRegister k cls) addr))) ∨
    (∃ a, e = .run (.memoryOutOfRange a) ∧
      raise e addr s = .fault (.memoryOutOfRange a (s.latch (.memoryOutOfRange a) addr))) := by
  rcases e with (_ | _ | _) | _ <;> simp [raise, RunError.outcome]

theorem raise_not_next (e : Err) (addr : Word) (s t : State) : raise e addr s ≠ .next t := by
  rcases e with (_ | _ | _) | _ <;> simp [raise, RunError.outcome]

theorem raise_not_refused (e : Err) (addr : Word) (s : State) (r : Refusal) :
    raise e addr s ≠ .refused r := by
  rcases e with (_ | _ | _) | _ <;> simp [raise, RunError.outcome]

theorem finish_not_refused (s : State) (r : Except Err State) (q : Refusal) :
    finish s r ≠ .refused q := by
  cases r with
  | ok u => simp [finish]
  | error e => exact raise_not_refused _ _ _ _

/-! ## The shared execution orders -/

theorem execDss_next {op : Word → Word → Word} {d s1 s2 : Byte} {s t : State} :
    execDss op d s1 s2 s = .next t ↔ ∃ rd r1 r2, regX d = .ok rd ∧ regX s1 = .ok r1 ∧
      regX s2 = .ok r2 ∧ rd ≠ .z ∧
      t = (s.setX rd (op (s.readX r1) (s.readX r2))).setZN (op (s.readX r1) (s.readX r2)) := by
  simp only [execDss, finish_eq_next, bind_eq_ok, writeZN_eq_ok]
  constructor
  · rintro ⟨rd, h1, r1, h2, r2, h3, h4, h5⟩; exact ⟨rd, r1, r2, h1, h2, h3, h4, h5⟩
  · rintro ⟨rd, r1, r2, h1, h2, h3, h4, h5⟩; exact ⟨rd, h1, r1, h2, r2, h3, h4, h5⟩

theorem execDsi_next {op : Word → Word → Word} {d r imm : Byte} {s t : State} :
    execDsi op d r imm s = .next t ↔ ∃ rd r1, regX d = .ok rd ∧ regX r = .ok r1 ∧ rd ≠ .z ∧
      t = (s.setX rd (op (s.readX r1) (immWord imm))).setZN (op (s.readX r1) (immWord imm)) := by
  simp only [execDsi, finish_eq_next, bind_eq_ok, writeZN_eq_ok]
  constructor
  · rintro ⟨rd, h1, r1, h2, h4, h5⟩; exact ⟨rd, r1, h1, h2, h4, h5⟩
  · rintro ⟨rd, r1, h1, h2, h4, h5⟩; exact ⟨rd, h1, r1, h2, h4, h5⟩

theorem execDs_next {op : Word → Word} {d r : Byte} {s t : State} :
    execDs op d r s = .next t ↔ ∃ rd r1, regX d = .ok rd ∧ regX r = .ok r1 ∧ rd ≠ .z ∧
      t = (s.setX rd (op (s.readX r1))).setZN (op (s.readX r1)) := by
  simp only [execDs, finish_eq_next, bind_eq_ok, writeZN_eq_ok]
  constructor
  · rintro ⟨rd, h1, r1, h2, h4, h5⟩; exact ⟨rd, r1, h1, h2, h4, h5⟩
  · rintro ⟨rd, r1, h1, h2, h4, h5⟩; exact ⟨rd, h1, r1, h2, h4, h5⟩

theorem execPair_next {test : Word → Word → Bool} {l r : Byte} {s t : State} :
    execPair test l r s = .next t ↔ ∃ rl rr, regX l = .ok rl ∧ regX r = .ok rr ∧
      t = s.setTest (test (s.readX rl) (s.readX rr)) := by
  simp only [execPair, finish_eq_next, bind_eq_ok, Except.ok.injEq]
  constructor
  · rintro ⟨rd, h1, r1, h2, h5⟩; exact ⟨rd, r1, h1, h2, h5.symm⟩
  · rintro ⟨rd, r1, h1, h2, h5⟩; exact ⟨rd, h1, r1, h2, h5.symm⟩

theorem execSource_next {f : Word → State} {r : Byte} {s t : State} :
    execSource f r s = .next t ↔ ∃ k, regX r = .ok k ∧ t = f (s.readX k) := by
  simp only [execSource, finish_eq_next, bind_eq_ok, Except.ok.injEq]
  constructor
  · rintro ⟨k, h1, h2⟩; exact ⟨k, h1, h2.symm⟩
  · rintro ⟨k, h1, h2⟩; exact ⟨k, h1, h2.symm⟩

theorem writeResult_eq_ok {s t : State} {d : FReg} {src : Config.NanSource} {u v : F64}
    {r : FpResult} :
    writeResult s d src u v r = .ok t ↔ d ≠ .f0 ∧
      t = { s.setF d (r.bits src s.freeDraws u v) with freeDraws := s.freeDraws + r.draws } := by
  by_cases h : d = .f0 <;> simp [writeResult, State.writeF, h, eq_comm]

theorem execFloatDss_next {op : F64 → F64 → FpResult} {src : Config.NanSource} {d s1 s2 : Byte}
    {s t : State} :
    execFloatDss op src d s1 s2 s = .next t ↔ ∃ rd r1 r2, regF d = .ok rd ∧ regF s1 = .ok r1 ∧
      regF s2 = .ok r2 ∧
      writeResult s rd src (s.readF r1) (s.readF r2) (op (s.readF r1) (s.readF r2)) = .ok t := by
  simp only [execFloatDss, finish_eq_next, bind_eq_ok]
  constructor
  · rintro ⟨rd, h1, r1, h2, r2, h3, h4⟩; exact ⟨rd, r1, r2, h1, h2, h3, h4⟩
  · rintro ⟨rd, r1, r2, h1, h2, h3, h4⟩; exact ⟨rd, h1, r1, h2, r2, h3, h4⟩

theorem execFloatDsi_next {op : F64 → F64 → FpResult} {src : Config.NanSource} {d r imm : Byte}
    {s t : State} :
    execFloatDsi op src d r imm s = .next t ↔ ∃ rd r1, regF d = .ok rd ∧ regF r = .ok r1 ∧
      writeResult s rd src (s.readF r1) (immDouble imm) (op (s.readF r1) (immDouble imm)) = .ok t := by
  simp only [execFloatDsi, finish_eq_next, bind_eq_ok]
  constructor
  · rintro ⟨rd, h1, r1, h2, h4⟩; exact ⟨rd, r1, h1, h2, h4⟩
  · rintro ⟨rd, r1, h1, h2, h4⟩; exact ⟨rd, h1, r1, h2, h4⟩

/-! ## The tick -/

/-- Everything a tick can do (40_sequencer.md R131). -/
theorem step_cases (s : State) :
    (s.fault.isSome ∧ step s = .next s) ∨
    (s.fault = none ∧ s.z ≠ 0#32 ∧ step s = .fault .zeroRegisterViolation) ∨
    (s.fault = none ∧ s.z = 0#32 ∧ s.halted = true ∧ step s = .next s.countTick) ∨
    (s.fault = none ∧ s.z = 0#32 ∧ s.halted = false ∧ Config.memSize ≤ s.pc.toNat + 3 ∧
      step s = raise (outOfRange s.pc) s.pc s.countTick) ∨
    (s.fault = none ∧ s.z = 0#32 ∧ s.halted = false ∧ s.pc.toNat + 3 < Config.memSize ∧
      ∃ op w, decode s.ctrl.extFnc (s.mem.readWord s.pc.toNat) = .error (.unknownOpcode op w) ∧
        step s = raise (.run (.unknownOpcode op w)) s.pc s.countTick.beginDispatch) ∨
    (s.fault = none ∧ s.z = 0#32 ∧ s.halted = false ∧ s.pc.toNat + 3 < Config.memSize ∧
      ∃ i, decode s.ctrl.extFnc (s.mem.readWord s.pc.toNat) = .ok i ∧
        step s = exec i s.countTick.beginDispatch) := by
  by_cases h1 : s.fault.isSome = true
  · exact .inl ⟨h1, by simp [step, h1]⟩
  have h1n : s.fault = none := by simpa using h1
  by_cases h2 : s.z = 0#32
  swap
  · exact .inr (.inl ⟨h1n, h2, by simp [step, h1n, zeroHolds, h2]⟩)
  by_cases h3 : s.halted = true
  · exact .inr (.inr (.inl ⟨h1n, h2, h3, by simp [step, h1n, zeroHolds, h2, h3]⟩))
  have h3n : s.halted = false := by simpa using h3
  have hs : step s = fetchAndRun s.countTick := by simp [step, h1n, zeroHolds, h2, h3n]
  by_cases h4 : s.pc.toNat + 3 < Config.memSize
  · have hf : fetchWord s.countTick = .ok (s.mem.readWord s.pc.toNat) := memRead4_ok _ _ h4
    have hr : step s = dispatchWord s.countTick (s.mem.readWord s.pc.toNat) := by
      rw [hs, fetchAndRun, hf]
    cases hd : decode s.ctrl.extFnc (s.mem.readWord s.pc.toNat) with
    | ok i =>
      refine .inr (.inr (.inr (.inr (.inr ⟨h1n, h2, h3n, h4, i, rfl, ?_⟩))))
      rw [hr, dispatchWord, State.countTick_ctrl, hd]
    | error e =>
      obtain ⟨op, w⟩ := e
      refine .inr (.inr (.inr (.inr (.inl ⟨h1n, h2, h3n, h4, op, w, rfl, ?_⟩))))
      rw [hr, dispatchWord, State.countTick_ctrl, hd]
      rfl
  · have hf : fetchWord s.countTick = .error (.run (.memoryOutOfRange s.pc)) :=
      memRead4_error _ _ (by simpa using h4)
    refine .inr (.inr (.inr (.inl ⟨h1n, h2, h3n, by omega, ?_⟩)))
    rw [hs, fetchAndRun, hf]
    rfl

end Sys2Proof.Machine
end

