-- ==== Sys2Proof/Laws/Effects.lean ====
section
/-! SUPPORT. What an instruction can do: every meaning ends in `finish`, and a next state is one of a few
shapes, each named with the instructions that have it. -/
namespace Sys2Proof.Machine
open Sys2Proof Sys2Proof.Safety

/-! ## How an instruction ends -/

/-- The result of a pseudocode that raises no UnknownOpcode (60_exceptions.md R281). -/
def RaisesNoUnknown {α : Type} (r : Except Err α) : Prop :=
  ∀ op w, r ≠ .error (.run (.unknownOpcode op w))

theorem RaisesNoUnknown.ok {α : Type} (v : α) : RaisesNoUnknown (.ok v : Except Err α) := by
  intro op w; simp

theorem RaisesNoUnknown.bind {α β : Type} {r : Except Err α} {f : α → Except Err β}
    (h1 : RaisesNoUnknown r) (h2 : ∀ v, RaisesNoUnknown (f v)) : RaisesNoUnknown (r >>= f) := by
  intro op w h
  rcases bind_eq_error.1 h with h | ⟨u, _, h⟩
  · exact h1 _ _ h
  · exact h2 _ _ _ h

theorem RaisesNoUnknown.regX (k : Byte) : RaisesNoUnknown (regX k) := by
  intro op w; rcases regX_cases k with ⟨r, _, h⟩ | ⟨_, h⟩ <;> simp [h]

theorem RaisesNoUnknown.regF (k : Byte) : RaisesNoUnknown (regF k) := by
  intro op w; rcases regF_cases k with ⟨r, _, h⟩ | ⟨_, h⟩ <;> simp [h]

theorem RaisesNoUnknown.writeX (s : State) (d : IReg) (v : Word) : RaisesNoUnknown (s.writeX d v) := by
  intro op w; by_cases h : d = .z <;> simp [State.writeX, h]

theorem RaisesNoUnknown.writeZN (s : State) (d : IReg) (v : Word) : RaisesNoUnknown (writeZN s d v) := by
  intro op w; by_cases h : d = .z <;> simp [Machine.writeZN, State.writeX, h]

theorem RaisesNoUnknown.writeResult (s : State) (d : FReg) (src : Config.NanSource) (u v : F64)
    (r : FpResult) : RaisesNoUnknown (writeResult s d src u v r) := by
  intro op w; by_cases h : d = .f0 <;> simp [Machine.writeResult, State.writeF, h]

theorem RaisesNoUnknown.memRead1 (m : Memory) (n : Word) : RaisesNoUnknown (memRead1 m n) := by
  intro op w; unfold Machine.memRead1; split <;> simp [outOfRange]

theorem RaisesNoUnknown.memRead4 (m : Memory) (n : Word) : RaisesNoUnknown (memRead4 m n) := by
  intro op w; unfold Machine.memRead4; split <;> simp [outOfRange]

theorem RaisesNoUnknown.memWrite1 (m : Memory) (n : Word) (v : Byte) :
    RaisesNoUnknown (memWrite1 m n v) := by
  intro op w; unfold Machine.memWrite1; split <;> simp [outOfRange]

theorem RaisesNoUnknown.memWrite4 (m : Memory) (n v : Word) : RaisesNoUnknown (memWrite4 m n v) := by
  intro op w; unfold Machine.memWrite4; split <;> simp [outOfRange]

/-- Every instruction ends its pseudocode in `finish`. -/
theorem exec_finish (i : Instr) (s : State) : ∃ r, exec i s = finish s r ∧ RaisesNoUnknown r := by
  cases i
  case ldImA | ldImB | ldImX | incA | incB | incX | bnch | jmp | bnchWithOffset | jmpWithOffset | halt |
      testCtrlNeg | callFnI | ret | extInstr =>
    exact ⟨.ok _, rfl, .ok _⟩
  case andR | orR | xorR | llshR | alshR | lrshR | arshR | addDss | subDss | multDss =>
    exact ⟨_, rfl, .bind (.regX _) fun _ => .bind (.regX _) fun _ => .bind (.regX _) fun _ =>
      .writeZN _ _ _⟩
  case andI | orI | xorI | llshI | alshI | lrshI | arshI | addDsi | subDsi | multDsi | move | notR =>
    exact ⟨_, rfl, .bind (.regX _) fun _ => .bind (.regX _) fun _ => .writeZN _ _ _⟩
  case popcnt => exact ⟨_, rfl, .bind (.regX _) fun _ => .bind (.regX _) fun _ => .writeX _ _ _⟩
  case testEq | testNeq => exact ⟨_, rfl, .bind (.regX _) fun _ => .bind (.regX _) fun _ => .ok _⟩
  case printIR | putcR | rndSeed => exact ⟨_, rfl, .bind (.regX _) fun _ => .ok _⟩
  case sqrtRI | rndNum => exact ⟨_, rfl, .bind (.regX _) fun _ => .writeZN _ _ _⟩
  case loadAtAddr =>
    exact ⟨_, rfl, .bind (.regX _) fun _ => .bind (.regX _) fun _ => .bind (.memRead1 _ _) fun _ =>
      .writeZN _ _ _⟩
  case storeAtAddr =>
    exact ⟨_, rfl, .bind (.regX _) fun _ => .bind (.regX _) fun _ => .bind (.memWrite1 _ _ _) fun _ =>
      .ok _⟩
  case regPush => exact ⟨_, rfl, .bind (.regX _) fun _ => .bind (.memWrite4 _ _ _) fun _ => .ok _⟩
  case regPop =>
    exact ⟨_, rfl, .bind (.regX _) fun _ => .bind (.memRead4 _ _) fun _ => .bind (.writeX _ _ _)
      fun _ => .ok _⟩
  case faddDss | fsubDss | fmultDss =>
    exact ⟨_, rfl, .bind (.regF _) fun _ => .bind (.regF _) fun _ => .bind (.regF _) fun _ =>
      .writeResult _ _ _ _ _ _⟩
  case faddDsi | fsubDsi | fmultDsi =>
    exact ⟨_, rfl, .bind (.regF _) fun _ => .bind (.regF _) fun _ => .writeResult _ _ _ _ _ _⟩
  case fsqrtRI => exact ⟨_, rfl, .bind (.regF _) fun _ => .writeResult _ _ _ _ _ _⟩
  case loadFimFa | loadFimFb =>
    simp only [exec, execLoadFimFa, execLoadFimFb, execLoadFloat]
    exact ⟨_, rfl, .writeResult _ _ _ _ _ _⟩

/-! ## The shapes of a next state -/

/-- Only an integer register other than `z`, ZERO and NEGATIVE can differ. -/
structure OnlyIntResult (s t : State) : Prop where
  z : t.z = s.z
  pc : t.pc = s.pc
  halted : t.halted = s.halted
  cycles : t.cycles = s.cycles
  fault : t.fault = s.fault
  prng : t.prng = s.prng
  out : t.out = s.out
  mem : t.mem = s.mem
  testTrue : t.ctrl.testTrue = s.ctrl.testTrue
  extFnc : t.ctrl.extFnc = s.ctrl.extFnc
  carry : t.ctrl.carry = s.ctrl.carry
  floats : SameF s t

theorem OnlyIntResult.of_set (s : State) (d : IReg) (v : Word) :
    OnlyIntResult s ((s.setX d v).setZN v) := by
  cases d <;> exact ⟨rfl, rfl, rfl, rfl, rfl, rfl, rfl, rfl, rfl, rfl, rfl, fun r => by cases r <;> rfl⟩

/-- Only the float registers and the count of free draws can differ. -/
def OnlyFloats (s t : State) : Prop :=
  ∃ u v w n, t = { s with fa := u, fb := v, fx := w, freeDraws := n }

theorem OnlyFloats.of_set (s : State) (d : FReg) (v : F64) (n : Nat) :
    OnlyFloats s { s.setF d v with freeDraws := n } := by
  cases d <;> exact ⟨_, _, _, _, rfl⟩

/-- A register whose field is the destination's is written (10_state.md R47). -/
theorem field_is_dest {k : Byte} {d : IReg} (h : regX k = .ok d) : (k == ixIndex d) = true := by
  rcases regX_cases k with ⟨r, rfl, h'⟩ | ⟨_, h'⟩ <;> rw [h'] at h <;> cases h
  exact beq_self_eq_true _

theorem field_is_floatDest {k : Byte} {d : FReg} (h : regF k = .ok d) : (k == ixFloat d) = true := by
  rcases regF_cases k with ⟨r, rfl, h'⟩ | ⟨_, h'⟩ <;> rw [h'] at h <;> cases h
  exact beq_self_eq_true _

theorem writesX_regPop (k : Byte) (r : IReg) :
    writesX (.regPop k) r = (k == ixIndex r || r == .sp) := rfl

/-- The shapes a next state of an instruction has. -/
inductive Effect (i : Instr) (s : State) : State → Prop where
  | intResult (d : IReg) (v : Word) : appliesSetZN i = true → i.isExtended = false →
      writesX i d = true → Effect i s ((s.setX d v).setZN v)
  | random (k : Byte) (d : IReg) (v : Word) : i = .rndNum k → writesX i d = true →
      Effect i s (((s.setPrng (prngAdvance s.prng)).setX d v).setZN v)
  | register (d : IReg) (v : Word) : i.isExtended = false → writesX i d = true →
      Effect i s (s.setX d v)
  | pop (d : IReg) (v : Word) : i.isExtended = false → writesX i d = true → writesX i .sp = true →
      Effect i s ((s.setX d v).setX .sp ((s.setX d v).sp - 4#32))
  | test (b : Bool) : writesTest i = true → i.isExtended = false → Effect i s (s.setTest b)
  | jump (v : Word) : transfers i = true → i.isExtended = false → Effect i s (s.setPc v)
  | call (v : Word) : transfers i = true → i.isExtended = false → writesX i .ra = true →
      Effect i s ((s.setX .ra s.pc).setPc v)
  | noJump : i.isExtended = false → Effect i s s
  | store (addr : Word) (v : Byte) (m : Memory) : storesToMemory i = true → i.isExtended = false →
      memWrite1 s.mem addr v = .ok m → Effect i s (s.setMem m)
  | push (v : Word) (m : Memory) : storesToMemory i = true → i.isExtended = false →
      writesX i .sp = true → memWrite4 s.mem s.sp v = .ok m →
      Effect i s ((s.setMem m).setX .sp (s.sp + 4#32))
  | halt : i = .halt → Effect i s { s with halted := true }
  | prefixed : i = .extInstr → Effect i s (s.setExt true)
  | seed (p : Prng) : writesPrng i = true → i.isExtended = false → Effect i s (s.setPrng p)
  | output (e : OutEvent) : writesOut i = true → i.isExtended = false → Effect i s (s.emit e)
  | float (d : FReg) (v : F64) (n : Nat) : i.isExtended = true → writesF i d = true →
      Effect i s { s.setF d v with freeDraws := n }

theorem Effect.of_result {i : Instr} {s t : State} {d : FReg} {src : Config.NanSource} {u v : F64}
    {r : FpResult} (hi : i.isExtended = true) (hd : writesF i d = true)
    (h : writeResult s d src u v r = .ok t) : Effect i s t := by
  rw [writeResult_eq_ok] at h
  obtain ⟨_, rfl⟩ := h
  exact .float _ _ _ hi hd

/-- Everything an instruction that answers a next state can have done. -/
theorem exec_effect (i : Instr) (s t : State) (h : exec i s = .next t) : Effect i s t := by
  cases i
  case andR | orR | xorR | llshR | alshR | lrshR | arshR | addDss | subDss | multDss =>
    obtain ⟨_, _, _, hd, _, _, _, rfl⟩ := execDss_next.1 h
    exact .intResult _ _ rfl rfl (field_is_dest hd)
  case andI | orI | xorI | llshI | alshI | lrshI | arshI | addDsi | subDsi | multDsi =>
    obtain ⟨_, _, hd, _, _, rfl⟩ := execDsi_next.1 h
    exact .intResult _ _ rfl rfl (field_is_dest hd)
  case move | notR =>
    simp only [exec, execMove, execNotR] at h
    obtain ⟨_, _, hd, _, _, rfl⟩ := execDs_next.1 h
    exact .intResult _ _ rfl rfl (field_is_dest hd)
  case ldImA | ldImB | ldImX | incA | incB | incX =>
    cases h
    exact .intResult _ _ rfl rfl rfl
  case loadAtAddr d r =>
    simp only [exec, execLoadAtAddr, finish_eq_next, bind_eq_ok, writeZN_eq_ok] at h
    obtain ⟨_, hd, _, _, _, _, _, rfl⟩ := h
    exact .intResult _ _ rfl rfl (field_is_dest hd)
  case sqrtRI r =>
    simp only [exec, execSqrtRI, finish_eq_next, bind_eq_ok, writeZN_eq_ok] at h
    obtain ⟨_, hd, _, rfl⟩ := h
    exact .intResult _ _ rfl rfl (field_is_dest hd)
  case faddDss | fsubDss | fmultDss =>
    obtain ⟨_, _, _, hd, _, _, h⟩ := execFloatDss_next.1 h
    exact .of_result rfl (field_is_floatDest hd) h
  case faddDsi | fsubDsi | fmultDsi =>
    obtain ⟨_, _, hd, _, h⟩ := execFloatDsi_next.1 h
    exact .of_result rfl (field_is_floatDest hd) h
  case fsqrtRI r =>
    simp only [exec, execFsqrtRI, finish_eq_next, bind_eq_ok] at h
    obtain ⟨_, hd, h⟩ := h
    exact .of_result rfl (field_is_floatDest hd) h
  case loadFimFa | loadFimFb =>
    simp only [exec, execLoadFimFa, execLoadFimFb, execLoadFloat, finish_eq_next] at h
    exact .of_result rfl rfl h
  case testEq | testNeq =>
    obtain ⟨_, _, _, _, rfl⟩ := execPair_next.1 h
    exact .test _ rfl rfl
  case testCtrlNeg => cases h; exact .test _ rfl rfl
  case jmp | jmpWithOffset | ret => cases h; exact .jump _ rfl rfl
  case callFnI => cases h; exact .call _ rfl rfl rfl
  case bnch l =>
    simp only [exec, execBnch, Host.Outcome.next.injEq] at h
    split at h <;> subst h
    · exact .jump _ rfl rfl
    · exact .noJump rfl
  case bnchWithOffset l =>
    simp only [exec, execBnchWithOffset, Host.Outcome.next.injEq] at h
    split at h <;> subst h
    · exact .jump _ rfl rfl
    · exact .noJump rfl
  case halt => cases h; exact .halt rfl
  case extInstr => cases h; exact .prefixed rfl
  case storeAtAddr d r =>
    simp only [exec, execStoreAtAddr, finish_eq_next, bind_eq_ok, Except.ok.injEq] at h
    obtain ⟨_, _, _, _, _, h, rfl⟩ := h
    exact .store _ _ _ rfl rfl h
  case regPush r =>
    simp only [exec, execRegPush, finish_eq_next, bind_eq_ok, Except.ok.injEq] at h
    obtain ⟨_, _, _, h, rfl⟩ := h
    exact .push _ _ rfl rfl rfl h
  case regPop r =>
    simp only [exec, execRegPop, finish_eq_next, bind_eq_ok, Except.ok.injEq, writeX_eq_ok] at h
    obtain ⟨_, hd, _, _, _, ⟨_, rfl⟩, rfl⟩ := h
    exact .pop _ _ rfl (by rw [writesX_regPop, field_is_dest hd, Bool.true_or])
      (by rw [writesX_regPop, beq_self_eq_true, Bool.or_true])
  case popcnt d r =>
    simp only [exec, execPopcnt, finish_eq_next, bind_eq_ok, writeX_eq_ok] at h
    obtain ⟨_, hd, _, _, _, rfl⟩ := h
    exact .register _ _ rfl (field_is_dest hd)
  case printIR r =>
    simp only [exec, execPrintIR] at h
    obtain ⟨_, _, rfl⟩ := execSource_next.1 h
    exact .output _ rfl rfl
  case putcR r =>
    simp only [exec, execPutcR] at h
    obtain ⟨_, _, rfl⟩ := execSource_next.1 h
    exact .output _ rfl rfl
  case rndSeed r =>
    simp only [exec, execRndSeed] at h
    obtain ⟨_, _, rfl⟩ := execSource_next.1 h
    exact .seed _ rfl rfl
  case rndNum r =>
    simp only [exec, execRndNum, finish_eq_next, bind_eq_ok, writeZN_eq_ok] at h
    obtain ⟨_, hd, _, rfl⟩ := h
    exact .random _ _ _ rfl (field_is_dest hd)

end Sys2Proof.Machine
end

