-- ==== Sys2Proof/Laws/Float.lean ====
section
/-! SUPPORT. The fields of a binary64 pattern put together from its parts, the sign and magnitude of a
packed one, and what rounding keeps in range (46_extended_float.md R260, R261). -/
namespace Sys2Proof.Machine
open Sys2Proof

/-! ## A pattern from sign, exponent and fraction -/

theorem f64_bit (g : BitVec 1) (e : BitVec 11) (f : BitVec 52) (i : Nat) :
    BitVec.getLsbD (w := 64) (g ++ e ++ f) i =
      if i < 52 then f.getLsbD i else if i < 63 then e.getLsbD (i - 52) else g.getLsbD (i - 63) := by
  show BitVec.getLsbD (w := 1 + 11 + 52) (g ++ e ++ f) i = _
  rw [BitVec.getLsbD_append, BitVec.getLsbD_append]
  by_cases h1 : i < 52
  · simp [h1]
  · by_cases h2 : i < 63
    · simp [h1, h2, show i - 52 < 11 by omega]
    · simp [h1, h2, show ¬ i - 52 < 11 by omega, Nat.sub_sub]

theorem f64Exp_parts (g : BitVec 1) (e : BitVec 11) (f : BitVec 52) :
    f64Exp (g ++ e ++ f) = e.toNat := by
  have h : BitVec.extractLsb' 52 11 (show F64 from g ++ e ++ f) = e := by
    apply BitVec.eq_of_getLsbD_eq
    intro i hi
    rw [BitVec.getLsbD_extractLsb', f64_bit]
    simp [hi, show 52 + i < 63 by omega]
  exact congrArg BitVec.toNat h

theorem f64Frac_parts (g : BitVec 1) (e : BitVec 11) (f : BitVec 52) :
    f64Frac (g ++ e ++ f) = f.toNat := by
  have h : BitVec.extractLsb' 0 52 (show F64 from g ++ e ++ f) = f := by
    apply BitVec.eq_of_getLsbD_eq
    intro i hi
    rw [BitVec.getLsbD_extractLsb', f64_bit]
    simp [hi]
  exact congrArg BitVec.toNat h

/-- A drawn NaN is a NaN, whatever was drawn (93_implementation_defined.md U9). -/
theorem isNaN_someNaN (c : BitVec 53) : isNaN (someNaN c) = true := by
  have hf : (if c.extractLsb' 0 52 = 0#52 then 1#52 <<< 51 else c.extractLsb' 0 52) ≠ 0#52 := by
    split
    · decide
    · assumption
  have h1 : f64Exp (someNaN c) = 2047 := f64Exp_parts _ _ _
  have h2 : f64Frac (someNaN c) ≠ 0 := by
    have h : f64Frac (someNaN c) = _ := f64Frac_parts _ _ _
    rw [h]
    exact fun h0 => hf (BitVec.eq_of_toNat_eq (by simpa using h0))
  simp [isNaN, h1, h2]

/-- A drawn quiet NaN is quiet, whatever was drawn. -/
theorem isQuietNaN_quietNaN (c : BitVec 53) : isQuietNaN (quietNaN c) = true := by
  have h1 : f64Exp (quietNaN c) = 2047 := f64Exp_parts _ _ _
  have h2 : (quietNaN c).getLsbD 51 = true := by
    have h : (quietNaN c).getLsbD 51 = _ := f64_bit _ _ _ 51
    rw [h]
    simp
  simp [isQuietNaN, h1, h2]

/-! ## A pattern from sign and magnitude -/

theorem f64Pack_toNat (sign : Bool) (m : Nat) (h : m < 2 ^ 63) :
    (f64Pack sign m).toNat = (if sign then 2 ^ 63 else 0) + m := by
  have hm : m % 2 ^ 63 = m := Nat.mod_eq_of_lt h
  show BitVec.toNat (w := 1 + 63) (BitVec.ofBool sign ++ BitVec.ofNat 63 m) = _
  rw [BitVec.toNat_append, BitVec.toNat_ofNat, hm]
  cases sign
  · simp
  · rw [Nat.shiftLeft_eq]
    simp only [BitVec.toNat_ofBool, Bool.toNat_true, one_mul, if_true]
    rw [← Nat.two_pow_add_eq_or_of_lt h 1]
    simp

theorem f64Exp_toNat (d : F64) : f64Exp d = d.toNat / 2 ^ 52 % 2 ^ 11 := by
  simp [f64Exp, BitVec.extractLsb'_toNat, Nat.shiftRight_eq_div_pow]

theorem f64Frac_toNat (d : F64) : f64Frac d = d.toNat % 2 ^ 52 := by
  simp [f64Frac, BitVec.extractLsb'_toNat]

theorem f64Sign_toNat (d : F64) : f64Sign d = decide (2 ^ 63 ≤ d.toNat) := by
  rw [f64Sign, ← BitVec.msb_eq_getLsbD_last (x := d), BitVec.msb_eq_decide]

theorem f64Exp_pack (sign : Bool) (m : Nat) (h : m < 2 ^ 63) :
    f64Exp (f64Pack sign m) = m / 2 ^ 52 := by
  rw [f64Exp_toNat, f64Pack_toNat _ _ h]
  cases sign <;> simp <;> omega

theorem f64Frac_pack (sign : Bool) (m : Nat) (h : m < 2 ^ 63) :
    f64Frac (f64Pack sign m) = m % 2 ^ 52 := by
  rw [f64Frac_toNat, f64Pack_toNat _ _ h]
  cases sign <;> simp <;> omega

theorem f64Sign_pack (sign : Bool) (m : Nat) (h : m < 2 ^ 63) : f64Sign (f64Pack sign m) = sign := by
  rw [f64Sign_toNat, f64Pack_toNat _ _ h]
  cases sign <;> simp
  omega

/-! ## Rounding -/

theorem roundMag_le (m : Nat) : roundMag m ≤ infMag := Nat.min_le_right _ _

theorem infMag_lt : infMag < 2 ^ 63 := by decide

/-- Rounding keeps the sign it is given. -/
theorem f64Sign_roundUnits (sign : Bool) (m : Nat) : f64Sign (roundUnits sign m) = sign :=
  f64Sign_pack sign _ (Nat.lt_of_le_of_lt (roundMag_le m) infMag_lt)

/-- Rounding never makes a NaN. -/
theorem isNaN_roundUnits (sign : Bool) (m : Nat) : isNaN (roundUnits sign m) = false := by
  have h := roundMag_le m
  have hl : roundMag m < 2 ^ 63 := Nat.lt_of_le_of_lt h infMag_lt
  rw [isNaN, roundUnits, f64Exp_pack _ _ hl, f64Frac_pack _ _ hl]
  unfold infMag at h
  simp only [Bool.and_eq_false_iff, decide_eq_false_iff_not, not_not]
  omega

/-- The quotient rounded to nearest is within half of the place, on an even quotient when exactly half. -/
theorem roundQuotient_near (m place : Nat) (hp : 0 < place) :
    2 * m ≤ 2 * roundQuotient m place * 2 ^ place + 2 ^ place ∧
    2 * roundQuotient m place * 2 ^ place ≤ 2 * m + 2 ^ place ∧
    (2 * m = 2 * roundQuotient m place * 2 ^ place + 2 ^ place ∨
      2 * roundQuotient m place * 2 ^ place = 2 * m + 2 ^ place → roundQuotient m place % 2 = 0) := by
  obtain ⟨p, rfl⟩ : ∃ p, place = p + 1 := ⟨place - 1, by omega⟩
  have hdm := Nat.div_add_mod m (2 ^ (p + 1))
  have hlt := Nat.mod_lt m (Nat.two_pow_pos (p + 1))
  have h2 : 2 ^ (p + 1) = 2 * 2 ^ p := Nat.pow_succ' ..
  have hpos := Nat.two_pow_pos p
  unfold roundQuotient
  simp only [Nat.add_sub_cancel]
  generalize hq : m / 2 ^ (p + 1) = q at *
  generalize hr : m % 2 ^ (p + 1) = r at *
  rw [h2] at hdm hlt ⊢
  generalize 2 ^ p = u at *
  have e1 : ∀ c : Nat, 2 * c * (2 * u) = 4 * (u * c) := fun c => by ring
  have e2 : 2 * u * q = 2 * (u * q) := by ring
  have e3 : u * (q + 1) = u * q + u := by ring
  rw [e2] at hdm
  split
  · rw [e1, e3]; generalize u * q = t at *; omega
  · rw [e1]; generalize u * q = t at *; omega

/-! ## The integer square root -/

/-- The bits still to try decide the root: it stays at most the true root and within reach of it. -/
theorem isqrtFrom_spec (k r n : Nat) (h1 : r * r ≤ n) (h2 : n < (r + 2 ^ k) * (r + 2 ^ k)) :
    isqrtFrom k r n * isqrtFrom k r n ≤ n ∧ n < (isqrtFrom k r n + 1) * (isqrtFrom k r n + 1) := by
  induction k generalizing r with
  | zero => exact ⟨h1, by simpa [isqrtFrom] using h2⟩
  | succ k ih =>
    simp only [isqrtFrom]
    split
    · exact ih _ (by assumption) (by rw [Nat.add_assoc, ← Nat.two_mul, ← Nat.pow_succ']; exact h2)
    · exact ih _ h1 (by omega)

/-- `isqrt` gives the largest number whose square is at most `n`. -/
theorem isqrt_spec (bits n : Nat) (h : n < 2 ^ bits * 2 ^ bits) :
    isqrt bits n * isqrt bits n ≤ n ∧ n < (isqrt bits n + 1) * (isqrt bits n + 1) :=
  isqrtFrom_spec bits 0 n (Nat.zero_le n) (by simpa using h)

end Sys2Proof.Machine
end

