-- ==== Sys2Proof/Laws/PerInstr.lean ====
section
/-! SUPPORT. Facts about an instruction as syntax, one lemma per constructor. -/
namespace Sys2Proof.Laws.OpcodeByte
open Sys2Proof

/-- Under every numbering, the top byte of the encoded instruction is its opcode in its own table
(30_encoding.md R91). -/
def Statement (i : Instr) : Prop := ∀ m : Opcodes, byte31 (encodeWith m i) = i.opcodeIn m

theorem andR (d : Byte) (s1 : Byte) (s2 : Byte) : Statement (.andR d s1 s2) :=
  fun _ => byte31_packThree _ _ _ _
theorem orR (d : Byte) (s1 : Byte) (s2 : Byte) : Statement (.orR d s1 s2) :=
  fun _ => byte31_packThree _ _ _ _
theorem xorR (d : Byte) (s1 : Byte) (s2 : Byte) : Statement (.xorR d s1 s2) :=
  fun _ => byte31_packThree _ _ _ _
theorem llshR (d : Byte) (s1 : Byte) (s2 : Byte) : Statement (.llshR d s1 s2) :=
  fun _ => byte31_packThree _ _ _ _
theorem alshR (d : Byte) (s1 : Byte) (s2 : Byte) : Statement (.alshR d s1 s2) :=
  fun _ => byte31_packThree _ _ _ _
theorem lrshR (d : Byte) (s1 : Byte) (s2 : Byte) : Statement (.lrshR d s1 s2) :=
  fun _ => byte31_packThree _ _ _ _
theorem arshR (d : Byte) (s1 : Byte) (s2 : Byte) : Statement (.arshR d s1 s2) :=
  fun _ => byte31_packThree _ _ _ _
theorem andI (d : Byte) (r : Byte) (imm : Byte) : Statement (.andI d r imm) :=
  fun _ => byte31_packThree _ _ _ _
theorem orI (d : Byte) (r : Byte) (imm : Byte) : Statement (.orI d r imm) :=
  fun _ => byte31_packThree _ _ _ _
theorem xorI (d : Byte) (r : Byte) (imm : Byte) : Statement (.xorI d r imm) :=
  fun _ => byte31_packThree _ _ _ _
theorem llshI (d : Byte) (r : Byte) (imm : Byte) : Statement (.llshI d r imm) :=
  fun _ => byte31_packThree _ _ _ _
theorem alshI (d : Byte) (r : Byte) (imm : Byte) : Statement (.alshI d r imm) :=
  fun _ => byte31_packThree _ _ _ _
theorem lrshI (d : Byte) (r : Byte) (imm : Byte) : Statement (.lrshI d r imm) :=
  fun _ => byte31_packThree _ _ _ _
theorem arshI (d : Byte) (r : Byte) (imm : Byte) : Statement (.arshI d r imm) :=
  fun _ => byte31_packThree _ _ _ _
theorem move (d : Byte) (r : Byte) : Statement (.move d r) :=
  fun _ => byte31_packThree _ _ _ _
theorem notR (d : Byte) (r : Byte) : Statement (.notR d r) :=
  fun _ => byte31_packThree _ _ _ _
theorem loadAtAddr (d : Byte) (r : Byte) : Statement (.loadAtAddr d r) :=
  fun _ => byte31_packThree _ _ _ _
theorem storeAtAddr (d : Byte) (r : Byte) : Statement (.storeAtAddr d r) :=
  fun _ => byte31_packThree _ _ _ _
theorem ldImA (lit : Lit24) : Statement (.ldImA lit) :=
  fun _ => byte31_packLit _ _
theorem ldImB (lit : Lit24) : Statement (.ldImB lit) :=
  fun _ => byte31_packLit _ _
theorem ldImX (lit : Lit24) : Statement (.ldImX lit) :=
  fun _ => byte31_packLit _ _
theorem incA : Statement (.incA) :=
  fun _ => byte31_packLit _ _
theorem incB : Statement (.incB) :=
  fun _ => byte31_packLit _ _
theorem incX : Statement (.incX) :=
  fun _ => byte31_packLit _ _
theorem addDsi (d : Byte) (r : Byte) (imm : Byte) : Statement (.addDsi d r imm) :=
  fun _ => byte31_packThree _ _ _ _
theorem subDsi (d : Byte) (r : Byte) (imm : Byte) : Statement (.subDsi d r imm) :=
  fun _ => byte31_packThree _ _ _ _
theorem multDsi (d : Byte) (r : Byte) (imm : Byte) : Statement (.multDsi d r imm) :=
  fun _ => byte31_packThree _ _ _ _
theorem addDss (d : Byte) (s1 : Byte) (s2 : Byte) : Statement (.addDss d s1 s2) :=
  fun _ => byte31_packThree _ _ _ _
theorem subDss (d : Byte) (s1 : Byte) (s2 : Byte) : Statement (.subDss d s1 s2) :=
  fun _ => byte31_packThree _ _ _ _
theorem multDss (d : Byte) (s1 : Byte) (s2 : Byte) : Statement (.multDss d s1 s2) :=
  fun _ => byte31_packThree _ _ _ _
theorem bnch (lit : Lit24) : Statement (.bnch lit) :=
  fun _ => byte31_packLit _ _
theorem jmp (lit : Lit24) : Statement (.jmp lit) :=
  fun _ => byte31_packLit _ _
theorem bnchWithOffset (lit : Lit24) : Statement (.bnchWithOffset lit) :=
  fun _ => byte31_packLit _ _
theorem jmpWithOffset (lit : Lit24) : Statement (.jmpWithOffset lit) :=
  fun _ => byte31_packLit _ _
theorem halt : Statement (.halt) :=
  fun _ => byte31_packLit _ _
theorem testEq (l : Byte) (r : Byte) : Statement (.testEq l r) :=
  fun _ => byte31_packThree _ _ _ _
theorem testNeq (l : Byte) (r : Byte) : Statement (.testNeq l r) :=
  fun _ => byte31_packThree _ _ _ _
theorem testCtrlNeg : Statement (.testCtrlNeg) :=
  fun _ => byte31_packLit _ _
theorem popcnt (d : Byte) (r : Byte) : Statement (.popcnt d r) :=
  fun _ => byte31_packThree _ _ _ _
theorem printIR (r : Byte) : Statement (.printIR r) :=
  fun _ => byte31_packThree _ _ _ _
theorem putcR (r : Byte) : Statement (.putcR r) :=
  fun _ => byte31_packThree _ _ _ _
theorem callFnI (lit : Lit24) : Statement (.callFnI lit) :=
  fun _ => byte31_packLit _ _
theorem ret : Statement (.ret) :=
  fun _ => byte31_packLit _ _
theorem regPush (r : Byte) : Statement (.regPush r) :=
  fun _ => byte31_packThree _ _ _ _
theorem regPop (r : Byte) : Statement (.regPop r) :=
  fun _ => byte31_packThree _ _ _ _
theorem rndSeed (r : Byte) : Statement (.rndSeed r) :=
  fun _ => byte31_packThree _ _ _ _
theorem rndNum (r : Byte) : Statement (.rndNum r) :=
  fun _ => byte31_packThree _ _ _ _
theorem sqrtRI (r : Byte) : Statement (.sqrtRI r) :=
  fun _ => byte31_packThree _ _ _ _
theorem extInstr : Statement (.extInstr) :=
  fun _ => byte31_packLit _ _
theorem faddDsi (d : Byte) (r : Byte) (imm : Byte) : Statement (.faddDsi d r imm) :=
  fun _ => byte31_packThree _ _ _ _
theorem fsubDsi (d : Byte) (r : Byte) (imm : Byte) : Statement (.fsubDsi d r imm) :=
  fun _ => byte31_packThree _ _ _ _
theorem fmultDsi (d : Byte) (r : Byte) (imm : Byte) : Statement (.fmultDsi d r imm) :=
  fun _ => byte31_packThree _ _ _ _
theorem faddDss (d : Byte) (s1 : Byte) (s2 : Byte) : Statement (.faddDss d s1 s2) :=
  fun _ => byte31_packThree _ _ _ _
theorem fsubDss (d : Byte) (s1 : Byte) (s2 : Byte) : Statement (.fsubDss d s1 s2) :=
  fun _ => byte31_packThree _ _ _ _
theorem fmultDss (d : Byte) (s1 : Byte) (s2 : Byte) : Statement (.fmultDss d s1 s2) :=
  fun _ => byte31_packThree _ _ _ _
theorem fsqrtRI (r : Byte) : Statement (.fsqrtRI r) :=
  fun _ => byte31_packThree _ _ _ _
theorem loadFimFa (lit : Lit24) : Statement (.loadFimFa lit) :=
  fun _ => byte31_packLit _ _
theorem loadFimFb (lit : Lit24) : Statement (.loadFimFb lit) :=
  fun _ => byte31_packLit _ _

end Sys2Proof.Laws.OpcodeByte
end

