-- ==== Sys2Proof/Laws/Rounding.lean ====
section
/-! SUPPORT. What rounding answers: the magnitude of a pattern, the quotient `roundMag` packs, and that the
packed value is the nearest one (46_extended_float.md R261). -/
namespace Sys2Proof.Machine
open Sys2Proof Sys2Proof.Safety

/-! ## The magnitude of a pattern -/

/-- The magnitude of the 63 bits below the sign, in units of `2^-1074`. -/
def magOf (p : Nat) : Nat :=
  if p / 2 ^ 52 = 0 then p % 2 ^ 52 else (p % 2 ^ 52 + 2 ^ 52) * 2 ^ (p / 2 ^ 52 - 1)

theorem f64Mag_eq (d : F64) : f64Mag d = magOf (d.toNat % 2 ^ 63) := by
  have h1 : f64Exp d = d.toNat % 2 ^ 63 / 2 ^ 52 := by rw [f64Exp_toNat]; omega
  have h2 : f64Frac d = d.toNat % 2 ^ 63 % 2 ^ 52 := by rw [f64Frac_toNat]; omega
  unfold f64Mag f64Mant f64Scale magOf
  rw [h1, h2]
  split <;> rename_i h
  · rw [h]; simp
  · rfl

theorem f64Mag_pack (sign : Bool) (p : Nat) (h : p < 2 ^ 63) : f64Mag (f64Pack sign p) = magOf p := by
  rw [f64Mag_eq, f64Pack_toNat _ _ h]
  congr 1
  cases sign <;> simp <;> omega

theorem isFinite_iff (d : F64) : isFinite d = true ↔ d.toNat % 2 ^ 63 < infMag := by
  have := d.isLt
  simp only [isFinite, decide_eq_true_eq, f64Exp_toNat, infMag]
  omega

theorem isFinite_pack (sign : Bool) (p : Nat) (h : p < infMag) : isFinite (f64Pack sign p) = true := by
  rw [isFinite_iff, f64Pack_toNat _ _ (Nat.lt_trans h infMag_lt)]
  have := infMag_lt
  cases sign <;> simp <;> omega

theorem magOf_zero : magOf 0 = 0 := rfl

/-- A significand `q` over scale `k`, also the `2^53` that carries into the next exponent. -/
theorem magOf_form (k q : Nat) (hq : q ≤ 2 ^ 53) (h : k = 0 ∨ 2 ^ 52 ≤ q) :
    magOf (k * 2 ^ 52 + q) = q * 2 ^ k := by
  unfold magOf
  rcases Nat.lt_or_ge q (2 ^ 52) with h1 | h1
  · obtain rfl : k = 0 := by omega
    rw [if_pos (by omega)]
    omega
  · rcases Nat.lt_or_ge q (2 ^ 53) with h2 | h2
    · have e1 : (k * 2 ^ 52 + q) / 2 ^ 52 = k + 1 := by omega
      have e2 : (k * 2 ^ 52 + q) % 2 ^ 52 + 2 ^ 52 = q := by omega
      rw [e1, e2, if_neg (by omega)]
      rfl
    · obtain rfl : q = 2 ^ 53 := by omega
      have e1 : (k * 2 ^ 52 + 2 ^ 53) / 2 ^ 52 = k + 2 := by omega
      have e2 : (k * 2 ^ 52 + 2 ^ 53) % 2 ^ 52 + 2 ^ 52 = 2 ^ 52 := by omega
      rw [e1, e2, if_neg (by omega), show k + 2 - 1 = k + 1 by omega, Nat.pow_succ]
      ring

/-- Above `2^52` places of `2^k`, every magnitude is a multiple of the place. -/
theorem magOf_mult (k p : Nat) : magOf p < 2 ^ 52 * 2 ^ k ∨ ∃ j, magOf p = j * 2 ^ k := by
  unfold magOf
  have hl : p % 2 ^ 52 < 2 ^ 52 := Nat.mod_lt _ (by norm_num)
  have hk := Nat.one_le_two_pow (n := k)
  split
  · left; nlinarith
  · rcases Nat.lt_or_ge (p / 2 ^ 52 - 1) k with h | h
    · left
      have : 2 ^ (p / 2 ^ 52 - 1 + 1) ≤ 2 ^ k := Nat.pow_le_pow_right (by norm_num) h
      rw [Nat.pow_succ] at this
      nlinarith [Nat.one_le_two_pow (n := p / 2 ^ 52 - 1)]
    · right
      refine ⟨(p % 2 ^ 52 + 2 ^ 52) * 2 ^ (p / 2 ^ 52 - 1 - k), ?_⟩
      rw [Nat.mul_assoc, ← Nat.pow_add]
      congr 2
      omega

/-! ## The quotient that rounding packs -/

/-- `q` places of `2^(1074 + k)` are `m` rounded to nearest, ties to even, with 53 significant bits or the
least place. -/
structure RoundsTo (m k q : Nat) : Prop where
  fits : q ≤ 2 ^ 53
  normal : k = 0 ∨ 2 ^ 52 ≤ q
  atLeast : k = 0 ∨ 2 ^ 52 * 2 ^ (1074 + k) ≤ m
  below : m < 2 ^ 53 * 2 ^ (1074 + k)
  notLow : 2 * m ≤ 2 * (q * 2 ^ (1074 + k)) + 2 ^ (1074 + k)
  notHigh : 2 * (q * 2 ^ (1074 + k)) ≤ 2 * m + 2 ^ (1074 + k)
  tie : 2 * m = 2 * (q * 2 ^ (1074 + k)) + 2 ^ (1074 + k) ∨
    2 * (q * 2 ^ (1074 + k)) = 2 * m + 2 ^ (1074 + k) → q % 2 = 0

theorem roundMag_form (m : Nat) :
    ∃ k q, roundMag m = min (k * 2 ^ 52 + q) infMag ∧ RoundsTo m k q := by
  obtain ⟨k, hk⟩ : ∃ k, roundPlace m = 1074 + k := ⟨roundPlace m - 1074, by unfold roundPlace; omega⟩
  obtain ⟨n1, n2, n3⟩ := roundQuotient_near m (roundPlace m) (by omega)
  rw [hk, Nat.mul_assoc] at n1 n2 n3
  have below : m < 2 ^ 53 * 2 ^ (1074 + k) := by
    rw [← Nat.pow_add]
    refine Nat.lt_of_lt_of_le (Nat.lt_log2_self (n := m)) (Nat.pow_le_pow_right (by norm_num) ?_)
    unfold roundPlace at hk
    omega
  have atLeast : k = 0 ∨ 2 ^ 52 * 2 ^ (1074 + k) ≤ m := by
    by_cases h : k = 0
    · exact .inl h
    · right
      have hm0 : m ≠ 0 := by rintro rfl; simp [roundPlace] at hk; omega
      rw [← Nat.pow_add]
      refine Nat.le_trans (Nat.pow_le_pow_right (by norm_num) ?_) (Nat.log2_self_le hm0)
      unfold roundPlace at hk
      omega
  have hP := Nat.one_le_two_pow (n := 1074 + k)
  refine ⟨k, roundQuotient m (1074 + k), ?_, ?_, ?_, atLeast, below, n1, n2, n3⟩
  · simp only [roundMag, hk, Nat.add_sub_cancel_left]
  · generalize roundQuotient m (1074 + k) = q at *
    generalize 2 ^ (1074 + k) = P at *
    by_contra h
    have := Nat.mul_le_mul_right P (show 2 ^ 53 + 1 ≤ q by omega)
    omega
  · rcases atLeast with h | h
    · exact .inl h
    · right
      generalize roundQuotient m (1074 + k) = q at *
      generalize 2 ^ (1074 + k) = P at *
      by_contra h'
      have := Nat.mul_le_mul_right P (show q + 1 ≤ 2 ^ 52 by omega)
      rw [Nat.succ_mul] at this
      omega

theorem overflowAt_pos : 0 < overflowAt :=
  Nat.mul_pos (by norm_num) (Nat.two_pow_pos 3118)

/-- The packed significand reaches infinity exactly at the overflow bound. -/
theorem RoundsTo.overflow {m k q : Nat} (h : RoundsTo m k q) :
    (m < overflowAt → k * 2 ^ 52 + q < infMag) ∧ (overflowAt ≤ m → infMag ≤ k * 2 ^ 52 + q) := by
  obtain ⟨hq, hn, h1, h2, n1, n2, n3⟩ := h
  unfold overflowAt infMag
  rw [show 0x7FF * 2 ^ 52 = 2045 * 2 ^ 52 + 2 ^ 53 from by norm_num]
  obtain ⟨E, hE⟩ : ∃ E, E = 3118 := ⟨_, rfl⟩
  rw [← hE]
  have hQ := Nat.one_le_two_pow (n := E)
  rcases Nat.lt_trichotomy k 2045 with hk | hk | hk
  · refine ⟨fun _ => by omega, fun h => ?_⟩
    have : 2 ^ (1074 + k) ≤ 2 ^ E := Nat.pow_le_pow_right (by norm_num) (by omega)
    generalize 2 ^ (1074 + k) = P at *
    generalize 2 ^ E = Q at *
    omega
  · rw [show 1074 + k = E + 1 by omega, Nat.pow_succ, Nat.mul_comm (2 ^ E)] at *
    generalize 2 ^ E = Q at *
    constructor
    · intro h
      have : q ≠ 2 ^ 53 := by rintro rfl; clear n3; omega
      omega
    · intro h
      by_contra hc
      rcases Nat.lt_or_ge (q + 1) (2 ^ 53) with hl | hl
      · have h4 := Nat.mul_le_mul_right (2 * Q) (show q + 2 ≤ 2 ^ 53 by omega)
        rw [Nat.add_mul] at h4
        clear n3
        generalize q * (2 * Q) = t at *
        omega
      · obtain rfl : q = 2 ^ 53 - 1 := by omega
        have := n3 (.inl (by clear n3; omega))
        omega
  · have h4 : 2 ^ (E + 2) ≤ 2 ^ (1074 + k) := Nat.pow_le_pow_right (by norm_num) (by omega)
    rw [Nat.pow_add] at h4
    refine ⟨fun h => ?_, fun _ => by have := hn.resolve_left (by omega); omega⟩
    have := h1.resolve_left (by omega)
    clear n1 n2 n3
    generalize 2 ^ (1074 + k) = P at *
    generalize 2 ^ E = Q at *
    omega

/-! ## Nearest -/

theorem near_multiple (A V m P : Nat) (n1 : 2 * m ≤ 2 * A + P) (n2 : 2 * A ≤ 2 * m + P)
    (h : V = A ∨ A + P ≤ V ∨ V + P ≤ A) :
    Safety.dist A m ≤ Safety.dist V m ∧
    (Safety.dist V m = Safety.dist A m → V ≠ A → 2 * m = 2 * A + P ∨ 2 * A = 2 * m + P) := by
  unfold Safety.dist
  constructor <;> omega

theorem near_below (A V m : Nat) (h1 : A ≤ m) (h2 : V < A) :
    Safety.dist A m ≤ Safety.dist V m ∧ Safety.dist V m ≠ Safety.dist A m := by
  unfold Safety.dist
  constructor <;> omega

/-- No magnitude is nearer to `m` than the rounded one, and one just as near marks a tie. -/
theorem RoundsTo.nearest {m k q : Nat} (h : RoundsTo m k q) (p : Nat) :
    Safety.dist (q * 2 ^ k * 2 ^ 1074 : Nat) m ≤ Safety.dist (magOf p * 2 ^ 1074 : Nat) m ∧
    (Safety.dist (magOf p * 2 ^ 1074 : Nat) m = Safety.dist (q * 2 ^ k * 2 ^ 1074 : Nat) m →
      magOf p * 2 ^ 1074 ≠ q * 2 ^ k * 2 ^ 1074 → q % 2 = 0) := by
  obtain ⟨_, hn, h1, _, n1, n2, n3⟩ := h
  have eP : 2 ^ (1074 + k) = 2 ^ k * 2 ^ 1074 := by rw [Nat.pow_add, Nat.mul_comm]
  have hP := Nat.one_le_two_pow (n := 1074 + k)
  have key : (∃ j, magOf p * 2 ^ 1074 = j * 2 ^ (1074 + k)) ∨
      k ≠ 0 ∧ magOf p * 2 ^ 1074 < 2 ^ 52 * 2 ^ (1074 + k) := by
    rcases magOf_mult k p with h | ⟨j, hj⟩
    · by_cases hk : k = 0
      · subst hk; exact .inl ⟨magOf p, rfl⟩
      · refine .inr ⟨hk, ?_⟩
        rw [eP, ← Nat.mul_assoc]
        exact Nat.mul_lt_mul_of_pos_right h (by positivity)
    · exact .inl ⟨j, by rw [hj, eP, Nat.mul_assoc]⟩
  have hq : q * 2 ^ k * 2 ^ 1074 = q * 2 ^ (1074 + k) := by rw [eP, Nat.mul_assoc]
  rw [hq]
  generalize magOf p * 2 ^ 1074 = V at *
  generalize 2 ^ (1074 + k) = P at *
  rcases key with ⟨j, rfl⟩ | ⟨hk, hV⟩
  · have := near_multiple (q * P) (j * P) m P n1 n2 (by
      rcases Nat.lt_trichotomy j q with h | h | h
      · exact .inr (.inr (by nlinarith))
      · exact .inl (by rw [h])
      · exact .inr (.inl (by nlinarith)))
    exact ⟨this.1, fun g1 g2 => n3 (this.2 g1 g2)⟩
  · have h1 := h1.resolve_left hk
    rcases Nat.lt_or_ge q (2 ^ 52 + 1) with h | h
    · obtain rfl : q = 2 ^ 52 := by have := hn.resolve_left hk; omega
      have := near_below _ _ _ h1 hV
      exact ⟨this.1, fun g => absurd g this.2⟩
    · have hm := Nat.mul_le_mul_right P h
      have := near_multiple (q * P) V m P n1 n2 (.inr (.inr (by omega)))
      exact ⟨this.1, fun g1 g2 => n3 (this.2 g1 g2)⟩

theorem units_natAbs (d : F64) : (units d).natAbs = f64Mag d * 2 ^ 1074 := by
  unfold units f64Int
  rw [Int.natAbs_mul]
  split <;> simp

theorem units_sign (d : F64) :
    (f64Sign d = true → units d ≤ 0) ∧ (f64Sign d = false → 0 ≤ units d) := by
  unfold units f64Int
  constructor <;> intro h <;> simp [h]

/-- From nearness of magnitudes to nearness of signed values. -/
theorem near_signed (sign : Bool) (A B x : Int) (h1 : x < 0 → sign = true) (h2 : 0 < x → sign = false)
    (hs : (sign = true → A ≤ 0) ∧ (sign = false → 0 ≤ A))
    (h0 : Safety.dist (A.natAbs : Nat) (x.natAbs : Nat) ≤ Safety.dist (0 : Nat) (x.natAbs : Nat)) :
    (Safety.dist (A.natAbs : Nat) (x.natAbs : Nat) ≤ Safety.dist (B.natAbs : Nat) (x.natAbs : Nat) →
      Safety.dist A x ≤ Safety.dist B x) ∧
    (Safety.dist (A.natAbs : Nat) (x.natAbs : Nat) ≤ Safety.dist (B.natAbs : Nat) (x.natAbs : Nat) →
      Safety.dist B x = Safety.dist A x → B ≠ A →
      Safety.dist (B.natAbs : Nat) (x.natAbs : Nat) = Safety.dist (A.natAbs : Nat) (x.natAbs : Nat) ∧
        B.natAbs ≠ A.natAbs) := by
  unfold Safety.dist at *
  cases sign <;> simp at hs h1 h2 <;> constructor <;> omega

/-- A rounded value is the nearest one to the exact value whose magnitude and sign it was given. -/
theorem nearestEven_roundUnits (sign : Bool) (x : Int) (h1 : x < 0 → sign = true)
    (h2 : 0 < x → sign = false) : NearestEven x (roundUnits sign x.natAbs) := by
  obtain ⟨k, q, hr, hf⟩ := roundMag_form x.natAbs
  have hl : roundMag x.natAbs < 2 ^ 63 := Nat.lt_of_le_of_lt (roundMag_le _) infMag_lt
  constructor
  · intro hlt
    have hp : roundMag x.natAbs = k * 2 ^ 52 + q :=
      hr.trans (min_eq_left (Nat.le_of_lt (hf.overflow.1 hlt)))
    have hfin : roundMag x.natAbs < infMag := hp ▸ hf.overflow.1 hlt
    have hA : (units (roundUnits sign x.natAbs)).natAbs = q * 2 ^ k * 2 ^ 1074 := by
      rw [units_natAbs, roundUnits, f64Mag_pack _ _ hl, hp, magOf_form k q hf.fits hf.normal]
    have hs := units_sign (roundUnits sign x.natAbs)
    rw [f64Sign_roundUnits] at hs
    have h0 := (hf.nearest 0).1
    rw [← hA, magOf_zero, Nat.zero_mul] at h0
    refine ⟨isFinite_pack _ _ hfin, fun e _ => ?_, fun e _ hd hne => ?_⟩
    · have hn := (hf.nearest (e.toNat % 2 ^ 63)).1
      rw [← f64Mag_eq, ← units_natAbs, ← hA] at hn
      exact (near_signed sign _ _ x h1 h2 hs h0).1 hn
    · have hn := hf.nearest (e.toNat % 2 ^ 63)
      rw [← f64Mag_eq, ← units_natAbs, ← hA] at hn
      have hq : f64Frac (roundUnits sign x.natAbs) % 2 = q % 2 := by
        rw [roundUnits, f64Frac_pack _ _ hl, hp]
        omega
      have := (near_signed sign _ _ x h1 h2 hs h0).2 hn.1 hd hne
      rw [hq]
      exact hn.2 this.1 this.2
  · intro hle
    have hp : roundMag x.natAbs = infMag := hr.trans (min_eq_right (hf.overflow.2 hle))
    have hx : x ≠ 0 := by
      rintro rfl
      exact absurd hle (Nat.not_le.2 overflowAt_pos)
    have hs : sign = decide (x < 0) := by
      rcases Int.lt_or_gt_of_ne hx with h | h
      · rw [h1 h]; simp [h]
      · rw [h2 h]; simp; omega
    rw [roundUnits, hp, hs]
    rfl

end Sys2Proof.Machine
end

