-- ==== Sys2Proof/Tests/Slice0.lean ====
section
/-! SUPPORT. Tests: ill-formed terms refused, every constructor's word, single ticks on small states with
results from the vectors of 95_test_vectors.md, and a witness for the hypotheses of every statement. -/
namespace Sys2Proof.Tests
open Sys2Proof Sys2Proof.Machine Sys2Proof.Safety Sys2Proof.Claims

/-! ## Well-formed instructions (30_encoding.md R100, R101) -/

theorem test_illformed_AND_R_field1 : Instr.wf (.andR 6#8 5#8 5#8) = false := by decide
theorem test_illformed_AND_R_field2 : Instr.wf (.andR 5#8 6#8 5#8) = false := by decide
theorem test_illformed_AND_R_field3 : Instr.wf (.andR 5#8 5#8 6#8) = false := by decide
theorem test_wellformed_AND_R : Instr.wf (.andR 5#8 5#8 5#8) = true := by decide
theorem test_illformed_AND_I_field1 : Instr.wf (.andI 6#8 5#8 0xFF#8) = false := by decide
theorem test_illformed_AND_I_field2 : Instr.wf (.andI 5#8 6#8 0xFF#8) = false := by decide
theorem test_wellformed_AND_I : Instr.wf (.andI 5#8 5#8 0xFF#8) = true := by decide
theorem test_illformed_MOVE_field1 : Instr.wf (.move 6#8 5#8) = false := by decide
theorem test_illformed_MOVE_field2 : Instr.wf (.move 5#8 6#8) = false := by decide
theorem test_wellformed_MOVE : Instr.wf (.move 5#8 5#8) = true := by decide
theorem test_illformed_TEST_EQ_field1 : Instr.wf (.testEq 6#8 5#8) = false := by decide
theorem test_illformed_TEST_EQ_field2 : Instr.wf (.testEq 5#8 6#8) = false := by decide
theorem test_wellformed_TEST_EQ : Instr.wf (.testEq 5#8 5#8) = true := by decide
theorem test_illformed_PRINT_I_R_field1 : Instr.wf (.printIR 6#8) = false := by decide
theorem test_wellformed_PRINT_I_R : Instr.wf (.printIR 5#8) = true := by decide
theorem test_illformed_FADD_DSS_field1 : Instr.wf (.faddDss 4#8 3#8 3#8) = false := by decide
theorem test_illformed_FADD_DSS_field2 : Instr.wf (.faddDss 3#8 4#8 3#8) = false := by decide
theorem test_illformed_FADD_DSS_field3 : Instr.wf (.faddDss 3#8 3#8 4#8) = false := by decide
theorem test_wellformed_FADD_DSS : Instr.wf (.faddDss 3#8 3#8 3#8) = true := by decide
theorem test_illformed_FADD_DSI_field1 : Instr.wf (.faddDsi 4#8 3#8 0xFF#8) = false := by decide
theorem test_illformed_FADD_DSI_field2 : Instr.wf (.faddDsi 3#8 4#8 0xFF#8) = false := by decide
theorem test_wellformed_FADD_DSI : Instr.wf (.faddDsi 3#8 3#8 0xFF#8) = true := by decide
theorem test_illformed_FSQRT_R_I_field1 : Instr.wf (.fsqrtRI 4#8) = false := by decide
theorem test_wellformed_FSQRT_R_I : Instr.wf (.fsqrtRI 3#8) = true := by decide

/-! ## Every constructor's word, written out from 30_encoding.md R92 to R97 and the tables of R105, R106 -/

theorem test_decode_AND_R : decodeTableWord 32 0x00010203 = some (.andR 1#8 2#8 3#8) := by decide
theorem test_decode_OR_R : decodeTableWord 32 0x01010203 = some (.orR 1#8 2#8 3#8) := by decide
theorem test_decode_XOR_R : decodeTableWord 32 0x02010203 = some (.xorR 1#8 2#8 3#8) := by decide
theorem test_decode_LLSH_R : decodeTableWord 32 0x03010203 = some (.llshR 1#8 2#8 3#8) := by decide
theorem test_decode_ALSH_R : decodeTableWord 32 0x04010203 = some (.alshR 1#8 2#8 3#8) := by decide
theorem test_decode_LRSH_R : decodeTableWord 32 0x05010203 = some (.lrshR 1#8 2#8 3#8) := by decide
theorem test_decode_ARSH_R : decodeTableWord 32 0x06010203 = some (.arshR 1#8 2#8 3#8) := by decide
theorem test_decode_AND_I : decodeTableWord 32 0x070201FF = some (.andI 2#8 1#8 0xFF#8) := by decide
theorem test_decode_OR_I : decodeTableWord 32 0x080201FF = some (.orI 2#8 1#8 0xFF#8) := by decide
theorem test_decode_XOR_I : decodeTableWord 32 0x090201FF = some (.xorI 2#8 1#8 0xFF#8) := by decide
theorem test_decode_LLSH_I : decodeTableWord 32 0x0A0201FF = some (.llshI 2#8 1#8 0xFF#8) := by decide
theorem test_decode_ALSH_I : decodeTableWord 32 0x0B0201FF = some (.alshI 2#8 1#8 0xFF#8) := by decide
theorem test_decode_LRSH_I : decodeTableWord 32 0x0C0201FF = some (.lrshI 2#8 1#8 0xFF#8) := by decide
theorem test_decode_ARSH_I : decodeTableWord 32 0x0D0201FF = some (.arshI 2#8 1#8 0xFF#8) := by decide
theorem test_decode_MOVE : decodeTableWord 32 0x0E0301EE = some (.move 3#8 1#8) := by decide
theorem test_decode_NOT_R : decodeTableWord 32 0x0F0301EE = some (.notR 3#8 1#8) := by decide
theorem test_decode_LOAD_AT_ADDR : decodeTableWord 32 0x100301EE = some (.loadAtAddr 3#8 1#8) := by decide
theorem test_decode_STORE_AT_ADDR : decodeTableWord 32 0x110301EE = some (.storeAtAddr 3#8 1#8) := by decide
theorem test_decode_LD_IM_A : decodeTableWord 32 0x1280F001 = some (.ldImA 0x80F001#24) := by decide
theorem test_decode_LD_IM_B : decodeTableWord 32 0x1380F001 = some (.ldImB 0x80F001#24) := by decide
theorem test_decode_LD_IM_X : decodeTableWord 32 0x1480F001 = some (.ldImX 0x80F001#24) := by decide
theorem test_decode_INC_A : decodeTableWord 32 0x15ABCDEF = some .incA := by decide
theorem test_decode_INC_B : decodeTableWord 32 0x16ABCDEF = some .incB := by decide
theorem test_decode_INC_X : decodeTableWord 32 0x17ABCDEF = some .incX := by decide
theorem test_decode_ADD_DSI : decodeTableWord 32 0x180201FF = some (.addDsi 2#8 1#8 0xFF#8) := by decide
theorem test_decode_SUB_DSI : decodeTableWord 32 0x190201FF = some (.subDsi 2#8 1#8 0xFF#8) := by decide
theorem test_decode_MULT_DSI : decodeTableWord 32 0x1A0201FF = some (.multDsi 2#8 1#8 0xFF#8) := by decide
theorem test_decode_ADD_DSS : decodeTableWord 32 0x1B010203 = some (.addDss 1#8 2#8 3#8) := by decide
theorem test_decode_SUB_DSS : decodeTableWord 32 0x1C010203 = some (.subDss 1#8 2#8 3#8) := by decide
theorem test_decode_MULT_DSS : decodeTableWord 32 0x1D010203 = some (.multDss 1#8 2#8 3#8) := by decide
theorem test_decode_BNCH : decodeTableWord 32 0x1E80F001 = some (.bnch 0x80F001#24) := by decide
theorem test_decode_JMP : decodeTableWord 32 0x1F80F001 = some (.jmp 0x80F001#24) := by decide
theorem test_decode_BNCH_WITH_OFFSET : decodeTableWord 32 0x2080F001 = some (.bnchWithOffset 0x80F001#24) := by decide
theorem test_decode_JMP_WITH_OFFSET : decodeTableWord 32 0x2180F001 = some (.jmpWithOffset 0x80F001#24) := by decide
theorem test_decode_HALT : decodeTableWord 32 0x22ABCDEF = some .halt := by decide
theorem test_decode_TEST_EQ : decodeTableWord 32 0x23AA0102 = some (.testEq 1#8 2#8) := by decide
theorem test_decode_TEST_NEQ : decodeTableWord 32 0x24AA0102 = some (.testNeq 1#8 2#8) := by decide
theorem test_decode_TEST_CTRL_NEG : decodeTableWord 32 0x25ABCDEF = some .testCtrlNeg := by decide
theorem test_decode_POPCNT : decodeTableWord 32 0x260301EE = some (.popcnt 3#8 1#8) := by decide
theorem test_decode_PRINT_I_R : decodeTableWord 32 0x27AABB02 = some (.printIR 2#8) := by decide
theorem test_decode_PUTC_R : decodeTableWord 32 0x28AABB02 = some (.putcR 2#8) := by decide
theorem test_decode_CALL_FN_I : decodeTableWord 32 0x2980F001 = some (.callFnI 0x80F001#24) := by decide
theorem test_decode_RET : decodeTableWord 32 0x2AABCDEF = some .ret := by decide
theorem test_decode_REG_PUSH : decodeTableWord 32 0x2BAABB02 = some (.regPush 2#8) := by decide
theorem test_decode_REG_POP : decodeTableWord 32 0x2CAABB02 = some (.regPop 2#8) := by decide
theorem test_decode_RND_SEED : decodeTableWord 32 0x2DAABB02 = some (.rndSeed 2#8) := by decide
theorem test_decode_RND_NUM : decodeTableWord 32 0x2EAABB02 = some (.rndNum 2#8) := by decide
theorem test_decode_SQRT_R_I : decodeTableWord 32 0x2FAABB02 = some (.sqrtRI 2#8) := by decide
theorem test_decode_EXT_INSTR : decodeTableWord 32 0x30ABCDEF = some .extInstr := by decide
theorem test_decode_FADD_DSI : decode true 0x000201FF#32 = .ok (.faddDsi 2#8 1#8 0xFF#8) := by decide
theorem test_decode_FSUB_DSI : decode true 0x010201FF#32 = .ok (.fsubDsi 2#8 1#8 0xFF#8) := by decide
theorem test_decode_FMULT_DSI : decode true 0x020201FF#32 = .ok (.fmultDsi 2#8 1#8 0xFF#8) := by decide
theorem test_decode_FADD_DSS : decode true 0x03010203#32 = .ok (.faddDss 1#8 2#8 3#8) := by decide
theorem test_decode_FSUB_DSS : decode true 0x04010203#32 = .ok (.fsubDss 1#8 2#8 3#8) := by decide
theorem test_decode_FMULT_DSS : decode true 0x05010203#32 = .ok (.fmultDss 1#8 2#8 3#8) := by decide
theorem test_decode_FSQRT_R_I : decode true 0x06AABB02#32 = .ok (.fsqrtRI 2#8) := by decide
theorem test_decode_LOAD_FIM_FA : decode true 0x0780F001#32 = .ok (.loadFimFa 0x80F001#24) := by decide
theorem test_decode_LOAD_FIM_FB : decode true 0x0880F001#32 = .ok (.loadFimFb 0x80F001#24) := by decide
theorem test_decode_unassigned_normal :
    decode false 0x31000000#32 = .error (.unknownOpcode 0x31#8 0x31000000#32) := by decide
theorem test_decode_unassigned_extended :
    decode true 0x09000000#32 = .error (.unknownOpcode 0x09#8 0x09000000#32) := by decide

/-! ## Single ticks (95_test_vectors.md; the vector stands before each test) -/

/-- One tick of the word placed where the machine fetches. -/
def tick (w : Word) (s : State) : Outcome := step (s.withFetchWord 32 w.toNat)

/-- One tick of the word in the extended table. -/
def extTick (w : Word) (s : State) : Outcome := tick w (s.setExt true)

/-- What `f` sees of a next state. -/
def seen {α : Type} (f : State → α) : Outcome → Option α
  | .next t => some (f t)
  | _ => none

/-- ZERO and NEGATIVE. -/
def zn (t : State) : Bool × Bool := (t.ctrl.zero, t.ctrl.negative)

/-- What a run-fatal fault leaves: its latch, `pc` and the tick count. -/
def stopped : Outcome → Option (Option FaultRecord × Word × Nat)
  | .fault f => f.left.map fun l => (l.fault, l.pc, l.cycles)
  | _ => none

/-- After construction, with `a`, `b`. -/
def withAB (a b : Word) : State := { State.reset with a := a, b := b }

/-- After construction, with `sp` and a word stored at `n`. -/
def withStack (sp n w : Word) : State := { State.reset with sp := sp, mem := placeWord ⟨[]⟩ n w }

/-- After construction, with the word's address. -/
def withPc (pc : Word) : State := { State.reset with pc := pc }

/-- After construction, with TEST_TRUE. -/
def withTest (pc : Word) (b : Bool) : State := (withPc pc).setTest b

/-- After construction, with `fa`, `fb`. -/
def withFloats (fa fb : F64) : State := { State.reset with fa := fa, fb := fb }

theorem test_V1_AND_R :
    seen (fun t => (t.x, zn t)) (tick 0x00030102#32 (withAB 0x00FF00FF#32 0x0F0F0F0F#32)) = some (0x000F000F#32, false, false) := by decide
theorem test_V2_OR_R :
    seen (fun t => (t.a, zn t)) (tick 0x01010000#32 (withAB 0x55#32 0#32)) = some (0#32, true, false) := by decide
theorem test_V3_OR_R :
    seen (fun t => (t.x, zn t)) (tick 0x01030102#32 (withAB 0x00F00000#32 0x0000000F#32)) = some (0x00F0000F#32, false, true) := by decide
theorem test_V4_XOR_R :
    seen (fun t => (t.a, zn t)) (tick 0x02010101#32 (withAB 0x1234#32 0#32)) = some (0#32, true, false) := by decide
theorem test_V5_XOR_R :
    seen (fun t => (t.x, zn t)) (tick 0x02030102#32 (withAB 0xFFFFFFFF#32 0x00FFFFFF#32)) = some (0xFF000000#32, false, true) := by decide
theorem test_V7_LLSH_R :
    seen (fun t => (t.x, zn t)) (tick 0x03030102#32 (withAB 3#32 31#32)) = some (0x80000000#32, false, true) := by decide
theorem test_V8_LLSH_R :
    seen (fun t => (t.x, zn t)) (tick 0x03030102#32 (withAB 1#32 32#32)) = some (0#32, true, false) := by decide
theorem test_V9_ALSH_R :
    seen (fun t => (t.a, zn t)) (tick 0x04010102#32 (withAB 0xC0000000#32 1#32)) = some (0x80000000#32, false, true) := by decide
theorem test_V10_LRSH_R :
    seen (fun t => (t.x, zn t)) (tick 0x05030102#32 (withAB 0x80000000#32 4#32)) = some (0x08000000#32, false, true) := by decide
theorem test_V11_LRSH_R :
    seen (fun t => (t.x, zn t)) (tick 0x05030102#32 (withAB 0x80000000#32 0x80000000#32)) = some (0#32, true, false) := by decide
theorem test_V12_ARSH_R :
    seen (fun t => (t.x, zn t)) (tick 0x06030102#32 (withAB 0x80000000#32 4#32)) = some (0xF8000000#32, false, true) := by decide
theorem test_V13_ARSH_R :
    seen (fun t => (t.x, zn t)) (tick 0x06030102#32 (withAB 0x80000000#32 40#32)) = some (0xFFFFFFFF#32, false, true) := by decide
theorem test_V15_AND_I :
    seen (fun t => (t.a, zn t)) (tick 0x070101FF#32 (withAB 0x12345678#32 0#32)) = some (0x78#32, false, false) := by decide
theorem test_V16_OR_I :
    seen (fun t => (t.b, zn t)) (tick 0x08020080#32 (withAB 0#32 0#32)) = some (0x80#32, false, false) := by decide
theorem test_V17_XOR_I :
    seen (fun t => (t.b, zn t)) (tick 0x090202FF#32 (withAB 0#32 0xFF#32)) = some (0#32, true, false) := by decide
theorem test_V18_LLSH_I :
    seen (fun t => (t.a, zn t)) (tick 0x0A010108#32 (withAB 0x00FFFFFF#32 0#32)) = some (0xFFFFFF00#32, false, true) := by decide
theorem test_V19_ALSH_I :
    seen (fun t => (t.a, zn t)) (tick 0x0B010108#32 (withAB 0x00FFFFFF#32 0#32)) = some (0xFFFFFF00#32, false, true) := by decide
theorem test_V20_LRSH_I :
    seen (fun t => (t.a, zn t)) (tick 0x0C010101#32 (withAB 0xFFFFFFFF#32 0#32)) = some (0x7FFFFFFF#32, false, true) := by decide
theorem test_V23_ARSH_I :
    seen (fun t => (t.a, zn t)) (tick 0x0D010104#32 (withAB 0x00800000#32 0#32)) = some (0x00080000#32, false, false) := by decide
theorem test_V25_ARSH_I :
    seen (fun t => (t.a, zn t)) (tick 0x0D0101FF#32 (withAB 0x80000001#32 0#32)) = some (0xFFFFFFFF#32, false, true) := by decide
theorem test_V26_MOVE :
    seen (fun t => (t.b, zn t)) (tick 0x0E020100#32 (withAB 0x00800000#32 0#32)) = some (0x00800000#32, false, true) := by decide
theorem test_V28_MOVE :
    seen (fun t => (t.a, zn t)) (tick 0x0E0101EE#32 (withAB 5#32 0#32)) = some (5#32, false, false) := by decide
theorem test_V29_NOT_R :
    seen (fun t => (t.a, zn t)) (tick 0x0F010000#32 (withAB 0#32 0#32)) = some (0xFFFFFFFF#32, false, true) := by decide
theorem test_V31_POPCNT :
    seen (fun t => (t.x, zn t)) (tick 0x26030100#32
      { withAB 0xF0F0#32 0#32 with ctrl := ⟨false, false, true, false, false⟩ }) = some (8#32, false, true) := by decide
theorem test_V32_POPCNT :
    seen (fun t => (t.x, zn t)) (tick 0x26030100#32 (withAB 0xFFFFFFFF#32 0#32)) = some (32#32, false, false) := by decide
theorem test_V34_AND_R_r6 :
    stopped (tick 0x00010602#32 State.reset) =
    some (some ⟨.invalidRegister 6#8 .int, 0xF000#32⟩, 0xF004#32, 1) := by decide
theorem test_V40_LOAD_AT_ADDR :
    seen (fun t => (t.b, zn t)) (tick 0x10020100#32
    { withAB 0xFFFF#32 0#32 with mem := ⟨[(0xFFFF, 0x80#8)]⟩ }) = some (0x80#32, false, false) := by decide
theorem test_V42_LOAD_AT_ADDR :
    stopped (tick 0x10020100#32 (withAB 0x10000#32 9#32)) =
    some (some ⟨.memoryOutOfRange 0x10000#32, 0xF000#32⟩, 0xF004#32, 1) := by decide
theorem test_V46_STORE_AT_ADDR :
    seen (fun t => (t.mem.read 0x1FFF, t.mem.read 0x2000, t.mem.read 0x2001))
    (tick 0x11010200#32 (withAB 0x2000#32 0x1234#32)) = some (0#8, 0x34#8, 0#8) := by decide
theorem test_V47_STORE_AT_ADDR_z :
    seen (fun t => t.mem.read 0) (tick 0x11000200#32 (withAB 0#32 0x77#32)) = some 0x77#8 := by decide
theorem test_V49_REG_PUSH :
    seen (fun t => (t.mem.readWord 0xFFFC, t.sp)) (tick 0x2B000001#32
    { withAB 0x11223344#32 0#32 with sp := 0xFFFC#32 }) = some (0x11223344#32, 0x10000#32) := by decide
theorem test_V51_REG_PUSH_sp :
    seen (fun t => (t.mem.readWord 0x3000, t.sp)) (tick 0x2B000004#32
    { State.reset with sp := 0x3000#32 }) = some (0x3000#32, 0x3004#32) := by decide
theorem test_V52_REG_POP :
    seen (fun t => (t.a, t.sp, zn t))
    (tick 0x2C000001#32 (withStack 0x3004#32 0x3000#32 0xDEADBEEF#32)) =
    some (0xDEADBEEF#32, 0x3000#32, false, false) := by decide
theorem test_V57_REG_POP_sp :
    seen (fun t => t.sp) (tick 0x2C000004#32 (withStack 0x3004#32 0x3000#32 0x4000#32)) =
    some 0x3FFC#32 := by decide
theorem test_V60_LD_IM_A :
    seen (fun t => (t.a, zn t)) (tick 0x12FFFFFF#32 (withAB 0#32 0#32)) = some (0x00FFFFFF#32, false, true) := by decide
theorem test_V61_LD_IM_A :
    seen (fun t => (t.a, zn t)) (tick 0x127FFFFF#32 (withAB 0#32 0#32)) = some (0x007FFFFF#32, false, false) := by decide
theorem test_V63_LD_IM_B :
    seen (fun t => (t.b, zn t)) (tick 0x13000000#32 (withAB 0#32 5#32)) = some (0#32, true, false) := by decide
theorem test_V64_LD_IM_X :
    seen (fun t => (t.x, zn t)) (tick 0x14000040#32 (withAB 0#32 0#32)) = some (0x40#32, false, false) := by decide
theorem test_V65_INC_A :
    seen (fun t => (t.a, zn t)) (tick 0x15000000#32 (withAB 0xFFFFFFFF#32 0#32)) = some (0#32, true, false) := by decide
theorem test_V66_INC_B :
    seen (fun t => (t.b, zn t)) (tick 0x16000000#32 (withAB 0#32 0x41#32)) = some (0x42#32, false, false) := by decide
theorem test_V67_INC_X :
    seen (fun t => (t.x, zn t)) (tick 0x17000000#32 { State.reset with x := 0x007FFFFF#32 }) =
    some (0x00800000#32, false, true) := by decide
theorem test_V68_ADD_DSI :
    seen (fun t => (t.a, zn t)) (tick 0x180101FF#32 (withAB 1#32 0#32)) = some (0x100#32, false, false) := by decide
theorem test_V70_SUB_DSI :
    seen (fun t => (t.a, zn t)) (tick 0x19010001#32 (withAB 0#32 0#32)) = some (0xFFFFFFFF#32, false, true) := by decide
theorem test_V73_MULT_DSI :
    seen (fun t => (t.a, zn t)) (tick 0x1A0101FF#32 (withAB 0x01010101#32 0#32)) = some (0xFFFFFFFF#32, false, true) := by decide
theorem test_V74_ADD_DSS :
    seen (fun t => (t.a, zn t)) (tick 0x1B010101#32 (withAB 0x80000000#32 0#32)) = some (0#32, true, false) := by decide
theorem test_V76_SUB_DSS :
    seen (fun t => (t.x, zn t)) (tick 0x1C030102#32 (withAB 3#32 5#32)) = some (0xFFFFFFFE#32, false, true) := by decide
theorem test_V79_MULT_DSS :
    seen (fun t => (t.x, zn t)) (tick 0x1D030102#32 (withAB 0x10000#32 0x10000#32)) = some (0#32, true, false) := by decide
theorem test_V80_MULT_DSS :
    seen (fun t => (t.x, zn t)) (tick 0x1D030102#32 (withAB 0xFFFFFFFF#32 0xFFFFFFFF#32)) = some (1#32, false, false) := by decide
theorem test_V82_SQRT_R_I :
    seen (fun t => (t.a, zn t)) (tick 0x2F000001#32 (withAB 0xFFFFFFFF#32 0#32)) = some (0xFFFF#32, false, false) := by decide
theorem test_V83_SQRT_R_I :
    seen (fun t => (t.a, zn t)) (tick 0x2F000001#32 (withAB 15#32 0#32)) = some (3#32, false, false) := by decide
theorem test_V86_RND_NUM :
    seen (fun t => (t.a, t.prng)) (tick 0x2E000001#32 State.reset) =
    some (Config.prngValue none 0, ⟨none, 1⟩) := rfl
theorem test_V88_RND_SEED_z :
    seen (fun t => t.prng) (tick 0x2D000000#32 State.reset) = some ⟨some 0#32, 0⟩ := by decide
theorem test_V89_RND_SEED_r7 :
    stopped (tick 0x2D000007#32 State.reset) =
    some (some ⟨.invalidRegister 7#8 .int, 0xF000#32⟩, 0xF004#32, 1) := by decide
theorem test_V101_JMP :
    seen (fun t => t.pc) (tick 0x1FFFFFFF#32 (withPc 0xF010#32)) = some 0x00FFFFFF#32 := by decide
theorem test_V102_JMP_WITH_OFFSET :
    seen (fun t => t.pc) (tick 0x21000014#32 (withPc 0xF010#32)) = some 0xF000#32 := by decide
theorem test_V106_JMP_WITH_OFFSET :
    seen (fun t => t.pc) (tick 0x2100F018#32 (withPc 0xF010#32)) = some 0xFFFFFFFC#32 := by decide
theorem test_V107_BNCH :
    seen (fun t => (t.pc, t.ctrl.testTrue)) (tick 0x1E00F000#32 (withTest 0xF020#32 true)) =
    some (0xF000#32, true) := by decide
theorem test_V108_BNCH :
    seen (fun t => t.pc) (tick 0x1E00F000#32 (withTest 0xF020#32 false)) = some 0xF024#32 := by decide
theorem test_V109_BNCH_WITH_OFFSET :
    seen (fun t => t.pc) (tick 0x20000010#32 (withTest 0xF018#32 true)) = some 0xF00C#32 := by decide
theorem test_V110_BNCH_WITH_OFFSET :
    seen (fun t => t.pc) (tick 0x20800004#32 (withTest 0xF024#32 true)) = some 0xF02C#32 := by decide
theorem test_V111_CALL_FN_I :
    seen (fun t => (t.ra, t.pc)) (tick 0x2900F018#32 (withPc 0xF00C#32)) =
    some (0xF010#32, 0xF018#32) := by decide
theorem test_V112_RET :
    seen (fun t => (t.pc, t.ra)) (tick 0x2A000000#32
    { withPc 0xF024#32 with ra := 0xF010#32 }) = some (0xF010#32, 0xF010#32) := by decide
theorem test_V114_HALT :
    seen (fun t => (t.halted, t.pc, t.cycles)) (tick 0x22ABCDEF#32 State.reset) =
    some (true, 0xF004#32, 1) := by decide
theorem test_V115_TEST_EQ :
    seen (fun t => t.ctrl.testTrue) (tick 0x23000102#32 (withAB 7#32 7#32)) = some true := by decide
theorem test_V116_TEST_EQ :
    seen (fun t => t.ctrl.testTrue) (tick 0x23000102#32 (withAB 0x01000005#32 5#32)) = some false := by decide
theorem test_V118_TEST_NEQ :
    seen (fun t => t.ctrl.testTrue) (tick 0x24000103#32 { withAB 4#32 0#32 with x := 5#32 }) =
    some true := by decide
theorem test_V119_TEST_NEQ :
    seen (fun t => t.ctrl.testTrue) (tick 0x24000101#32 ((withAB 4#32 0#32).setTest true)) =
    some false := by decide
theorem test_V121_TEST_CTRL_NEG :
    seen (fun t => (t.ctrl.testTrue, t.ctrl.negative)) (tick 0x25000000#32
    { State.reset with ctrl := ⟨false, false, true, false, false⟩ }) = some (true, true) := by decide
theorem test_V122_EXT_INSTR :
    seen (fun t => t.ctrl.extFnc) (tick 0x30000000#32 State.reset) = some true := by decide
theorem test_V123_EXT_INSTR_twice :
    stopped (extTick 0x30000000#32 State.reset) =
    some (some ⟨.unknownOpcode 0x30#8 0x30000000#32, 0xF000#32⟩, 0xF004#32, 1) := by decide
theorem test_V125_unassigned :
    stopped (tick 0xFF123456#32 State.reset) =
    some (some ⟨.unknownOpcode 0xFF#8 0xFF123456#32, 0xF000#32⟩, 0xF004#32, 1) := by decide
theorem test_V127_fetch :
    stopped (step (withPc 0xFFFD#32)) =
    some (some ⟨.memoryOutOfRange 0xFFFD#32, 0xFFFD#32⟩, 0xFFFD#32, 1) := by decide
theorem test_V130_fresh_machine : step State.reset = .fault .zeroRegisterViolation := rfl
theorem test_V140_PRINT_I_R :
    seen (fun t => t.out) (tick 0x27000001#32 (withAB 0x48#32 0#32)) = some [.int 0x48#32] := by decide
theorem test_V142_PUTC_R :
    seen (fun t => t.out) (tick 0x28000001#32 (withAB 0x148#32 0#32)) = some [.char 0x48#8] := by decide
theorem test_V150_FADD_DSI :
    seen (fun t => (t.fb, t.ctrl.extFnc))
    (extTick 0x00020140#32 (withFloats 0x3FF8000000000000#64 0#64)) = some (0x400C000000000000#64, false) := by decide +kernel
theorem test_V151_FSUB_DSI :
    seen (fun t => (t.fb, t.ctrl.extFnc))
    (extTick 0x0102013F#32 (withFloats 0x3FF8000000000000#64 0#64)) = some (0x3FF0000000000000#64, false) := by decide +kernel
theorem test_V152_FMULT_DSI :
    seen (fun t => (t.fb, t.ctrl.extFnc))
    (extTick 0x02020141#32 (withFloats 0x4000000000000000#64 0#64)) = some (0x4030000000000000#64, false) := by decide +kernel
theorem test_V153_FMULT_DSI :
    seen (fun t => (t.fb, t.ctrl.extFnc))
    (extTick 0x020201C0#32 (withFloats 0x4000000000000000#64 0#64)) = some (0xC010000000000000#64, false) := by decide +kernel
theorem test_V155_FADD_DSI :
    seen (fun t => (t.fb, t.ctrl.extFnc))
    (extTick 0x0002017F#32 (withFloats 0#64 0#64)) = some (0x47E0000000000000#64, false) := by decide +kernel
theorem test_V157_FADD_DSS :
    seen (fun t => (t.fx, t.ctrl.extFnc))
    (extTick 0x03030102#32 (withFloats 0x3FB999999999999A#64 0x3FC999999999999A#64)) = some (0x3FD3333333333334#64, false) := by decide +kernel
theorem test_V158_FSUB_DSS :
    seen (fun t => (t.fx, t.ctrl.extFnc))
    (extTick 0x04030101#32 (withFloats 0x4016000000000000#64 0#64)) = some (0#64, false) := by decide +kernel
theorem test_V161_FMULT_DSS :
    seen (fun t => (t.fx, t.ctrl.extFnc))
    (extTick 0x05030101#32 (withFloats 0x6974E718D7D7625A#64 0#64)) = some (0x7FF0000000000000#64, false) := by decide +kernel
theorem test_V163_FSQRT_R_I :
    seen (fun t => (t.fb, t.ctrl.extFnc))
    (extTick 0x06000002#32 (withFloats 0#64 0x4000000000000000#64)) = some (0x3FF6A09E667F3BCD#64, false) := by decide +kernel
theorem test_V169_LOAD_FIM_FA :
    seen (fun t => (t.fa, t.ctrl.extFnc))
    (extTick 0x07BF8000#32 (withFloats 0#64 0#64)) = some (0xBFF0000000000000#64, false) := by decide +kernel
theorem test_V171_LOAD_FIM_FA :
    seen (fun t => (t.fa, t.ctrl.extFnc))
    (extTick 0x07000001#32 (withFloats 0#64 0#64)) = some (0x3720000000000000#64, false) := by decide +kernel
theorem test_V168_LOAD_FIM_FB :
    seen (fun t => (t.fb, t.ctrl.extFnc))
    (extTick 0x083FC000#32 (withFloats 0#64 0#64)) = some (0x3FF8000000000000#64, false) := by decide +kernel
theorem test_V159_FSUB_DSS_inf :
    fsub 0x7FF0000000000000#64 0x7FF0000000000000#64 = .invalid := by decide +kernel
theorem test_V166_FSQRT_R_I_index4 :
    stopped (extTick 0x06000004#32 State.reset) =
    some (some ⟨.invalidRegister 4#8 .float, 0xF000#32⟩, 0xF004#32, 1) := by decide
theorem test_halted_tick :
    seen (fun t => (t.cycles, t.pc)) (step { State.reset with halted := true }) =
    some (1, 0xF000#32) := by decide
theorem test_memory_canonical : ((Memory.mk []).write 5 1#8).write 5 0#8 = Memory.mk [] := by decide
theorem test_S2_jump_offset :
    (jumpOffset 0x000025#24, jumpOffset 0xFFFFFF#24, jumpOffset 0x7FFFFF#24) =
    (-0x25, 0x7FFFFF, -0x7FFFFF) := by decide

/-! ## Witnesses: concrete values that meet the hypotheses of each statement, clause by clause, at the
boundaries of their ranges -/

/-- A running machine at the last fetchable address holding the word. -/
def lastWord (w : Word) : State := (withPc 0xFFFC#32).withFetchWord 32 w.toNat

/-- A numbering other than the default: both tables count down from 0xFF. -/
def downward : Opcodes := ⟨fun o => ~~~Config.opcN o, fun o => ~~~Config.opcX o⟩

theorem downward_injective : downward.Injective := by
  refine ⟨fun o p h => ?_, fun o p h => ?_⟩
  · have h' : Config.opcN o = Config.opcN p := by simpa [downward] using h
    have ho := findNormal_opcN o
    rw [h', findNormal_opcN p] at ho
    exact (Option.some.inj ho).symm
  · have h' : Config.opcX o = Config.opcX p := by simpa [downward] using h
    have ho := findExtended_opcX o
    rw [h', findExtended_opcX p] at ho
    exact (Option.some.inj ho).symm

theorem test_other_numbering : decodeWith downward false 0xDDABCDEF#32 = .ok .halt ∧
    decodeWith downward true 0xF8BF8000#32 = .ok (.loadFimFa 0xBF8000#24) ∧
    decodeWith downward false 0x22000000#32 = .error (.unknownOpcode 0x22#8 0x22000000#32) := by decide

theorem witness_DecodeOfEncodeIsIdentity : ∃ m : Opcodes, m.Injective := ⟨downward, downward_injective⟩

theorem witness_EncodeOfDecodeKeepsEveryField :
    decode false 0x30FFFFFF#32 = .ok .extInstr ∧
    decode true 0x08FFFFFF#32 = .ok (.loadFimFb 0xFFFFFF#24) ∧
    decodeWith downward false 0xCFFFFFFF#32 = .ok .extInstr := by decide

theorem witness_EveryNumberingDecodesItsWords :
    downward.Injective ∧
    encodeWith downward (.testEq 1#8 2#8) = 0xDCAA0102#32 &&& (Instr.testEq 1#8 2#8).fieldMask ∧
    ∀ i : Instr, i.isExtended = true → i.opcodeIn downward ≠ ((0xF6000000#32 : Word) >>> 24).setWidth 8 := by
  refine ⟨downward_injective, by decide, fun i hi => ?_⟩
  cases i <;> first | exact absurd hi Bool.false_ne_true | (simp only [Instr.opcodeIn, downward, Config.opcX]; decide)

theorem witness_JumpOffsetIsSignAndMagnitude :
    2 ^ 23 ≤ (0x800000#24).toNat ∧ (0x7FFFFF#24).toNat < 2 ^ 23 := by decide

theorem witness_StepRunsTheDecodedInstruction :
    Running (lastWord 0x22000000#32) ∧ (lastWord 0x22000000#32).pc.toNat + 3 < Config.memSize ∧
    decode (lastWord 0x22000000#32).ctrl.extFnc
      (composed (lastWord 0x22000000#32).mem (lastWord 0x22000000#32).pc.toNat) = .ok .halt :=
  ⟨⟨rfl, rfl, rfl⟩, by decide, by decide⟩

theorem witness_TickStopsBeforeFetch :
    (State.reset.latch (.unknownOpcode 0xFF#8 0#32) 0xF000#32).fault ≠ none ∧
    State.reset.fault = none ∧ { State.reset with z := 1#32 }.z ≠ 0#32 ∧ State.reset.z = 0#32 ∧
    { State.reset with halted := true }.halted = true := by decide

theorem witness_FetchOutOfRangeFaults :
    (withPc 0xFFFC#32).pc.toNat + 3 < Config.memSize ∧
    Running (withPc 0xFFFD#32) ∧ Config.memSize ≤ (withPc 0xFFFD#32).pc.toNat + 3 :=
  ⟨by decide, ⟨rfl, rfl, rfl⟩, by decide⟩

theorem witness_UnknownOpcodeTick :
    Running (lastWord 0x31000000#32) ∧ (lastWord 0x31000000#32).pc.toNat + 3 < Config.memSize ∧
    0x31 ≤ opcodeOf (composed (lastWord 0x31000000#32).mem (lastWord 0x31000000#32).pc.toNat) ∧
    Running ((lastWord 0x09000000#32).setExt true) ∧
    0x09 ≤ opcodeOf (composed (lastWord 0x09000000#32).mem (lastWord 0x09000000#32).pc.toNat) ∧
    opcodeOf 0x30000000#32 < 0x31 ∧ opcodeOf 0x08000000#32 < 0x09 :=
  ⟨⟨rfl, rfl, rfl⟩, by decide, by decide, ⟨rfl, rfl, rfl⟩, by decide, by decide, by decide⟩

theorem witness_EveryTickCounts :
    (lastWord 0x22000000#32).fault = none ∧ (∃ t, step (lastWord 0x22000000#32) = .next t) ∧
    (withPc 0xFFFD#32).fault = none ∧
    ∃ f l, step (withPc 0xFFFD#32) = .fault f ∧ f.left = some l :=
  ⟨rfl, ⟨_, rfl⟩, rfl, _, _, rfl, rfl⟩

theorem witness_ExtendedModeLastsOneDispatch :
    Running (lastWord 0x30000000#32) ∧ (∃ t, step (lastWord 0x30000000#32) = .next t) ∧
    (∃ f l, step (lastWord 0xFF000000#32) = .fault f ∧ f.left = some l) ∧
    (lastWord 0xFF000000#32).pc.toNat + 3 < Config.memSize ∧
    (∃ f l, step ((withPc 0xFFFD#32).setExt true) = .fault f ∧ f.left = some l) ∧
    Config.memSize ≤ ((withPc 0xFFFD#32).setExt true).pc.toNat + 3 ∧
    (∃ t, step { State.reset with halted := true } = .next t) ∧
    ∃ t, step (State.reset.latch (.unknownOpcode 0xFF#8 0#32) 0xF000#32) = .next t :=
  ⟨⟨rfl, rfl, rfl⟩, ⟨_, rfl⟩, ⟨_, _, rfl, rfl⟩, by decide, ⟨_, _, rfl, rfl⟩, by decide, ⟨_, rfl⟩,
    ⟨_, rfl⟩⟩

theorem witness_RunFatalFaultsArePrecise :
    (∃ f l, step (lastWord 0xFF000000#32) = .fault f ∧ f.left = some l) ∧
    (∃ f l, step (lastWord 0x00060000#32) = .fault f ∧ f.left = some l) ∧
    (∃ f l, step ((lastWord 0x2B000001#32).setX .sp 0xFFFD#32) = .fault f ∧ f.left = some l) ∧
    ∃ f l, step (withPc 0xFFFD#32) = .fault f ∧ f.left = some l :=
  ⟨⟨_, _, rfl, rfl⟩, ⟨_, _, rfl, rfl⟩, ⟨_, _, rfl, rfl⟩, ⟨_, _, rfl, rfl⟩⟩

theorem witness_StepKeepsInvariant :
    Inv (lastWord 0x2B000001#32) ∧ ∃ t, step (lastWord 0x2B000001#32) = .next t :=
  ⟨⟨rfl, rfl, by decide, by decide⟩, ⟨_, rfl⟩⟩

theorem witness_PortsAndFaultsKeepInvariant :
    Inv (lastWord 0xFF000000#32) ∧ (∃ t, loadPort [0x22#8] 0xFFFF#32 (lastWord 0xFF000000#32) = some t) ∧
    ∃ f l, step (lastWord 0xFF000000#32) = .fault f ∧ f.left = some l :=
  ⟨⟨rfl, rfl, by decide, by decide⟩, ⟨_, rfl⟩, ⟨_, _, rfl, rfl⟩⟩

theorem witness_FaultsEndTheRun :
    (∃ f l, step (lastWord 0xFF000000#32) = .fault f ∧ f.left = some l) ∧
    step State.reset = .fault .zeroRegisterViolation :=
  ⟨⟨_, _, rfl, rfl⟩, rfl⟩

theorem witness_LoadPortWritesItsRange :
    State.reset.mem.wf = true ∧ Config.memSize < (0xFFFF#32).toNat + [1#8, 2#8].length ∧
    (0xFFFE#32).toNat + [1#8, 2#8].length ≤ Config.memSize := by decide

theorem witness_ByteAccess :
    (⟨[(0xFFFF, 1#8)]⟩ : Memory).wf = true ∧ (0xFFFF#32).toNat < Config.memSize ∧
    Config.memSize ≤ (0x10000#32).toNat := by decide

theorem witness_WordReadIsBigEndian :
    (0xFFFC#32).toNat + 3 < Config.memSize ∧ Config.memSize ≤ (0xFFFD#32).toNat + 3 := by decide

theorem witness_WordWriteIsBigEndian :
    (⟨[(0xFFFC, 1#8), (0xFFFF, 2#8)]⟩ : Memory).wf = true ∧ (0xFFFC#32).toNat + 3 < Config.memSize ∧
    Config.memSize ≤ (0xFFFD#32).toNat + 3 := by decide

theorem witness_FlagsChangeOnlyByTheirInstructions :
    (∃ t, exec (.popcnt 3#8 1#8) State.reset = .next t) ∧ appliesSetZN (.popcnt 3#8 1#8) = false ∧
    writesTest (.popcnt 3#8 1#8) = false ∧ Instr.popcnt 3#8 1#8 ≠ .extInstr :=
  ⟨⟨_, rfl⟩, rfl, rfl, by decide⟩

theorem witness_StateChangesOnlyByItsInstructions :
    (∃ t, exec .incA State.reset = .next t) ∧ writesX .incA .b = false ∧ writesF .incA .fx = false ∧
    transfers .incA = false ∧ Instr.incA ≠ .halt ∧
    writesPrng .incA = false ∧ writesOut .incA = false ∧ storesToMemory .incA = false ∧
    Instr.incA.isExtended = false ∧ (∃ t, exec (.loadFimFa 0#24) State.reset = .next t) ∧
    (Instr.loadFimFa 0#24).isExtended = true :=
  ⟨⟨_, rfl⟩, rfl, rfl, rfl, by decide, rfl, rfl, rfl, rfl, ⟨_, rfl⟩, rfl⟩

theorem witness_FloatRegistersAreIsolated :
    AgreeButFloats State.reset { State.reset with fa := 1#64, fb := 2#64, fx := 3#64, freeDraws := 7 } :=
  rfl

theorem witness_BitwiseRegisterInstructions :
    opcodeOf 0x00FFFFFF#32 = 0x00 ∧ opcodeOf 0x01000000#32 = 0x01 ∧ opcodeOf 0x02000000#32 = 0x02 ∧
    IReg.ra ≠ .z ∧ firstBadInt [6#8, 7#8, 8#8] = some 6#8 ∧ firstBadInt [5#8, 6#8, 0#8] = some 6#8 ∧
    firstBadInt [0#8, 5#8, 0xFF#8] = some 0xFF#8 := by decide

theorem witness_ShiftRegisterInstructions :
    opcodeOf 0x03000000#32 = 0x03 ∧ opcodeOf 0x04000000#32 = 0x04 ∧ opcodeOf 0x05000000#32 = 0x05 ∧
    opcodeOf 0x06000000#32 = 0x06 ∧ IReg.a ≠ .z ∧ firstBadInt [5#8, 5#8, 6#8] = some 6#8 := by decide

theorem witness_BitwiseImmediateInstructions :
    opcodeOf 0x07000000#32 = 0x07 ∧ opcodeOf 0x08000000#32 = 0x08 ∧ opcodeOf 0x09000000#32 = 0x09 ∧
    IReg.a ≠ .z ∧ firstBadInt [6#8, 0#8] = some 6#8 ∧ firstBadInt [5#8, 6#8] = some 6#8 := by decide

theorem witness_ShiftImmediateInstructions :
    opcodeOf 0x0A000000#32 = 0x0A ∧ opcodeOf 0x0B000000#32 = 0x0B ∧ opcodeOf 0x0C000000#32 = 0x0C ∧
    opcodeOf 0x0D000000#32 = 0x0D ∧ IReg.a ≠ .z ∧ firstBadInt [5#8, 6#8] = some 6#8 := by decide

theorem witness_MoveAndComplement :
    opcodeOf 0x0EFFFFFF#32 = 0x0E ∧ opcodeOf 0x0F000000#32 = 0x0F ∧ IReg.sp ≠ .z ∧
    firstBadInt [5#8, 6#8] = some 6#8 := by decide

theorem witness_PopulationCount :
    opcodeOf 0x26FFFFFF#32 = 0x26 ∧ IReg.a ≠ .z ∧ firstBadInt [6#8, 6#8] = some 6#8 := by decide

theorem witness_ArithmeticImmediateInstructions :
    opcodeOf 0x18000000#32 = 0x18 ∧ opcodeOf 0x19000000#32 = 0x19 ∧ opcodeOf 0x1A000000#32 = 0x1A ∧
    IReg.a ≠ .z ∧ firstBadInt [5#8, 0xFF#8] = some 0xFF#8 := by decide

theorem witness_ArithmeticRegisterInstructions :
    opcodeOf 0x1B000000#32 = 0x1B ∧ opcodeOf 0x1C000000#32 = 0x1C ∧ opcodeOf 0x1D000000#32 = 0x1D ∧
    IReg.a ≠ .z ∧ firstBadInt [5#8, 5#8, 6#8] = some 6#8 := by decide

theorem witness_LoadImmediateInstructions :
    opcodeOf 0x12FFFFFF#32 = 0x12 ∧ opcodeOf 0x13000000#32 = 0x13 ∧ opcodeOf 0x14000000#32 = 0x14 := by
  decide

theorem witness_IncrementInstructions :
    opcodeOf 0x15ABCDEF#32 = 0x15 ∧ opcodeOf 0x16000000#32 = 0x16 ∧ opcodeOf 0x17000000#32 = 0x17 := by
  decide

theorem witness_IntegerSquareRoot :
    opcodeOf 0x2F000000#32 = 0x2F ∧ IReg.a ≠ .z ∧ 6 ≤ (6#8).toNat := by decide

theorem witness_RandomInstructions :
    opcodeOf 0x2D000000#32 = 0x2D ∧ opcodeOf 0x2E000000#32 = 0x2E ∧ IReg.a ≠ .z ∧
    6 ≤ (6#8).toNat := by decide

theorem witness_LoadByteInstruction :
    opcodeOf 0x10000000#32 = 0x10 ∧ IReg.b ≠ .z ∧
    ((withAB 0xFFFF#32 0#32).readX .a).toNat < Config.memSize ∧
    Config.memSize ≤ ((withAB 0x10000#32 0#32).readX .a).toNat ∧
    firstBadInt [0#8, 9#8] = some 9#8 := by decide

theorem witness_StoreByteInstruction :
    opcodeOf 0x11000000#32 = 0x11 ∧ (withAB 0xFFFF#32 0#32).mem.wf = true ∧
    ((withAB 0xFFFF#32 0#32).readX .a).toNat < Config.memSize ∧
    (State.reset.readX .z).toNat < Config.memSize ∧
    Config.memSize ≤ ((withAB 0x10000#32 0#32).readX .a).toNat ∧
    firstBadInt [6#8, 0#8] = some 6#8 := by decide

theorem witness_PushInstruction :
    opcodeOf 0x2B000000#32 = 0x2B ∧ (withStack 0xFFFC#32 0#32 1#32).mem.wf = true ∧
    (withStack 0xFFFC#32 0#32 1#32).sp.toNat + 3 < Config.memSize ∧
    Config.memSize ≤ (withStack 0xFFFD#32 0#32 1#32).sp.toNat + 3 ∧ 6 ≤ (6#8).toNat := by decide

theorem witness_PopInstruction :
    opcodeOf 0x2C000000#32 = 0x2C ∧ IReg.a ≠ .z ∧ IReg.a ≠ .sp ∧ IReg.sp ≠ .z ∧
    ((withStack 0x10000#32 0#32 1#32).sp - 4#32).toNat + 3 < Config.memSize ∧
    ((withStack 4#32 0#32 1#32).sp - 4#32).toNat + 3 < Config.memSize ∧
    Config.memSize ≤ ((withStack 3#32 0#32 1#32).sp - 4#32).toNat + 3 ∧
    Config.memSize ≤ ((withStack 0x10001#32 0#32 1#32).sp - 4#32).toNat + 3 ∧
    6 ≤ (6#8).toNat := by decide

theorem witness_PushThenPopRestores :
    IReg.ra ≠ .z ∧ IReg.ra ≠ .sp ∧ (withStack 0xFFFC#32 0#32 1#32).mem.wf = true ∧
    (withStack 0xFFFC#32 0#32 1#32).sp.toNat + 3 < Config.memSize := by decide

theorem witness_JumpInstructions :
    opcodeOf 0x1FFFFFFF#32 = 0x1F ∧ opcodeOf 0x21FFFFFF#32 = 0x21 := by decide

theorem witness_BranchInstructions :
    opcodeOf 0x1EFFFFFF#32 = 0x1E ∧ opcodeOf 0x20FFFFFF#32 = 0x20 ∧
    (withTest 0xF000#32 true).ctrl.testTrue = true ∧ (withTest 0xF000#32 false).ctrl.testTrue = false := by
  decide

theorem witness_CallAndReturn : opcodeOf 0x29FFFFFF#32 = 0x29 ∧ opcodeOf 0x2AABCDEF#32 = 0x2A := by
  decide

theorem witness_HaltAndExtendedPrefix :
    opcodeOf 0x22ABCDEF#32 = 0x22 ∧ opcodeOf 0x30000000#32 = 0x30 ∧ State.reset.fault = none ∧
    State.reset.z = 0#32 := by decide

theorem witness_TestInstructions :
    opcodeOf 0x23FF0000#32 = 0x23 ∧ opcodeOf 0x24000000#32 = 0x24 ∧ opcodeOf 0x25FFFFFF#32 = 0x25 ∧
    firstBadInt [5#8, 6#8] = some 6#8 := by decide

theorem witness_OutputInstructions :
    opcodeOf 0x27FFFF00#32 = 0x27 ∧ opcodeOf 0x28000000#32 = 0x28 ∧ 6 ≤ (6#8).toNat := by decide

theorem witness_FloatImmediateInstructions :
    opcodeOf 0x00020140#32 = 0x00 ∧ opcodeOf 0x01000000#32 = 0x01 ∧ opcodeOf 0x02000000#32 = 0x02 ∧
    FReg.fx ≠ .f0 ∧ firstBadFloat [3#8, 4#8] = some 4#8 := by decide

theorem witness_FloatRegisterInstructions :
    opcodeOf 0x03000000#32 = 0x03 ∧ opcodeOf 0x04000000#32 = 0x04 ∧ opcodeOf 0x05000000#32 = 0x05 ∧
    FReg.fa ≠ .f0 ∧ firstBadFloat [0#8, 3#8, 5#8] = some 5#8 := by decide

theorem witness_FloatSquareRootInstruction :
    opcodeOf 0x06000000#32 = 0x06 ∧ FReg.fb ≠ .f0 ∧ 4 ≤ (4#8).toNat := by decide

theorem witness_FloatLoadInstructions :
    opcodeOf 0x07FFFFFF#32 = 0x07 ∧ opcodeOf 0x08FFFFFF#32 = 0x08 := by decide

/-- An infinity, a NaN, the largest subnormal and the largest finite value. -/
theorem witness_WideningIsExact :
    (0xFF800000#32).toNat / 2 ^ 23 % 256 = 255 ∧ (0xFF800000#32).toNat % 2 ^ 23 = 0 ∧
    (0x7F800001#32).toNat / 2 ^ 23 % 256 = 255 ∧ (0x7F800001#32).toNat % 2 ^ 23 ≠ 0 ∧
    (0x807FFFFF#32).toNat / 2 ^ 23 % 256 = 0 ∧ (0x7F7FFFFF#32).toNat / 2 ^ 23 % 256 = 254 := by decide

/-- Two finite values, two whose sum is an exact zero, and two whose sum overflows. -/
theorem witness_FloatSumIsCorrectlyRounded :
    isFinite 0x000FFFFFFFFFFFFF#64 = true ∧ isFinite 0x7FEFFFFFFFFFFFFF#64 = true ∧
    isFinite 0x8000000000000000#64 = true ∧ f64Int 0#64 + f64Int 0x8000000000000000#64 = 0 ∧
    overflowAt ≤ (units 0x7FEFFFFFFFFFFFFF#64 + units 0x7FEFFFFFFFFFFFFF#64).natAbs ∧
    (units 0#64 + units 1#64).natAbs < overflowAt := by decide +kernel

theorem witness_FloatProductIsCorrectlyRounded :
    isFinite 1#64 = true ∧ isFinite 0xFFEFFFFFFFFFFFFF#64 = true ∧
    overflowAt ≤ (f64Int 0xFFEFFFFFFFFFFFFF#64 * f64Int 0xFFEFFFFFFFFFFFFF#64).natAbs ∧
    (f64Int 1#64 * f64Int 1#64).natAbs < overflowAt := by decide +kernel

theorem witness_FloatRootIsCorrectlyRounded :
    isFinite 1#64 = true ∧ isZero 1#64 = false ∧ f64Sign 1#64 = false ∧
    isFinite 0x7FEFFFFFFFFFFFFF#64 = true ∧ f64Mag 0#64 < f64Mag 1#64 := by decide +kernel

theorem witness_FloatSpecialValues :
    isNaN 0x7FF0000000000001#64 = true ∧ isInf 0xFFF0000000000000#64 = true ∧
    f64Sign 0xFFF0000000000000#64 = true ∧ isInf 0x7FF0000000000000#64 = true ∧
    f64Sign 0x7FF0000000000000#64 = false ∧ isFinite 0x7FEFFFFFFFFFFFFF#64 = true ∧
    isZero 0x8000000000000000#64 = true ∧ isNaN 1#64 = false ∧ isZero 1#64 = false ∧
    isNaN 0x8000000000000001#64 = false ∧ isZero 0x8000000000000001#64 = false ∧
    f64Sign 0x8000000000000001#64 = true := by decide

end Sys2Proof.Tests
end

section
/-! PROOF. Decoding and encoding under every numbering of the opcode tables (00_scope.md R7,
30_encoding.md R91 to R107): what each table's instruction is, the two round trips, and the two obligations
about them. The case splits group the instructions by the formats of R92 to R97. -/
namespace Sys2Proof

/-! ## The instruction of a table's operation -/

@[simp] theorem isExtended_normalInstr (w : Word) (o : NormalOp) : (normalInstr w o).isExtended = false := by
  cases o <;> rfl

@[simp] theorem isExtended_extendedInstr (w : Word) (o : ExtendedOp) :
    (extendedInstr w o).isExtended = true := by
  cases o <;> rfl

@[simp] theorem opcodeIn_normalInstr (m : Opcodes) (w : Word) (o : NormalOp) :
    (normalInstr w o).opcodeIn m = m.normal o := by
  cases o <;> rfl

@[simp] theorem opcodeIn_extendedInstr (m : Opcodes) (w : Word) (o : ExtendedOp) :
    (extendedInstr w o).opcodeIn m = m.extended o := by
  cases o <;> rfl

/-- Which bits are ignored is a matter of the operation alone (30_encoding.md R103). -/
theorem fieldMask_normalInstr (v w : Word) (o : NormalOp) :
    (normalInstr v o).fieldMask = (normalInstr w o).fieldMask := by
  cases o <;> rfl

theorem fieldMask_extendedInstr (v w : Word) (o : ExtendedOp) :
    (extendedInstr v o).fieldMask = (extendedInstr w o).fieldMask := by
  cases o <;> rfl

/-! ## The opcode byte -/

theorem byte31_eq_shift (w : Word) : byte31 w = (w >>> 24).setWidth 8 :=
  BitVec.setWidth_ushiftRight_eq_extractLsb.symm

/-- No format ignores a bit of the opcode byte (30_encoding.md R91). -/
theorem byte31_and_fieldMask (w : Word) (i : Instr) : byte31 (w &&& i.fieldMask) = byte31 w := by
  have hmask : byte31 i.fieldMask = BitVec.allOnes 8 := by cases i <;> simp [Instr.fieldMask, byte31]
  calc byte31 (w &&& i.fieldMask) = byte31 w &&& byte31 i.fieldMask := BitVec.extractLsb'_and
    _ = byte31 w := by rw [hmask, BitVec.and_allOnes]

/-! ## What decodes to what -/

theorem decodeNormal_eq_ok {m : Opcodes} {w : Word} {i : Instr} :
    decodeNormal m w = .ok i ↔ ∃ o, m.findNormal (byte31 w) = some o ∧ normalInstr w o = i := by
  cases h : m.findNormal (byte31 w) <;> simp [decodeNormal, h]

theorem decodeExtended_eq_ok {m : Opcodes} {w : Word} {i : Instr} :
    decodeExtended m w = .ok i ↔ ∃ o, m.findExtended (byte31 w) = some o ∧ extendedInstr w o = i := by
  cases h : m.findExtended (byte31 w) <;> simp [decodeExtended, h]

theorem decodeWith_normal {m : Opcodes} (hm : m.Injective) {w : Word} {o : NormalOp}
    (h : byte31 w = m.normal o) : decodeWith m false w = .ok (normalInstr w o) :=
  decodeNormal_eq_ok.2 ⟨o, h ▸ findNormal_normal hm o, rfl⟩

theorem decodeWith_extended {m : Opcodes} (hm : m.Injective) {w : Word} {o : ExtendedOp}
    (h : byte31 w = m.extended o) : decodeWith m true w = .ok (extendedInstr w o) :=
  decodeExtended_eq_ok.2 ⟨o, h ▸ findExtended_extended hm o, rfl⟩

/-- Whether a word decodes, and in which format, is decided by its opcode byte (30_encoding.md R91, R102). -/
theorem decodeWith_ok_of_byte31_eq {m : Opcodes} {ext : Bool} {v w : Word} {i : Instr}
    (hb : byte31 w = byte31 v) (hv : decodeWith m ext v = .ok i) :
    ∃ j, decodeWith m ext w = .ok j ∧ j.fieldMask = i.fieldMask := by
  cases ext with
  | false =>
    obtain ⟨o, ho, rfl⟩ := decodeNormal_eq_ok.1 hv
    exact ⟨_, decodeNormal_eq_ok.2 ⟨o, hb ▸ ho, rfl⟩, fieldMask_normalInstr w v o⟩
  | true =>
    obtain ⟨o, ho, rfl⟩ := decodeExtended_eq_ok.1 hv
    exact ⟨_, decodeExtended_eq_ok.2 ⟨o, hb ▸ ho, rfl⟩, fieldMask_extendedInstr w v o⟩

/-- A word whose opcode byte no instruction of the table has is refused (30_encoding.md R107). -/
theorem decodeWith_unassigned {m : Opcodes} {ext : Bool} {w : Word}
    (h : ∀ i : Instr, i.isExtended = ext → i.opcodeIn m ≠ byte31 w) :
    decodeWith m ext w = .error (unassigned w) := by
  cases ext with
  | false =>
    have hnone : m.findNormal (byte31 w) = none := findNormal_eq_none.2 fun o =>
      opcodeIn_normalInstr m w o ▸ h _ (isExtended_normalInstr w o)
    simp [decodeWith, decodeNormal, hnone]
  | true =>
    have hnone : m.findExtended (byte31 w) = none := findExtended_eq_none.2 fun o =>
      opcodeIn_extendedInstr m w o ▸ h _ (isExtended_extendedInstr w o)
    simp [decodeWith, decodeExtended, hnone]

/-! ## Encoding what was decoded -/

section Formats
variable {o : Byte} {w : Word} (h : o = byte31 w)
include h

/-- The word of a DSS or DSI instruction (30_encoding.md R92, R93): no bit is ignored. -/
theorem encode_three_fields : packThree o (byte23 w) (byte15 w) (byte7 w) = w &&& 0xFFFFFFFF#32 := by
  rw [h, packThree_bytes]; exact BitVec.and_allOnes.symm

/-- The word of a LIT24 instruction (30_encoding.md R96): no bit is ignored. -/
theorem encode_literal : packLit o (lit24 w) = w &&& 0xFFFFFFFF#32 := by
  rw [h, packLit_bytes]; exact BitVec.and_allOnes.symm

theorem encode_ds : packThree o (byte23 w) (byte15 w) 0#8 = w &&& 0xFFFFFF00#32 := h ▸ packThree_ds w

theorem encode_pair : packThree o 0#8 (byte15 w) (byte7 w) = w &&& 0xFF00FFFF#32 := h ▸ packThree_pair w

theorem encode_single : packThree o 0#8 0#8 (byte7 w) = w &&& 0xFF0000FF#32 := h ▸ packThree_single w

theorem encode_no_field : packLit o 0#24 = w &&& 0xFF000000#32 := h ▸ packLit_none w

end Formats

/-- One case per format: the fields read from the word are put back where they stood. -/
theorem encodeWith_normalInstr {m : Opcodes} {w : Word} {o : NormalOp} (h : m.normal o = byte31 w) :
    encodeWith m (normalInstr w o) = w &&& (normalInstr w o).fieldMask := by
  cases o with
  | andR | orR | xorR | llshR | alshR | lrshR | arshR | andI | orI | xorI | llshI | alshI | lrshI | arshI
  | addDsi | subDsi | multDsi | addDss | subDss | multDss => exact encode_three_fields h
  | ldImA | ldImB | ldImX | bnch | jmp | bnchWithOffset | jmpWithOffset | callFnI => exact encode_literal h
  | move | notR | loadAtAddr | storeAtAddr | popcnt => exact encode_ds h
  | testEq | testNeq => exact encode_pair h
  | printIR | putcR | regPush | regPop | rndSeed | rndNum | sqrtRI => exact encode_single h
  | incA | incB | incX | halt | testCtrlNeg | ret | extInstr => exact encode_no_field h

theorem encodeWith_extendedInstr {m : Opcodes} {w : Word} {o : ExtendedOp} (h : m.extended o = byte31 w) :
    encodeWith m (extendedInstr w o) = w &&& (extendedInstr w o).fieldMask := by
  cases o with
  | faddDsi | fsubDsi | fmultDsi | faddDss | fsubDss | fmultDss => exact encode_three_fields h
  | loadFimFa | loadFimFb => exact encode_literal h
  | fsqrtRI => exact encode_single h

/-- The instruction a word decodes to is of the table asked for, and its encoding is the word without its
ignored bits. -/
theorem encodeWith_of_decodeWith {m : Opcodes} {ext : Bool} {w : Word} {i : Instr}
    (h : decodeWith m ext w = .ok i) : i.isExtended = ext ∧ encodeWith m i = w &&& i.fieldMask := by
  cases ext with
  | false =>
    obtain ⟨o, ho, rfl⟩ := decodeNormal_eq_ok.1 h
    exact ⟨isExtended_normalInstr w o, encodeWith_normalInstr (normal_of_find ho)⟩
  | true =>
    obtain ⟨o, ho, rfl⟩ := decodeExtended_eq_ok.1 h
    exact ⟨isExtended_extendedInstr w o, encodeWith_extendedInstr (extended_of_find ho)⟩

/-! ## Decoding what was encoded -/

/-- The bytes of a packed word give the operation back by injectivity, and its fields give the operands. -/
theorem decodeWith_encodeWith {m : Opcodes} (hm : m.Injective) (i : Instr) :
    decodeWith m i.isExtended (encodeWith m i) = .ok i := by
  cases i with
  | andR | orR | xorR | llshR | alshR | lrshR | arshR | andI | orI | xorI | llshI | alshI | lrshI | arshI
  | addDsi | subDsi | multDsi | addDss | subDss | multDss
  | move | notR | loadAtAddr | storeAtAddr | popcnt | testEq | testNeq
  | printIR | putcR | regPush | regPop | rndSeed | rndNum | sqrtRI =>
    exact (decodeWith_normal hm (byte31_packThree _ _ _ _)).trans (by simp [normalInstr])
  | ldImA | ldImB | ldImX | bnch | jmp | bnchWithOffset | jmpWithOffset | callFnI
  | incA | incB | incX | halt | testCtrlNeg | ret | extInstr =>
    exact (decodeWith_normal hm (byte31_packLit _ _)).trans (by simp [normalInstr])
  | faddDsi | fsubDsi | fmultDsi | faddDss | fsubDss | fmultDss | fsqrtRI =>
    exact (decodeWith_extended hm (byte31_packThree _ _ _ _)).trans (by simp [extendedInstr])
  | loadFimFa | loadFimFb =>
    exact (decodeWith_extended hm (byte31_packLit _ _)).trans (by simp [extendedInstr])

/-- In its own table an instruction is determined by its encoding. -/
theorem encodeWith_injective {m : Opcodes} (hm : m.Injective) {i j : Instr}
    (hext : j.isExtended = i.isExtended) (henc : encodeWith m j = encodeWith m i) : j = i := by
  have hj := decodeWith_encodeWith hm j
  rw [hext, henc, decodeWith_encodeWith hm i] at hj
  exact (Except.ok.inj hj).symm

/-- A word that agrees with the encoding of `i` on the bits that are not ignored decodes to `i`: it decodes to
some `j` of the same format, and `j` has the encoding of `i`. -/
theorem decodeWith_of_agrees {m : Opcodes} (hm : m.Injective) {w : Word} {i : Instr}
    (h : encodeWith m i = w &&& i.fieldMask) : decodeWith m i.isExtended w = .ok i := by
  have hb : byte31 w = byte31 (encodeWith m i) := by rw [h, byte31_and_fieldMask]
  obtain ⟨j, hj, hmask⟩ := decodeWith_ok_of_byte31_eq hb (decodeWith_encodeWith hm i)
  obtain ⟨hext, henc⟩ := encodeWith_of_decodeWith hj
  have hji : j = i := encodeWith_injective hm hext (by rw [henc, hmask, h])
  exact hji ▸ hj

/-! ## The obligations -/

/-- Settles O2, by the round trip of each table's operations. -/
theorem encodeOfDecodeKeepsEveryField : Obligations.EncodeOfDecodeKeepsEveryField :=
  ⟨fun _ _ _ _ h => encodeWith_of_decodeWith h, fun _ _ _ h => encodeWith_of_decodeWith h⟩

/-- Settles O60: the first half from the two round trips, the second from what finds no operation. -/
theorem everyNumberingDecodesItsWords : Obligations.EveryNumberingDecodesItsWords := by
  refine ⟨fun m w i hm h => decodeWith_of_agrees hm h, fun m ext w h => ?_⟩
  rw [← byte31_eq_shift] at h ⊢
  exact decodeWith_unassigned h

end Sys2Proof
end

section
/-! PROOF. What each shape of an instruction's next state (`Effect`) leaves unchanged, and the three
obligations on the machine's state: the invariant after construction and across a tick, and which
instruction changes which register, latch or memory (10_state.md R22 to R47, 20_memory.md R60, R61). -/
namespace Sys2Proof.Machine
open Sys2Proof Sys2Proof.Safety

/-! ## Register reads through the updates that Laws/State.lean has no name for -/

@[simp] theorem State.readX_withHalted (s : State) (b : Bool) (r : IReg) :
    State.readX { s with halted := b } r = s.readX r := by
  cases r <;> rfl

@[simp] theorem State.readF_withHalted (s : State) (b : Bool) (r : FReg) :
    State.readF { s with halted := b } r = s.readF r := by
  cases r <;> rfl

theorem State.readF_withFreeDraws (s : State) (n : Nat) (r : FReg) :
    State.readF { s with freeDraws := n } r = s.readF r := by
  cases r <;> rfl

theorem OnlyFloats.sameX {s t : State} (h : OnlyFloats s t) : SameX s t := by
  obtain ⟨_, _, _, _, rfl⟩ := h
  intro r
  cases r <;> rfl

theorem OnlyFloats.ctrl_eq {s t : State} (h : OnlyFloats s t) : t.ctrl = s.ctrl := by
  obtain ⟨_, _, _, _, rfl⟩ := h
  rfl

/-! ## What an effect leaves unchanged -/

namespace Effect

variable {i : Instr} {s t : State}

/-- No instruction writes `z`, CARRY, the tick counter or the fault latch (10_state.md R22, R33, R40, R43). -/
theorem z_carry_cycles_fault_eq (h : Effect i s t) :
    t.z = s.z ∧ t.ctrl.carry = s.ctrl.carry ∧ t.cycles = s.cycles ∧ t.fault = s.fault := by
  cases h <;> simp

/-- Memory is as before, or a storing instruction wrote it through an access primitive (20_memory.md R60). -/
theorem mem_cases (h : Effect i s t) :
    t.mem = s.mem ∨ storesToMemory i = true ∧
      ((∃ addr v, memWrite1 s.mem addr v = .ok t.mem) ∨ ∃ addr v, memWrite4 s.mem addr v = .ok t.mem) := by
  cases h with
  | store addr v m hi _ hm => exact .inr ⟨hi, .inl ⟨addr, v, hm⟩⟩
  | push v m hi _ _ hm => exact .inr ⟨hi, .inr ⟨s.sp, v, by simpa using hm⟩⟩
  | _ => exact .inl (by simp)

theorem mem_eq (h : Effect i s t) (hi : storesToMemory i = false) : t.mem = s.mem :=
  h.mem_cases.resolve_right fun hw => by simp [hi] at hw

theorem mem_wf (h : Effect i s t) (hs : s.mem.wf = true) : t.mem.wf = true := by
  obtain heq | ⟨-, ⟨_, _, hw⟩ | ⟨_, _, hw⟩⟩ := h.mem_cases
  · rwa [heq]
  · exact memWrite1_wf _ _ _ _ hs hw
  · exact memWrite4_wf _ _ _ _ hs hw

theorem mem_bounded (h : Effect i s t) (hs : s.mem.bounded = true) : t.mem.bounded = true := by
  obtain heq | ⟨-, ⟨_, _, hw⟩ | ⟨_, _, hw⟩⟩ := h.mem_cases
  · rwa [heq]
  · exact memWrite1_bounded _ _ _ _ hs hw
  · exact memWrite4_bounded _ _ _ _ hs hw

theorem pc_eq (h : Effect i s t) (hi : transfers i = false) : t.pc = s.pc := by
  cases h with
  | jump _ hj | call _ hj => simp [hi] at hj
  | _ => simp

theorem halted_eq (h : Effect i s t) (hi : i ≠ .halt) : t.halted = s.halted := by
  cases h with
  | halt hh => exact absurd hh hi
  | _ => simp

theorem prng_eq (h : Effect i s t) (hi : writesPrng i = false) : t.prng = s.prng := by
  cases h with
  | seed _ hw => simp [hi] at hw
  | random _ _ _ hk => subst hk; simp [writesPrng] at hi
  | _ => simp

theorem out_eq (h : Effect i s t) (hi : writesOut i = false) : t.out = s.out := by
  cases h with
  | output _ hw => simp [hi] at hw
  | _ => simp

/-- An extended instruction writes float registers and nothing else: every other shape belongs to normal
instructions (46_extended_float.md R271, R273). -/
theorem onlyFloats (h : Effect i s t) (hi : i.isExtended = true) : OnlyFloats s t := by
  cases h with
  | float d v n => exact .of_set s d v n
  | random _ _ _ hk | halt hk | prefixed hk => subst hk; simp [Instr.isExtended] at hi
  | _ => simp_all

/-- An integer register changes only if the instruction writes it (10_state.md R47). -/
theorem readX_eq (h : Effect i s t) {r : IReg} (hr : writesX i r = false) : t.readX r = s.readX r := by
  have ne_of_written {d : IReg} (hd : writesX i d = true) : r ≠ d := by
    rintro rfl
    simp [hr] at hd
  cases h with
  | intResult d v _ _ hd | random _ d v _ hd | register d v _ hd => simp [ne_of_written hd]
  | pop d v _ hd hsp => simp [ne_of_written hd, ne_of_written hsp]
  | call v _ _ hra => simp [ne_of_written hra]
  | push v m _ _ hsp => simp [ne_of_written hsp]
  | float d v n => exact (OnlyFloats.of_set s d v n).sameX r
  | _ => simp

/-- A float register changes only if the instruction writes it (10_state.md R47). -/
theorem readF_eq (h : Effect i s t) {r : FReg} (hr : writesF i r = false) : t.readF r = s.readF r := by
  cases h with
  | float d v n _ hd =>
    have hne : r ≠ d := by
      rintro rfl
      simp [hr] at hd
    exact (State.readF_withFreeDraws _ n r).trans (State.setF_readF_ne s d r v hne)
  | _ => simp

end Effect

/-- A normal instruction writes no float register (46_extended_float.md R273). -/
theorem writesF_of_normal {i : Instr} (hi : i.isExtended = false) (r : FReg) : writesF i r = false := by
  cases i with
  | faddDsi | fsubDsi | fmultDsi | faddDss | fsubDss | fmultDss | fsqrtRI | loadFimFa | loadFimFb =>
    simp [Instr.isExtended] at hi
  | _ => rfl

/-! ## The invariant -/

theorem inv_countTick {s : State} (h : Inv s) : Inv s.countTick := h

theorem inv_beginDispatch {s : State} (h : Inv s) : Inv s.beginDispatch := h

/-- Every instruction keeps the invariant. -/
theorem Effect.keeps_inv {i : Instr} {s t : State} (h : Effect i s t) (hs : Inv s) : Inv t := by
  obtain ⟨hz, hcarry, hwf, hbounded⟩ := hs
  obtain ⟨hz', hcarry', -, -⟩ := h.z_carry_cycles_fault_eq
  exact ⟨hz'.trans hz, hcarry'.trans hcarry, h.mem_wf hwf, h.mem_bounded hbounded⟩

/-- What a tick that answers a next state did: nothing on a faulted machine, only the count on a halted one,
else an instruction after the count and the advance of `pc` (40_sequencer.md R131, R134, R146). -/
theorem step_next_cases {s t : State} (h : step s = .next t) :
    t = s ∨ t = s.countTick ∨ ∃ i, exec i s.countTick.beginDispatch = .next t := by
  obtain ⟨_, hs⟩ | ⟨_, _, hs⟩ | ⟨_, _, _, hs⟩ | ⟨_, _, _, _, hs⟩ | ⟨_, _, _, _, _, _, _, hs⟩ |
    ⟨_, _, _, _, i, _, hs⟩ := step_cases s <;> rw [hs] at h
  · exact .inl (Host.Outcome.next.inj h).symm
  · cases h
  · exact .inr (.inl (Host.Outcome.next.inj h).symm)
  · exact absurd h (raise_not_next _ _ _ _)
  · exact absurd h (raise_not_next _ _ _ _)
  · exact .inr (.inr ⟨i, h⟩)

/-! ## The obligations -/

/-- Settles O15: construction clears `z` and CARRY and lists no memory cell. -/
theorem resetHasInvariant : Obligations.ResetHasInvariant :=
  ⟨rfl, rfl, reset_mem_wf, reset_mem_bounded⟩

/-- Settles O14: the parts of a tick before the instruction keep the invariant, and so does every effect. -/
theorem stepKeepsInvariant : Obligations.StepKeepsInvariant := by
  intro s t hs h
  obtain rfl | rfl | ⟨i, hexec⟩ := step_next_cases h
  · exact hs
  · exact inv_countTick hs
  · exact (exec_effect i _ t hexec).keeps_inv (inv_beginDispatch (inv_countTick hs))

/-- Settles O26: an instruction's next state is one of the effects, and each effect has every frame. -/
theorem stateChangesOnlyByItsInstructions : Obligations.StateChangesOnlyByItsInstructions := by
  intro i s t h
  have he : Effect i s t := exec_effect i s t h
  obtain ⟨hz, -, hcycles, hfault⟩ := he.z_carry_cycles_fault_eq
  exact ⟨fun _ => he.readX_eq, fun _ => he.readF_eq, he.pc_eq, he.halted_eq, hcycles, hfault, hz,
    he.prng_eq, he.out_eq, he.mem_eq, fun hi r => he.readF_eq (writesF_of_normal hi r),
    fun hi => ⟨(he.onlyFloats hi).sameX, (he.onlyFloats hi).ctrl_eq⟩⟩

end Sys2Proof.Machine
end

section
/-! PROOF. Memory access (20_memory.md R61 to R71): the big-endian word as shifts of its bytes, what the word
write and the LOAD port leave in each cell, and the four obligations about them. -/
namespace Sys2Proof.Machine
open Sys2Proof Sys2Proof.Claims

/-! ## Words and their bytes -/

/-- The four bytes of a word occupy disjoint bit ranges, the first the highest (20_memory.md R71). -/
theorem wordOfBytes_eq_shifts (b0 b1 b2 b3 : Byte) : wordOfBytes b0 b1 b2 b3 =
    (b0.setWidth 32 <<< 24) ||| (b1.setWidth 32 <<< 16) ||| (b2.setWidth 32 <<< 8) ||| b3.setWidth 32 := by
  apply BitVec.eq_of_getLsbD_eq
  intro i hi
  refine (packThree_bit b0 b1 b2 b3 i).trans ?_
  have beyond {b : Byte} {k : Nat} (hk : 8 ≤ k) : b.getLsbD k = false := BitVec.getLsbD_of_ge b k hk
  simp only [BitVec.getLsbD_or, BitVec.getLsbD_shiftLeft, BitVec.getLsbD_setWidth]
  by_cases h8 : i < 8
  · simp [hi, h8, show i < 16 by omega, show i < 24 by omega]
  · by_cases h16 : i < 16
    · simp [hi, h8, h16, show i < 24 by omega, show i - 8 < 32 by omega, beyond (show 8 ≤ i by omega)]
    · by_cases h24 : i < 24
      · simp [hi, h8, h16, h24, show i - 16 < 32 by omega, beyond (show 8 ≤ i by omega),
          beyond (show 8 ≤ i - 8 by omega)]
      · simp [hi, h8, h16, h24, show i - 24 < 32 by omega, beyond (show 8 ≤ i by omega),
          beyond (show 8 ≤ i - 8 by omega), beyond (show 8 ≤ i - 16 by omega)]

theorem Memory.readWord_eq_composed (m : Memory) (n : Nat) : m.readWord n = composed m n :=
  wordOfBytes_eq_shifts _ _ _ _

/-- Byte `i` of a word in memory order is the word shifted right by the bytes after it. -/
theorem bytesOfWord_eq_shifts (v : Word) : bytesOfWord v =
    [(v >>> 24).setWidth 8, (v >>> 16).setWidth 8, (v >>> 8).setWidth 8, v.setWidth 8] := by
  simp only [bytesOfWord, byte31, byte23, byte15, byte7, BitVec.setWidth_ushiftRight_eq_extractLsb]
  rw [BitVec.setWidth_eq_extractLsb' (show 8 ≤ 32 by decide)]

/-- The bytes of a word, written from `n` on, are the word at `n` (20_memory.md R66). -/
theorem Memory.holdsWordAt_writeList {m : Memory} (hm : m.wf = true) (n : Nat) (v : Word) :
    HoldsWordAt m (m.writeList n (bytesOfWord v)) n v := by
  rw [bytesOfWord_eq_shifts]
  have written (i : Nat) := Memory.read_writeList_in
    [(v >>> 24).setWidth 8, (v >>> 16).setWidth 8, (v >>> 8).setWidth 8, v.setWidth 8] m n i hm
  exact ⟨written 0 (by simp), written 1 (by simp), written 2 (by simp), written 3 (by simp),
    fun k hk => Memory.read_writeList_out _ m n k hk⟩

/-! ## The LOAD port -/

theorem loadPort_eq_none {bytes : List Byte} {start : Word} (s : State)
    (h : Config.memSize < start.toNat + bytes.length) : loadPort bytes start s = none := by
  simp [loadPort, bulkWrite, Nat.not_le.2 h]

theorem loadPort_eq_some {bytes : List Byte} {start : Word} (s : State)
    (h : start.toNat + bytes.length ≤ Config.memSize) :
    loadPort bytes start s = some (s.setMem (s.mem.writeList start.toNat bytes)) := by
  simp [loadPort, bulkWrite, h]

/-! ## The obligations -/

/-- Settles O20: the bytes that fit are written in turn from `start` on. -/
theorem loadPortWritesItsRange : Obligations.LoadPortWritesItsRange := fun bytes start s hwf =>
  ⟨loadPort_eq_none s, fun hfits => ⟨s.mem.writeList start.toNat bytes, loadPort_eq_some s hfits,
    fun i hi => Memory.read_writeList_in bytes s.mem _ i hwf hi,
    Memory.read_writeList_out bytes s.mem _⟩⟩

/-- Settles O21, by the rules of one cell. -/
theorem byteAccess : Obligations.ByteAccess := fun m addr v hwf =>
  ⟨fun hin => ⟨memRead1_ok m addr hin, m.write addr.toNat v, memWrite1_ok m addr v hin,
      m.read_write_self _ v hwf, fun k hk => m.read_write_ne _ k v hk⟩,
    fun hout => ⟨memRead1_error m addr hout, memWrite1_error m addr v hout⟩⟩

/-- Settles O22: the word read is the one composed by shifts. -/
theorem wordReadIsBigEndian : Obligations.WordReadIsBigEndian := fun m addr =>
  ⟨fun hin => m.readWord_eq_composed addr.toNat ▸ memRead4_ok m addr hin, memRead4_error m addr⟩

/-- Settles O23: the four bytes written are the word at `addr`. -/
theorem wordWriteIsBigEndian : Obligations.WordWriteIsBigEndian := fun m addr v hwf =>
  ⟨fun hin => ⟨_, memWrite4_ok m addr v hin, Memory.holdsWordAt_writeList hwf addr.toNat v⟩,
    memWrite4_error m addr v⟩

end Sys2Proof.Machine
end

section
/-! PROOF. The decoder under the default numbering, the register fields and the jump offset
(30_encoding.md R92 to R112), what an unassigned opcode does to a tick and that no tick is refused
(60_exceptions.md R280, R281), and the exactness of widening (30_encoding.md R99), with the seven obligations
about them. -/
namespace Sys2Proof
open Claims

/-! ## The default numbering (30_encoding.md R105, R106; log 1) -/

/-- What an operation's byte finds is a left inverse of the numbering. -/
theorem opcodes_injective : Config.opcodes.Injective :=
  ⟨fun o p h => Option.some.inj ((findNormal_opcN o).symm.trans ((congrArg _ h).trans (findNormal_opcN p))),
    fun o p h => Option.some.inj
      ((findExtended_opcX o).symm.trans ((congrArg _ h).trans (findExtended_opcX p)))⟩

/-- The tables number their operations in order, from 0. -/
theorem opcN_getElem :
    ∀ (n : Nat) (h : n < normalOps.length), Config.opcN normalOps[n] = BitVec.ofNat 8 n := by
  decide

theorem opcX_getElem :
    ∀ (n : Nat) (h : n < extendedOps.length), Config.opcX extendedOps[n] = BitVec.ofNat 8 n := by
  decide

theorem exists_opcN {b : Byte} (h : b.toNat < 0x31) : ∃ o, Config.opcN o = b :=
  ⟨normalOps[b.toNat]'h, (opcN_getElem _ h).trans (BitVec.ofNat_toNat 8 b)⟩

theorem exists_opcX {b : Byte} (h : b.toNat < 0x09) : ∃ o, Config.opcX o = b :=
  ⟨extendedOps[b.toNat]'h, (opcX_getElem _ h).trans (BitVec.ofNat_toNat 8 b)⟩

theorem opcN_lt (o : NormalOp) : (Config.opcN o).toNat < 0x31 := by
  cases o <;> decide

theorem opcX_lt (o : ExtendedOp) : (Config.opcX o).toNat < 0x09 := by
  cases o <;> decide

theorem byte31_toNat (w : Word) : (byte31 w).toNat = opcodeOf w := by
  have hw := w.isLt
  simp only [byte31, opcodeOf, BitVec.extractLsb'_toNat, Nat.shiftRight_eq_div_pow]
  omega

theorem decode_of_assigned {ext : Bool} {w : Word} (h : opcodeOf w < if ext then 0x09 else 0x31) :
    ∃ i, decode ext w = .ok i := by
  rw [← byte31_toNat] at h
  cases ext with
  | false =>
    obtain ⟨o, ho⟩ := exists_opcN h
    exact ⟨_, decode_normal ho.symm⟩
  | true =>
    obtain ⟨o, ho⟩ := exists_opcX h
    exact ⟨_, decode_extended ho.symm⟩

theorem decode_of_unassigned {ext : Bool} {w : Word} (h : (if ext then 0x09 else 0x31) ≤ opcodeOf w) :
    decode ext w = .error (unassigned w) := by
  rw [← byte31_toNat] at h
  cases ext with
  | false =>
    have hnone : Config.opcodes.findNormal (byte31 w) = none :=
      findNormal_eq_none.2 fun o ho => Nat.not_lt.2 h (ho ▸ opcN_lt o)
    simp [decode, decodeWith, decodeNormal, hnone]
  | true =>
    have hnone : Config.opcodes.findExtended (byte31 w) = none :=
      findExtended_eq_none.2 fun o ho => Nat.not_lt.2 h (ho ▸ opcX_lt o)
    simp [decode, decodeWith, decodeExtended, hnone]

/-! ## The obligations on the decoder -/

/-- Settles O1: the default numbering is one of the injective ones. -/
theorem decodeOfEncodeIsIdentity : Obligations.DecodeOfEncodeIsIdentity :=
  ⟨fun _ hm i => decodeWith_encodeWith hm i, opcodes_injective, decodeWith_encodeWith opcodes_injective⟩

/-- Settles O3: each word has its operation's byte, and the fields of that operation's format. -/
theorem specWordsDecode : Obligations.SpecWordsDecode :=
  ⟨decode_normal (o := .andR) rfl, decode_normal (o := .andI) rfl, decode_normal (o := .move) rfl,
    decode_normal (o := .ldImA) rfl, decode_normal (o := .halt) rfl, decode_normal (o := .testEq) rfl,
    decode_normal (o := .regPush) rfl, decode_extended (o := .faddDsi) rfl,
    decode_extended (o := .loadFimFa) rfl, decode_of_unassigned (by decide)⟩

end Sys2Proof

namespace Sys2Proof.Machine
open Sys2Proof Sys2Proof.Safety Sys2Proof.Claims

/-! ## Operand fields (30_encoding.md R100, R101, R112) -/

theorem regX_eq_ok {k : Byte} {r : IReg} : regX k = .ok r ↔ k = ixIndex r := by
  refine ⟨fun h => ?_, fun h => h ▸ regX_ixIndex r⟩
  obtain ⟨q, rfl, hq⟩ | ⟨_, hbad⟩ := regX_cases k
  · rw [Except.ok.inj (hq.symm.trans h)]
  · rw [hbad] at h; cases h

theorem regF_eq_ok {k : Byte} {r : FReg} : regF k = .ok r ↔ k = ixFloat r := by
  refine ⟨fun h => ?_, fun h => h ▸ regF_ixFloat r⟩
  obtain ⟨q, rfl, hq⟩ | ⟨_, hbad⟩ := regF_cases k
  · rw [Except.ok.inj (hq.symm.trans h)]
  · rw [hbad] at h; cases h

/-- Settles O4: a field is the index of a register, or beyond all of them. -/
theorem registerFieldsResolve : Obligations.RegisterFieldsResolve := by
  refine ⟨fun k => ?_, fun k => ?_, fun _ _ => regX_eq_ok, fun _ _ => regF_eq_ok⟩
  · obtain ⟨r, rfl, -⟩ | ⟨hk, hbad⟩ := regX_cases k
    · cases r <;> rfl
    · simp [hbad, show ∀ n < 6, k.toNat ≠ n by omega]
  · obtain ⟨r, rfl, -⟩ | ⟨hk, hbad⟩ := regF_cases k
    · cases r <;> rfl
    · simp [hbad, show ∀ n < 4, k.toNat ≠ n by omega]

/-- Bit 23 is set exactly in the upper half of the literals. -/
theorem lit24_bit23 (l : Lit24) : l.getLsbD 23 = decide (2 ^ 23 ≤ l.toNat) := by
  rw [← BitVec.msb_eq_getLsbD_last (x := l), BitVec.msb_eq_decide]

theorem lit24_low23 (l : Lit24) : (l &&& 0x7FFFFF#24).toNat = l.toNat % 2 ^ 23 :=
  (BitVec.toNat_and ..).trans (Nat.and_two_pow_sub_one_eq_mod l.toNat 23)

/-- Settles O5: the sign is bit 23, the magnitude the bits below it. -/
theorem jumpOffsetIsSignAndMagnitude : Obligations.JumpOffsetIsSignAndMagnitude := by
  intro l
  have hl := l.isLt
  rw [jumpOffset, lit24_bit23, lit24_low23]
  constructor
  · intro h
    rw [if_pos (decide_eq_true h)]
    omega
  · intro h
    rw [if_neg (by simpa using h)]

/-! ## How a tick ends (40_sequencer.md R131, 60_exceptions.md R281) -/

theorem exec_not_refused (i : Instr) (s : State) (r : Refusal) : exec i s ≠ .refused r := by
  obtain ⟨p, hp, -⟩ := exec_finish i s
  rw [hp]
  exact finish_not_refused s p r

/-- An UnknownOpcode fault is raised only by an UnknownOpcode error. -/
theorem raise_not_unknown {e : Err} (he : ∀ op w, e ≠ .run (.unknownOpcode op w)) (addr : Word)
    (s l : State) (op : Byte) (w : Word) : raise e addr s ≠ .fault (.unknownOpcode op w l) := by
  obtain ⟨-, h⟩ | ⟨op', w', h, -⟩ | ⟨_, _, -, h⟩ | ⟨_, -, h⟩ := raise_cases e addr s
  · simp [h]
  · exact absurd h (he op' w')
  · simp [h]
  · simp [h]

theorem exec_not_unknown (i : Instr) (s l : State) (op : Byte) (w : Word) :
    exec i s ≠ .fault (.unknownOpcode op w l) := by
  obtain ⟨p, hp, hraises⟩ := exec_finish i s
  rw [hp]
  cases p with
  | ok t => simp
  | error e => exact raise_not_unknown (fun op w h => hraises op w (h ▸ rfl)) _ _ l op w

/-- A running machine whose word is in memory counts the tick and dispatches that word. -/
theorem step_running {s : State} (hs : Running s) (hpc : s.pc.toNat + 3 < Config.memSize) :
    step s = dispatchWord s.countTick (composed s.mem s.pc.toNat) := by
  obtain ⟨hfault, hz, hhalted⟩ := hs
  have hfetch : fetchWord s.countTick = .ok (composed s.mem s.pc.toNat) :=
    s.mem.readWord_eq_composed s.pc.toNat ▸ memRead4_ok s.mem s.pc hpc
  simp [step, hfault, zeroHolds, hz, hhalted, fetchAndRun, hfetch]

/-- The opcode byte of a word in memory is the one at the lowest address (30_encoding.md R91). -/
theorem byte31_composed (m : Memory) (n : Nat) : byte31 (composed m n) = m.read n :=
  m.readWord_eq_composed n ▸ byte31_packThree _ _ _ _

theorem dispatchWord_unassigned {s : State} {w : Word} (h : decode s.ctrl.extFnc w = .error (unassigned w)) :
    dispatchWord s w = .fault (.unknownOpcode (byte31 w) w
      (s.beginDispatch.latch (.unknownOpcode (byte31 w) w) s.pc)) := by
  rw [dispatchWord, h]
  rfl

/-- Settles O9: an unassigned byte is beyond those of every instruction, and ends the tick where the dispatch
begins. -/
theorem unknownOpcodeTick : Obligations.UnknownOpcodeTick := by
  refine ⟨fun s hs hpc hop => ?_, fun _ _ => decode_of_assigned, exec_not_unknown⟩
  have htick := (step_running hs hpc).trans (dispatchWord_unassigned (decode_of_unassigned hop))
  rw [byte31_composed] at htick
  exact ⟨_, htick, rfl⟩

/-- Settles O12: a tick ends in a next state, in a raised error, or as its instruction does. -/
theorem stepNeverRefuses : Obligations.StepNeverRefuses := by
  intro s r
  obtain ⟨_, hs⟩ | ⟨_, _, hs⟩ | ⟨_, _, _, hs⟩ | ⟨_, _, _, _, hs⟩ | ⟨_, _, _, _, _, _, _, hs⟩ |
    ⟨_, _, _, _, i, _, hs⟩ := step_cases s <;> rw [hs]
  · simp
  · simp
  · simp
  · exact raise_not_refused _ _ _ r
  · exact raise_not_refused _ _ _ r
  · exact exec_not_refused i _ r

/-! ## Widening (30_encoding.md R99) -/

theorem f32Exp_toNat (p : F32) : f32Exp p = p.toNat / 2 ^ 23 % 256 := by
  simp [f32Exp, BitVec.extractLsb'_toNat, Nat.shiftRight_eq_div_pow]

theorem f32Frac_toNat (p : F32) : f32Frac p = p.toNat % 2 ^ 23 := by
  simp [f32Frac, BitVec.extractLsb'_toNat]

/-- A multiple of the place is its own rounding. -/
theorem RoundsTo.exact {m k q : Nat} (h : RoundsTo m k q) (hm : 2 ^ (1074 + k) ∣ m) :
    q * 2 ^ (1074 + k) = m := by
  obtain ⟨c, rfl⟩ := hm
  have hlow := h.notLow
  have hhigh := h.notHigh
  have hpos := Nat.two_pow_pos (1074 + k)
  rw [Nat.mul_comm _ c] at hlow hhigh ⊢
  generalize 2 ^ (1074 + k) = P at *
  congr 1
  exact Nat.le_antisymm
    (Nat.lt_succ_iff.1 (Nat.lt_of_mul_lt_mul_right (a := P) (by rw [Nat.succ_mul]; omega)))
    (Nat.lt_succ_iff.1 (Nat.lt_of_mul_lt_mul_right (a := P) (by rw [Nat.succ_mul]; omega)))

/-- A number of at most 53 significant bits, none below the least subnormal, is a multiple of its place. -/
theorem RoundsTo.place_dvd {f j k q : Nat} (h : RoundsTo (f * 2 ^ (1074 + j)) k q) (hf : f < 2 ^ 53) :
    2 ^ (1074 + k) ∣ f * 2 ^ (1074 + j) := by
  refine Dvd.dvd.mul_left (Nat.pow_dvd_pow 2 ?_) f
  obtain rfl | hatLeast := h.atLeast
  · omega
  · have hpow : 2 ^ (52 + (1074 + k)) < 2 ^ (53 + (1074 + j)) := by
      rw [Nat.pow_add, Nat.pow_add 2 53]
      exact Nat.lt_of_le_of_lt hatLeast (Nat.mul_lt_mul_of_pos_right hf (Nat.two_pow_pos _))
    have := (Nat.pow_lt_pow_iff_right (by norm_num)).1 hpow
    omega

/-- Rounding a number that is a finite binary64 magnitude gives that magnitude. -/
theorem roundUnits_exact (sign : Bool) {f j : Nat} (hf : f < 2 ^ 53)
    (hlt : f * 2 ^ (1074 + j) < overflowAt) :
    isFinite (roundUnits sign (f * 2 ^ (1074 + j))) = true ∧
      f64Mag (roundUnits sign (f * 2 ^ (1074 + j))) = f * 2 ^ j := by
  obtain ⟨k, q, hr, h⟩ := roundMag_form (f * 2 ^ (1074 + j))
  have hfin : k * 2 ^ 52 + q < infMag := h.overflow.1 hlt
  rw [min_eq_left hfin.le] at hr
  rw [roundUnits, hr]
  refine ⟨isFinite_pack _ _ hfin, ?_⟩
  rw [f64Mag_pack _ _ (hfin.trans infMag_lt), magOf_form k q h.fits h.normal]
  have hexact := h.exact (h.place_dvd hf)
  rw [Nat.add_comm 1074, Nat.add_comm 1074, Nat.pow_add, Nat.pow_add, ← Nat.mul_assoc,
    ← Nat.mul_assoc] at hexact
  exact Nat.eq_of_mul_eq_mul_right (Nat.two_pow_pos 1074) hexact

/-- A 24-bit significand, as binary32 has, stays below the overflow of binary64. -/
theorem mul_two_pow_lt_overflowAt {f n : Nat} (hf : f < 2 ^ 24) (hn : n ≤ 3118) : f * 2 ^ n < overflowAt := by
  unfold overflowAt
  generalize 3118 = E at hn ⊢
  calc f * 2 ^ n < (2 ^ 54 - 1) * 2 ^ n := Nat.mul_lt_mul_of_pos_right (by omega) (Nat.two_pow_pos n)
    _ ≤ (2 ^ 54 - 1) * 2 ^ E := Nat.mul_le_mul_left _ (Nat.pow_le_pow_right (by norm_num) hn)

/-- A subnormal keeps its fraction, a normal number has the hidden bit; neither needs rounding. -/
theorem widenFinite_exact (p : F32) :
    isFinite (widenFinite p) = true ∧ f64Mag (widenFinite p) =
      if f32Exp p = 0 then f32Frac p * 2 ^ 925 else (f32Frac p + 2 ^ 23) * 2 ^ (f32Exp p + 924) := by
  have hfrac : f32Frac p < 2 ^ 23 := BitVec.isLt _
  have hexp : f32Exp p < 2 ^ 8 := BitVec.isLt _
  by_cases h : f32Exp p = 0
  · have hunits : f32Units p = f32Frac p * 2 ^ (1074 + 925) := by
      rw [f32Units, if_pos h, show 1074 + 925 = 1999 from rfl]
    rw [widenFinite, hunits, if_pos h]
    exact roundUnits_exact _ (by omega) (mul_two_pow_lt_overflowAt (by omega) (by omega))
  · have hunits : f32Units p = (f32Frac p + 2 ^ 23) * 2 ^ (1074 + (f32Exp p + 924)) := by
      rw [f32Units, if_neg h, show 1074 + (f32Exp p + 924) = f32Exp p + 1998 by omega]
    rw [widenFinite, hunits, if_neg h]
    exact roundUnits_exact _ (by omega) (mul_two_pow_lt_overflowAt (by omega) (by omega))

/-- Settles O55: rounding a binary32 magnitude changes nothing. -/
theorem wideningIsExact : Obligations.WideningIsExact := by
  intro p
  simp only [← f32Exp_toNat, ← f32Frac_toNat]
  refine ⟨fun he hfr => by simp [widen, he, hfr], fun he hfr => by simp [widen, he, hfr], fun he => ?_⟩
  obtain ⟨hfinite, hmag⟩ := widenFinite_exact p
  exact ⟨widenFinite p, by simp [widen, he], hfinite, f64Sign_roundUnits _ _, hmag⟩

end Sys2Proof.Machine
end

section
/-! PROOF. The tick (40_sequencer.md R131 to R146): how it ends before the dispatch, what it did when it
answers a next state and what it left when it raised, which instruction changes which flag (R141, R142), and
the seven obligations about them. -/
namespace Sys2Proof
open Claims

/-! ## The word of EXT_INSTR (30_encoding.md R104, R105) -/

/-- A word that decodes has the opcode byte of its instruction. -/
theorem byte31_of_decode {ext : Bool} {w : Word} {i : Instr} (h : decode ext w = .ok i) :
    byte31 w = i.opcodeIn Config.opcodes := by
  cases ext with
  | false =>
    obtain ⟨o, ho, rfl⟩ := decodeNormal_eq_ok.1 h
    rw [opcodeIn_normalInstr, normal_of_find ho]
  | true =>
    obtain ⟨o, ho, rfl⟩ := decodeExtended_eq_ok.1 h
    rw [opcodeIn_extendedInstr, extended_of_find ho]

/-- EXT_INSTR is the byte 0x30 of the normal table; the extended table has no such instruction. -/
theorem decode_eq_extInstr {ext : Bool} {w : Word} :
    decode ext w = .ok .extInstr ↔ ext = false ∧ opcodeOf w = 0x30 := by
  constructor
  · intro h
    have htable : Instr.extInstr.isExtended = ext := (encodeOfDecodeKeepsEveryField.2 ext w _ h).1
    exact ⟨htable.symm, (byte31_toNat w).symm.trans (congrArg BitVec.toNat (byte31_of_decode h))⟩
  · rintro ⟨rfl, hop⟩
    exact decode_normal (o := .extInstr) (BitVec.eq_of_toNat_eq ((byte31_toNat w).trans hop))

end Sys2Proof

namespace Sys2Proof.Machine
open Sys2Proof Sys2Proof.Safety Sys2Proof.Claims

/-! ## What a raised error leaves (60_exceptions.md R285, R287) -/

@[simp] theorem faultOf_left (r : RunError) (l : State) : (faultOf r l).left = some l := by
  cases r <;> rfl

theorem raise_run (r : RunError) (addr : Word) (s : State) :
    raise (.run r) addr s = .fault (faultOf r (s.latch r addr)) := by
  cases r <;> rfl

/-- A raised error that leaves a state leaves the one it found, its own record latched (60_exceptions.md R287). -/
theorem raise_left {e : Err} {addr : Word} {s l : State} {f : Fault} (h : raise e addr s = .fault f)
    (hl : f.left = some l) : ∃ r, f = faultOf r l ∧ l = s.latch r addr := by
  cases e with
  | zeroRegisterViolation =>
    cases h
    cases hl
  | run r =>
    rw [raise_run] at h
    cases h
    rw [faultOf_left] at hl
    cases hl
    exact ⟨r, rfl, rfl⟩

/-! ## Ticks that end before the dispatch (R133 to R135, R146) -/

theorem step_of_faulted {s : State} (h : s.fault ≠ none) : step s = .next s := by
  simp [step, Option.isSome_iff_ne_none.2 h]

theorem step_of_nonzero_z {s : State} (hfault : s.fault = none) (hz : s.z ≠ 0#32) :
    step s = .fault .zeroRegisterViolation := by
  simp [step, hfault, zeroHolds, hz]

theorem step_of_halted {s : State} (hfault : s.fault = none) (hz : s.z = 0#32) (hhalted : s.halted = true) :
    step s = .next s.countTick := by
  simp [step, hfault, zeroHolds, hz, hhalted]

theorem fetchWord_eq_composed {s : State} (h : s.pc.toNat + 3 < Config.memSize) :
    fetchWord s = .ok (composed s.mem s.pc.toNat) :=
  (wordReadIsBigEndian s.mem s.pc).1 h

theorem step_of_fetch_out_of_range {s : State} (hs : Running s) (hpc : Config.memSize ≤ s.pc.toNat + 3) :
    step s = .fault (.memoryOutOfRange s.pc (s.countTick.latch (.memoryOutOfRange s.pc) s.pc)) := by
  obtain ⟨hfault, hz, hhalted⟩ := hs
  have hfetch : fetchWord s.countTick = .error (.run (.memoryOutOfRange s.pc)) := memRead4_error s.mem s.pc hpc
  simp [step, hfault, zeroHolds, hz, hhalted, fetchAndRun, hfetch, raise_run, faultOf]

/-! ## What a tick did (R131) -/

theorem dispatchWord_of_decode {s : State} {w : Word} {i : Instr} (h : decode s.ctrl.extFnc w = .ok i) :
    dispatchWord s w = exec i s.beginDispatch := by
  rw [dispatchWord, h]

/-- `step_next_cases` with the condition of each case, and with the word that was dispatched. -/
theorem step_next_inv {s t : State} (h : step s = .next t) :
    (s.fault ≠ none ∧ t = s) ∨
    (s.fault = none ∧ s.halted = true ∧ t = s.countTick) ∨
    (Running s ∧ ∃ i, decode s.ctrl.extFnc (composed s.mem s.pc.toNat) = .ok i ∧
      exec i s.countTick.beginDispatch = .next t) := by
  obtain ⟨hf, hs⟩ | ⟨_, _, hs⟩ | ⟨hf, _, hh, hs⟩ | ⟨_, _, _, _, hs⟩ | ⟨_, _, _, _, _, _, _, hs⟩ |
    ⟨hf, hz, hh, _, i, hi, hs⟩ := step_cases s <;> rw [hs] at h
  · exact .inl ⟨Option.isSome_iff_ne_none.1 hf, (Host.Outcome.next.inj h).symm⟩
  · cases h
  · exact .inr (.inl ⟨hf, hh, (Host.Outcome.next.inj h).symm⟩)
  · exact absurd h (raise_not_next _ _ _ _)
  · exact absurd h (raise_not_next _ _ _ _)
  · exact .inr (.inr ⟨⟨hf, hz, hh⟩, i, s.mem.readWord_eq_composed s.pc.toNat ▸ hi, h⟩)

/-- An instruction that faults leaves the state it began in, latched for the address of its word. -/
theorem exec_fault_left {i : Instr} {s l : State} {f : Fault} (h : exec i s = .fault f)
    (hl : f.left = some l) : ∃ r, f = faultOf r l ∧ l = s.latch r (s.pc - 4#32) := by
  obtain ⟨p, hp, -⟩ := exec_finish i s
  rw [hp] at h
  cases p with
  | ok t => cases h
  | error e => exact raise_left h hl

/-- What a faulting tick left: the count alone where the fetch was out of range, the beginning of the dispatch
otherwise; the record of the error is latched for the word's address. -/
theorem step_fault_left {s l : State} {f : Fault} (h : step s = .fault f) (hl : f.left = some l) :
    ∃ r, f = faultOf r l ∧
      ((Config.memSize ≤ s.pc.toNat + 3 ∧ l = s.countTick.latch r s.pc) ∨
        (s.pc.toNat + 3 < Config.memSize ∧ l = s.countTick.beginDispatch.latch r s.pc)) := by
  obtain ⟨_, hs⟩ | ⟨_, _, hs⟩ | ⟨_, _, _, hs⟩ | ⟨_, _, _, hpc, hs⟩ | ⟨_, _, _, hpc, _, _, _, hs⟩ |
    ⟨_, _, _, hpc, i, _, hs⟩ := step_cases s <;> rw [hs] at h
  · cases h
  · cases h
    cases hl
  · cases h
  · obtain ⟨r, hr, hleft⟩ := raise_left h hl
    exact ⟨r, hr, .inl ⟨hpc, hleft⟩⟩
  · obtain ⟨r, hr, hleft⟩ := raise_left h hl
    exact ⟨r, hr, .inr ⟨hpc, hleft⟩⟩
  · obtain ⟨r, hr, hleft⟩ := exec_fault_left h hl
    have haddr : s.countTick.beginDispatch.pc - 4#32 = s.pc := BitVec.add_sub_cancel s.pc 4#32
    exact ⟨r, hr, .inr ⟨hpc, haddr ▸ hleft⟩⟩

/-! ## Which instruction changes which flag (R142, 10_state.md R33 to R36) -/

theorem appliesSetZN_rndNum (k : Byte) : appliesSetZN (.rndNum k) = true := rfl

namespace Effect

variable {i : Instr} {s t : State}

theorem zero_negative_eq (h : Effect i s t) (hi : appliesSetZN i = false) :
    t.ctrl.zero = s.ctrl.zero ∧ t.ctrl.negative = s.ctrl.negative := by
  cases h with
  | intResult _ _ hw => simp [hi] at hw
  | random _ _ _ hk => simp [hk, appliesSetZN_rndNum] at hi
  | _ => simp

theorem testTrue_eq (h : Effect i s t) (hi : writesTest i = false) : t.ctrl.testTrue = s.ctrl.testTrue := by
  cases h with
  | test _ hw => simp [hi] at hw
  | _ => simp

theorem extFnc_eq (h : Effect i s t) (hi : i ≠ .extInstr) : t.ctrl.extFnc = s.ctrl.extFnc := by
  cases h with
  | prefixed hp => exact absurd hp hi
  | _ => simp

end Effect

/-- A dispatch that began with EXT_FNC clear sets it exactly if it was of EXT_INSTR (44_control.md R240). -/
theorem exec_extFnc_iff {i : Instr} {s t : State} (hclear : s.ctrl.extFnc = false) (h : exec i s = .next t) :
    t.ctrl.extFnc = true ↔ i = .extInstr := by
  by_cases hi : i = .extInstr
  · subst hi
    cases h
    exact iff_of_true rfl rfl
  · have hsame := (exec_effect i s t h).extFnc_eq hi
    simp [hi, hsame, hclear]

/-! ## The obligations -/

/-- Settles O11: only a dispatch touches EXT_FNC; it begins with the flag clear, and EXT_INSTR alone sets it. -/
theorem extendedModeLastsOneDispatch : Obligations.ExtendedModeLastsOneDispatch := by
  refine ⟨fun s t hrun h => ?next, fun s l f h hl => ?fault, fun s t hstop h => ?stopped⟩
  case next =>
    obtain ⟨hfault, -, hhalted⟩ := hrun
    obtain ⟨hf, -⟩ | ⟨-, hh, -⟩ | ⟨-, i, hdecode, hexec⟩ := step_next_inv h
    · exact absurd hfault hf
    · simp [hhalted] at hh
    · calc t.ctrl.extFnc = true ↔ i = .extInstr := exec_extFnc_iff rfl hexec
        _ ↔ decode s.ctrl.extFnc (composed s.mem s.pc.toNat) = .ok .extInstr := by simp [hdecode]
        _ ↔ _ := decode_eq_extInstr
  case fault =>
    obtain ⟨r, -, ⟨hpc, rfl⟩ | ⟨hpc, rfl⟩⟩ := step_fault_left h hl
    · exact ⟨fun hin => absurd hin (Nat.not_lt.2 hpc), fun _ => rfl⟩
    · exact ⟨fun _ => rfl, fun hout => absurd hout (Nat.not_le.2 hpc)⟩
  case stopped =>
    obtain ⟨-, rfl⟩ | ⟨-, -, rfl⟩ | ⟨⟨hf, -, hh⟩, -⟩ := step_next_inv h
    · rfl
    · rfl
    · simp [hf, hh] at hstop

/-- Settles O10: the count comes first, and no instruction and no raise touches the counter. -/
theorem everyTickCounts : Obligations.EveryTickCounts := by
  refine fun s hfault => ⟨fun t h => ?next, fun f l h hl => ?fault⟩
  case next =>
    obtain ⟨hf, -⟩ | ⟨-, -, rfl⟩ | ⟨-, i, -, hexec⟩ := step_next_inv h
    · exact absurd hfault hf
    · rfl
    · obtain ⟨-, -, hcycles, -⟩ := (exec_effect i _ t hexec).z_carry_cycles_fault_eq
      exact hcycles
  case fault =>
    obtain ⟨r, -, ⟨-, rfl⟩ | ⟨-, rfl⟩⟩ := step_fault_left h hl
    · rfl
    · rfl

/-- Settles O25: an instruction's next state is one of the effects, and each effect has every frame. -/
theorem flagsChangeOnlyByTheirInstructions : Obligations.FlagsChangeOnlyByTheirInstructions := by
  intro i s t h
  have he : Effect i s t := exec_effect i s t h
  obtain ⟨-, hcarry, -, -⟩ := he.z_carry_cycles_fault_eq
  exact ⟨he.zero_negative_eq, he.testTrue_eq, he.extFnc_eq, hcarry⟩

/-- Settles O6: the tick dispatches the word at `pc`, and the dispatch runs what it decodes to. -/
theorem stepRunsTheDecodedInstruction : Obligations.StepRunsTheDecodedInstruction :=
  fun s _ hs hpc hdecode => (step_running hs hpc).trans (dispatchWord_of_decode (s := s.countTick) hdecode)

/-- Settles O7, one way to end before the fetch each. -/
theorem tickStopsBeforeFetch : Obligations.TickStopsBeforeFetch :=
  ⟨fun _ => step_of_faulted, fun _ => step_of_nonzero_z, fun _ => step_of_halted⟩

/-- Settles O8: the fetch is the word access at `pc`. -/
theorem fetchOutOfRangeFaults : Obligations.FetchOutOfRangeFaults :=
  ⟨fun _ => fetchWord_eq_composed, fun _ hs hpc => ⟨_, step_of_fetch_out_of_range hs hpc, rfl⟩⟩

/-- Settles O24: ZERO is the test against 0, NEGATIVE the unsigned comparison with the threshold. -/
theorem setZNPolicy : Obligations.SetZNPolicy := by
  intro s v
  have hzero : (s.setZN v).ctrl.zero = true ↔ v.toNat = 0 :=
    beq_iff_eq.trans BitVec.toNat_eq
  exact ⟨⟨hzero, negativeThreshold_ult_iff v, rfl, rfl, rfl⟩, rfl⟩

end Sys2Proof.Machine
end

section
/-! PROOF. Logic, shift and move (41_logic_shift_move.md R160 to R178): the rules of the formats DSS, DSI and
DS, proved once for the shared execution orders; the shifts as arithmetic; the population count as a count over
bit positions; and the six obligations about them. -/
namespace Sys2Proof.Machine
open Sys2Proof Sys2Proof.Safety Sys2Proof.Claims

/-! ## The fields of a word (30_encoding.md R92 to R97) -/

theorem byte23_eq_field23 (w : Word) : byte23 w = field23 w :=
  BitVec.setWidth_ushiftRight_eq_extractLsb.symm

theorem byte15_eq_field15 (w : Word) : byte15 w = field15 w :=
  BitVec.setWidth_ushiftRight_eq_extractLsb.symm

theorem byte7_eq_field7 (w : Word) : byte7 w = field7 w :=
  (BitVec.setWidth_eq_extractLsb' (by decide)).symm

/-- An operation of the normal table is encoded by its opcode byte and its format. -/
theorem encodes_normal (o : NormalOp) {op : Nat} {mk : Word → Instr} (hop : (Config.opcN o).toNat = op)
    (hmk : ∀ w, normalInstr w o = mk w) : Encodes false op mk := by
  intro w hw
  have hbyte : byte31 w = Config.opcN o := BitVec.eq_of_toNat_eq (by rw [byte31_toNat, hw, hop])
  rw [decode_normal hbyte, hmk]

theorem encodes_threeFields (o : NormalOp) {op : Nat} {mk : Byte → Byte → Byte → Instr}
    (hop : (Config.opcN o).toNat = op) (hmk : ∀ w, normalInstr w o = mk (byte23 w) (byte15 w) (byte7 w)) :
    Encodes false op fun w => mk (field23 w) (field15 w) (field7 w) :=
  encodes_normal o hop fun w => by
    rw [hmk, byte23_eq_field23, byte15_eq_field15, byte7_eq_field7]

theorem encodes_twoFields (o : NormalOp) {op : Nat} {mk : Byte → Byte → Instr}
    (hop : (Config.opcN o).toNat = op) (hmk : ∀ w, normalInstr w o = mk (byte23 w) (byte15 w)) :
    Encodes false op fun w => mk (field23 w) (field15 w) :=
  encodes_normal o hop fun w => by rw [hmk, byte23_eq_field23, byte15_eq_field15]

/-! ## Fields outside the register table (R102, 60_exceptions.md R282, R287) -/

/-- Resolving fields from left to right raises for the first bad one: here for `k`, or, `k` being a register, in
the steps that follow. -/
theorem bind_regX_firstBad {α : Type} {k b : Byte} {ks : List Byte} {f : IReg → Except Err α}
    (h : firstBadInt (k :: ks) = some b)
    (hrest : ∀ r, firstBadInt ks = some b → f r = .error (.run (.invalidRegister b .int))) :
    (regX k >>= f) = .error (.run (.invalidRegister b .int)) := by
  rw [firstBadInt] at h
  split at h
  next hbad => rw [regX_bad k hbad, bind_error, Option.some.inj h]
  next hgood =>
    obtain ⟨r, rfl⟩ := regX_good k (Nat.not_le.1 hgood)
    rw [regX_ixIndex, bind_ok, hrest r h]

theorem bind_two_firstBad {α : Type} {k1 k2 b : Byte} {f : IReg → IReg → Except Err α}
    (h : firstBadInt [k1, k2] = some b) :
    (do let r1 ← regX k1; let r2 ← regX k2; f r1 r2) = .error (.run (.invalidRegister b .int)) :=
  bind_regX_firstBad h fun _ h => bind_regX_firstBad h fun _ => nofun

theorem bind_three_firstBad {α : Type} {k1 k2 k3 b : Byte} {f : IReg → IReg → IReg → Except Err α}
    (h : firstBadInt [k1, k2, k3] = some b) :
    (do let r1 ← regX k1; let r2 ← regX k2; let r3 ← regX k3; f r1 r2 r3) =
      .error (.run (.invalidRegister b .int)) :=
  bind_regX_firstBad h fun _ h => bind_two_firstBad h

/-- An instruction whose fields do not all resolve ends with the record latched for its word (R287). -/
theorem stopsOnBadInt_of_error {k : Byte} {i : Instr} {s : State} {p : Except Err State}
    (hexec : exec i s = finish s p) (hp : p = .error (.run (.invalidRegister k .int))) :
    StopsOnBadInt k i s := by
  rw [StopsOnBadInt, hexec, hp]
  rfl

/-! ## The destination `z` (60_exceptions.md R284) -/

theorem execDss_z (g : Word → Word → Word) (r1 r2 : IReg) (s : State) :
    execDss g (ixIndex .z) (ixIndex r1) (ixIndex r2) s = .fault .zeroRegisterViolation := by
  simp [execDss, raise]

theorem execDsi_z (g : Word → Word → Word) (r : IReg) (imm : Byte) (s : State) :
    execDsi g (ixIndex .z) (ixIndex r) imm s = .fault .zeroRegisterViolation := by
  simp [execDsi, raise]

theorem execDs_z (g : Word → Word) (r : IReg) (s : State) :
    execDs g (ixIndex .z) (ixIndex r) s = .fault .zeroRegisterViolation := by
  simp [execDs, raise]

theorem execPopcnt_z (r : IReg) (s : State) :
    execPopcnt (ixIndex .z) (ixIndex r) s = .fault .zeroRegisterViolation := by
  simp [execPopcnt, raise]

/-! ## The result, its flags and the frame (41_logic_shift_move.md R160) -/

/-- Nothing but the integer register `d` and the flags changed: the frame that `IntResult` and POPCNT share. -/
def FrameBut (d : IReg) (s t : State) : Prop :=
  SameXBut d s t ∧ SameF s t ∧ t.pc = s.pc ∧ SameLatches s t ∧ SameDevices s t ∧ SameMem s t

theorem intResult_iff {s t : State} {d : IReg} {v : Word} :
    IntResult s t d v ↔ t.readX d = v ∧ FlagsOf v s t ∧ FrameBut d s t := Iff.rfl

theorem frameBut_setX (d : IReg) (s : State) (v : Word) : FrameBut d s (s.setX d v) :=
  ⟨fun r hr => s.setX_readX_ne d r v hr, s.setX_readF d v, s.setX_pc d v,
    ⟨s.setX_halted d v, s.setX_cycles d v, s.setX_fault d v⟩, ⟨s.setX_prng d v, s.setX_out d v⟩,
    fun n => by rw [s.setX_mem d v]⟩

theorem FrameBut.setZN {d : IReg} {s t : State} (h : FrameBut d s t) (v : Word) :
    FrameBut d s (t.setZN v) := by
  obtain ⟨hx, hf, hpc, hlatches, hdevices, hmem⟩ := h
  exact ⟨fun r hr => (t.setZN_readX v r).trans (hx r hr), fun r => (t.setZN_readF v r).trans (hf r), hpc,
    hlatches, hdevices, hmem⟩

/-- `x[d] <- v; SetZN(v)` is the result of an integer instruction (R160). -/
theorem intResult_setX_setZN {d : IReg} (hd : d ≠ .z) (s : State) (v : Word) :
    IntResult s ((s.setX d v).setZN v) d v := by
  have hflags : FlagsOf v s ((s.setX d v).setZN v) := by
    have h := (setZNPolicy (s.setX d v) v).1
    rwa [FlagsOf, s.setX_ctrl d v] at h
  have hresult : ((s.setX d v).setZN v).readX d = v :=
    ((s.setX d v).setZN_readX v d).trans (s.setX_readX_self d v hd)
  exact intResult_iff.2 ⟨hresult, hflags, (frameBut_setX d s v).setZN v⟩

/-! ## The rules of the formats -/

/-- A normal operation that runs as `execDss` has the rule of format DSS for any function that gives its
results. -/
theorem dssRule_of_execDss (o : NormalOp) {op : Nat} {mk : Byte → Byte → Byte → Instr}
    {f g : Word → Word → Word} (hop : (Config.opcN o).toNat = op)
    (hmk : ∀ w, normalInstr w o = mk (byte23 w) (byte15 w) (byte7 w))
    (hexec : ∀ d s1 s2 s, exec (mk d s1 s2) s = execDss g d s1 s2 s) (hg : ∀ u v, g u v = f u v) :
    DssRule op mk f := by
  refine ⟨encodes_threeFields o hop hmk, fun d r1 r2 s hd => ?_, fun r1 r2 s => ?_,
    fun k1 k2 k3 k s h => ?_⟩
  · rw [hexec, ← hg]
    exact ⟨_, execDss_next.2 ⟨d, r1, r2, regX_ixIndex d, regX_ixIndex r1, regX_ixIndex r2, hd, rfl⟩,
      intResult_setX_setZN hd s _⟩
  · rw [hexec, execDss_z]
  · exact stopsOnBadInt_of_error (hexec k1 k2 k3 s) (bind_three_firstBad h)

/-- `dssRule_of_execDss` for `execDsi` and format DSI, its immediate zero-extended (30_encoding.md R98). -/
theorem dsiRule_of_execDsi (o : NormalOp) {op : Nat} {mk : Byte → Byte → Byte → Instr}
    {f g : Word → Word → Word} (hop : (Config.opcN o).toNat = op)
    (hmk : ∀ w, normalInstr w o = mk (byte23 w) (byte15 w) (byte7 w))
    (hexec : ∀ d r imm s, exec (mk d r imm) s = execDsi g d r imm s) (hg : ∀ u v, g u v = f u v) :
    DsiRule op mk f := by
  refine ⟨encodes_threeFields o hop hmk, fun d r imm s hd => ?_, fun r imm s => ?_,
    fun k1 k2 imm k s h => ?_⟩
  · rw [hexec, ← hg, BitVec.ofNat_toNat]
    exact ⟨_, execDsi_next.2 ⟨d, r, regX_ixIndex d, regX_ixIndex r, hd, rfl⟩, intResult_setX_setZN hd s _⟩
  · rw [hexec, execDsi_z]
  · exact stopsOnBadInt_of_error (hexec k1 k2 imm s) (bind_two_firstBad h)

/-- `dssRule_of_execDss` for `execDs` and format DS. -/
theorem dsRule_of_execDs (o : NormalOp) {op : Nat} {mk : Byte → Byte → Instr} {f g : Word → Word}
    (hop : (Config.opcN o).toNat = op) (hmk : ∀ w, normalInstr w o = mk (byte23 w) (byte15 w))
    (hexec : ∀ d r s, exec (mk d r) s = execDs g d r s) (hg : ∀ u, g u = f u) : DsRule op mk f := by
  refine ⟨encodes_twoFields o hop hmk, fun d r s hd => ?_, fun r s => ?_, fun k1 k2 k s h => ?_⟩
  · rw [hexec, ← hg]
    exact ⟨_, execDs_next.2 ⟨d, r, regX_ixIndex d, regX_ixIndex r, hd, rfl⟩, intResult_setX_setZN hd s _⟩
  · rw [hexec, execDs_z]
  · exact stopsOnBadInt_of_error (hexec k1 k2 s) (bind_two_firstBad h)

/-! ## The shifts as arithmetic (41_logic_shift_move.md R161; D13, log 14)

The model writes the results for amounts of 32 and more apart; they are those of the shift itself. -/

theorem shiftLeftLogical_eq_shift (v n : Word) : shiftLeftLogical v n = v <<< n.toNat := by
  unfold shiftLeftLogical
  split
  next => rfl
  next h => exact (BitVec.shiftLeft_eq_zero (Nat.not_lt.1 h)).symm

theorem shiftRightLogical_eq_shift (v n : Word) : shiftRightLogical v n = v >>> n.toNat := by
  unfold shiftRightLogical
  split
  next => rfl
  next h => exact (BitVec.ushiftRight_eq_zero (Nat.not_lt.1 h)).symm

theorem shiftRightArith_eq_shift (v n : Word) : shiftRightArith v n = v.sshiftRight n.toNat := by
  unfold shiftRightArith
  split
  next => rfl
  next h =>
    cases hmsb : v.msb with
    | false => simp [BitVec.sshiftRight_eq_of_msb_false hmsb, BitVec.ushiftRight_eq_zero (Nat.not_lt.1 h)]
    | true => simp [BitVec.sshiftRight_eq_of_msb_true hmsb, BitVec.ushiftRight_eq_zero (Nat.not_lt.1 h)]

theorem shiftLeftLogical_eq_mul (v n : Word) :
    shiftLeftLogical v n = BitVec.ofNat 32 (v.toNat * 2 ^ n.toNat) := by
  apply BitVec.eq_of_toNat_eq
  rw [shiftLeftLogical_eq_shift, BitVec.toNat_shiftLeft, Nat.shiftLeft_eq, BitVec.toNat_ofNat]

theorem shiftRightLogical_eq_div (v n : Word) :
    shiftRightLogical v n = BitVec.ofNat 32 (v.toNat / 2 ^ n.toNat) := by
  rw [shiftRightLogical_eq_shift, ← Nat.shiftRight_eq_div_pow, ← BitVec.toNat_ushiftRight,
    BitVec.ofNat_toNat, BitVec.setWidth_eq]

/-- The arithmetic shift divides the signed value and rounds down. -/
theorem shiftRightArith_eq_div (v n : Word) :
    shiftRightArith v n = BitVec.ofInt 32 (v.toInt / 2 ^ n.toNat) := by
  rw [shiftRightArith_eq_shift, BitVec.sshiftRight, Int.shiftRight_eq_div_pow, Nat.cast_pow,
    Nat.cast_ofNat]

/-! ## The population count (41_logic_shift_move.md R178) -/

/-- The bit positions are the 32 values of `Fin 32`, each counted once. -/
theorem popCount_eq_card (v : Word) :
    popCount v = (Finset.univ.filter fun i : Fin 32 => v[i] = true).card := by
  have hpositions : popCount v = ((List.finRange 32).filter fun i : Fin 32 => v[i]).length := by
    rw [popCount, ← List.map_coe_finRange_eq_range, List.filter_map, List.length_map]
    rfl
  rw [hpositions]
  simp [Finset.card, Finset.filter, Fin.univ_def]

theorem popCount_le (v : Word) : popCount v ≤ 32 :=
  (List.length_filter_le _ _).trans_eq (List.length_range)

/-- The count fits the destination. -/
theorem toNat_ofNat_popCount (v : Word) : (BitVec.ofNat 32 (popCount v)).toNat = popCount v := by
  have hle := popCount_le v
  rw [BitVec.toNat_ofNat]
  omega

theorem execPopcnt_ne_z {d : IReg} (hd : d ≠ .z) (r : IReg) (s : State) :
    execPopcnt (ixIndex d) (ixIndex r) s = .next (s.setX d (BitVec.ofNat 32 (popCount (s.readX r)))) := by
  simp [execPopcnt, hd]

/-! ## The obligations -/

/-- Settles O28, by the rule of format DSS. -/
theorem bitwiseRegisterInstructions : Obligations.BitwiseRegisterInstructions :=
  ⟨dssRule_of_execDss .andR rfl (fun _ => rfl) (fun _ _ _ _ => rfl) fun _ _ => rfl,
    dssRule_of_execDss .orR rfl (fun _ => rfl) (fun _ _ _ _ => rfl) fun _ _ => rfl,
    dssRule_of_execDss .xorR rfl (fun _ => rfl) (fun _ _ _ _ => rfl) fun _ _ => rfl⟩

/-- Settles O29: each shift is its arithmetic, for every amount; ALSH has the bits of LLSH. -/
theorem shiftRegisterInstructions : Obligations.ShiftRegisterInstructions :=
  ⟨dssRule_of_execDss .llshR rfl (fun _ => rfl) (fun _ _ _ _ => rfl) shiftLeftLogical_eq_mul,
    dssRule_of_execDss .alshR rfl (fun _ => rfl) (fun _ _ _ _ => rfl) shiftLeftLogical_eq_mul,
    dssRule_of_execDss .lrshR rfl (fun _ => rfl) (fun _ _ _ _ => rfl) shiftRightLogical_eq_div,
    dssRule_of_execDss .arshR rfl (fun _ => rfl) (fun _ _ _ _ => rfl) shiftRightArith_eq_div⟩

/-- Settles O30, by the rule of format DSI. -/
theorem bitwiseImmediateInstructions : Obligations.BitwiseImmediateInstructions :=
  ⟨dsiRule_of_execDsi .andI rfl (fun _ => rfl) (fun _ _ _ _ => rfl) fun _ _ => rfl,
    dsiRule_of_execDsi .orI rfl (fun _ => rfl) (fun _ _ _ _ => rfl) fun _ _ => rfl,
    dsiRule_of_execDsi .xorI rfl (fun _ => rfl) (fun _ _ _ _ => rfl) fun _ _ => rfl⟩

/-- Settles O31, by the arithmetic of O29 on the zero-extended immediate. -/
theorem shiftImmediateInstructions : Obligations.ShiftImmediateInstructions :=
  ⟨dsiRule_of_execDsi .llshI rfl (fun _ => rfl) (fun _ _ _ _ => rfl) shiftLeftLogical_eq_mul,
    dsiRule_of_execDsi .alshI rfl (fun _ => rfl) (fun _ _ _ _ => rfl) shiftLeftLogical_eq_mul,
    dsiRule_of_execDsi .lrshI rfl (fun _ => rfl) (fun _ _ _ _ => rfl) shiftRightLogical_eq_div,
    dsiRule_of_execDsi .arshI rfl (fun _ => rfl) (fun _ _ _ _ => rfl) shiftRightArith_eq_div⟩

/-- Settles O32, by the rule of format DS; the complement is the exclusive or with 32 ones (R177). -/
theorem moveAndComplement : Obligations.MoveAndComplement :=
  ⟨dsRule_of_execDs .move rfl (fun _ => rfl) (fun _ _ _ => rfl) fun _ => rfl,
    dsRule_of_execDs .notR rfl (fun _ => rfl) (fun _ _ _ => rfl) fun _ => BitVec.xor_allOnes⟩

/-- Settles O33: the register holds the count, which fits it, and the write keeps every flag. -/
theorem populationCount : Obligations.PopulationCount := by
  refine ⟨encodes_twoFields .popcnt rfl fun _ => rfl, fun d r s hd => ?_, execPopcnt_z,
    fun k1 k2 k s h => stopsOnBadInt_of_error rfl (bind_two_firstBad h)⟩
  refine ⟨_, execPopcnt_ne_z hd r s, ?count, s.setX_ctrl d _, frameBut_setX d s _⟩
  rw [s.setX_readX_self d _ hd, toNat_ofNat_popCount, popCount_eq_card]

end Sys2Proof.Machine
end

section
/-! PROOF. Load, store and the stack (42_memory_stack.md R190 to R195): each instruction as one memory access
once its fields have resolved, its next states and faults, and the five obligations about them. -/
namespace Sys2Proof.Machine
open Sys2Proof Sys2Proof.Safety Sys2Proof.Claims

/-! ## Fields and faults (30_encoding.md R97, R102, 60_exceptions.md R282, R283) -/

theorem encodes_lowField (o : NormalOp) {op : Nat} {mk : Byte → Instr} (hop : (Config.opcN o).toNat = op)
    (hmk : ∀ w, normalInstr w o = mk (byte7 w)) : Encodes false op fun w => mk (field7 w) :=
  encodes_normal o hop fun w => by rw [hmk, byte7_eq_field7]

theorem bind_regX_bad {α : Type} {k : Byte} (h : 6 ≤ k.toNat) (f : IReg → Except Err α) :
    (regX k >>= f) = .error (.run (.invalidRegister k .int)) := by
  rw [regX_bad k h, bind_error]

/-- An access out of memory ends the instruction with the record latched for its word (R287). -/
theorem finish_memoryOutOfRange (s : State) (addr : Word) :
    finish s (.error (.run (.memoryOutOfRange addr))) =
      .fault (.memoryOutOfRange addr (Latched s (.memoryOutOfRange addr))) := rfl

theorem finish_zeroRegisterViolation (s : State) :
    finish s (.error .zeroRegisterViolation) = .fault .zeroRegisterViolation := rfl

/-! ## The instructions on registers: the access, then what is made of it -/

theorem exec_loadAtAddr (d r : IReg) (s : State) : exec (.loadAtAddr (ixIndex d) (ixIndex r)) s =
    finish s (memRead1 s.mem (s.readX r) >>= fun v => writeZN s d (immWord v)) := by
  simp [exec, execLoadAtAddr]

theorem exec_storeAtAddr (d r : IReg) (s : State) : exec (.storeAtAddr (ixIndex d) (ixIndex r)) s =
    finish s (memWrite1 s.mem (s.readX d) (byte7 (s.readX r)) >>= fun m => .ok (s.setMem m)) := by
  simp [exec, execStoreAtAddr]

theorem exec_regPush (r : IReg) (s : State) : exec (.regPush (ixIndex r)) s =
    finish s (memWrite4 s.mem s.sp (s.readX r) >>= fun m =>
      .ok ((s.setMem m).setX .sp (s.sp + 4#32))) := by
  simp [exec, execRegPush]

theorem exec_regPop (r : IReg) (s : State) : exec (.regPop (ixIndex r)) s =
    finish s (memRead4 s.mem (s.sp - 4#32) >>= fun v => s.writeX r v >>= fun t =>
      .ok (t.setX .sp (t.sp - 4#32))) := by
  simp [exec, execRegPop]

/-! ## The stack -/

theorem byte31_eq_shift (w : Word) : byte31 w = (w >>> 24).setWidth 8 :=
  BitVec.setWidth_ushiftRight_eq_extractLsb.symm

/-- The word that was written is the word that is read (20_memory.md R71). -/
theorem composed_of_holdsWordAt {m m' : Memory} {n : Nat} {v : Word} (h : HoldsWordAt m m' n v) :
    composed m' n = v := by
  obtain ⟨h31, h23, h15, h7, -⟩ := h
  rw [← m'.readWord_eq_composed, Memory.readWord, h31.trans (byte31_eq_shift v).symm,
    h23.trans (byte23_eq_field23 v).symm, h15.trans (byte15_eq_field15 v).symm,
    h7.trans (byte7_eq_field7 v).symm, wordOfBytes_bytes]

/-- `r` receives the popped word `v`, then `sp`, read again, loses 4 (R193; log 15). -/
def State.popped (s : State) (r : IReg) (v : Word) : State :=
  (s.setX r v).setX .sp ((s.setX r v).sp - 4#32)

theorem exec_regPop_next {r : IReg} (hr : r ≠ .z) {s : State}
    (hin : (s.sp - 4#32).toNat + 3 < Config.memSize) :
    exec (.regPop (ixIndex r)) s = .next (s.popped r (composed s.mem (s.sp - 4#32).toNat)) := by
  rw [exec_regPop, (wordReadIsBigEndian s.mem _).1 hin, bind_ok, writeX_ne s r _ hr]
  rfl

theorem State.popped_other {r : IReg} (hr : r ≠ .z) (hsp : r ≠ .sp) (s : State) (v : Word) :
    (s.popped r v).readX r = v ∧ (s.popped r v).sp = s.sp - 4#32 := by
  have hread : (s.popped r v).readX r = v :=
    (State.setX_readX_ne _ .sp r _ hsp).trans (s.setX_readX_self r v hr)
  have hkept : (s.setX r v).sp = s.sp := s.setX_readX_ne r .sp v hsp.symm
  exact ⟨hread, congrArg (· - 4#32) hkept⟩

/-- Popping into `sp` keeps the word less 4 (90_conflicts.md C4). -/
theorem State.popped_sp (s : State) (v : Word) : (s.popped .sp v).sp = v - 4#32 := rfl

/-- Two writes of integer registers change nothing but those registers. -/
theorem State.popped_frame (s : State) (r : IReg) (v : Word) :
    (∀ q, q ≠ r → q ≠ .sp → (s.popped r v).readX q = s.readX q) ∧ (s.popped r v).ctrl = s.ctrl ∧
    SameF s (s.popped r v) ∧ (s.popped r v).pc = s.pc ∧ SameLatches s (s.popped r v) ∧
    SameDevices s (s.popped r v) ∧ SameMem s (s.popped r v) := by
  obtain ⟨hx, hf, hpc, ⟨hhalted, hcycles, hfault⟩, ⟨hprng, hout⟩, hmem⟩ := frameBut_setX r s v
  exact ⟨fun q hr hsp => (State.setX_readX_ne _ .sp q _ hsp).trans (hx q hr), s.setX_ctrl r v, hf, hpc,
    ⟨hhalted, hcycles, hfault⟩, ⟨hprng, hout⟩, hmem⟩

/-! ## The obligations -/

/-- Settles O40: the byte read is the result; the range is checked before the destination. -/
theorem loadByteInstruction : Obligations.LoadByteInstruction := by
  refine ⟨encodes_twoFields .loadAtAddr rfl fun _ => rfl, fun d r s hd hin => ?next,
    fun d r s hout => ?outOfRange, fun r s hin => ?zero,
    fun k1 k2 k s h => stopsOnBadInt_of_error rfl (bind_two_firstBad h)⟩
  case next =>
    rw [exec_loadAtAddr, memRead1_ok _ _ hin, bind_ok, writeZN_ne s d _ hd, BitVec.ofNat_toNat]
    exact ⟨_, rfl, intResult_setX_setZN hd s _⟩
  case outOfRange => rw [exec_loadAtAddr, memRead1_error _ _ hout, bind_error, finish_memoryOutOfRange]
  case zero => rw [exec_loadAtAddr, memRead1_ok _ _ hin, bind_ok, writeZN_z, finish_zeroRegisterViolation]

/-- Settles O41, by the byte access at the address that `dest` holds. -/
theorem storeByteInstruction : Obligations.StoreByteInstruction := by
  refine ⟨encodes_twoFields .storeAtAddr rfl fun _ => rfl, fun d r s hwf hin => ?next,
    fun d r s hout => ?outOfRange, fun k1 k2 k s h => stopsOnBadInt_of_error rfl (bind_two_firstBad h)⟩
  case next =>
    obtain ⟨-, m, hwrite, hself, hothers⟩ := (byteAccess s.mem (s.readX d) (byte7 (s.readX r)) hwf).1 hin
    rw [exec_storeAtAddr, hwrite]
    exact ⟨s.setMem m, rfl, hself.trans (byte7_eq_field7 _), hothers, rfl⟩
  case outOfRange => rw [exec_storeAtAddr, memWrite1_error _ _ _ hout, bind_error, finish_memoryOutOfRange]

/-- Settles O42, by the word write at `sp`. -/
theorem pushInstruction : Obligations.PushInstruction := by
  refine ⟨encodes_lowField .regPush rfl fun _ => rfl, fun r s hwf hin => ?next,
    fun r s hout => ?outOfRange, fun k s h => stopsOnBadInt_of_error rfl (bind_regX_bad h _)⟩
  case next =>
    obtain ⟨m, hwrite, hholds⟩ := (wordWriteIsBigEndian s.mem s.sp (s.readX r) hwf).1 hin
    rw [exec_regPush, hwrite]
    exact ⟨(s.setMem m).setX .sp (s.sp + 4#32), rfl, hholds, rfl⟩
  case outOfRange => rw [exec_regPush, memWrite4_error _ _ _ hout, bind_error, finish_memoryOutOfRange]

/-- Settles O43, by the word read at `sp - 4` and the two register writes. -/
theorem popInstruction : Obligations.PopInstruction := by
  refine ⟨encodes_lowField .regPop rfl fun _ => rfl, fun r s hr hin => ?next,
    fun r s hout => ?outOfRange, fun s hin => ?zero,
    fun k s h => stopsOnBadInt_of_error rfl (bind_regX_bad h _)⟩
  case next =>
    exact ⟨_, exec_regPop_next hr hin, fun hsp => s.popped_other hr hsp _, fun hsp => hsp ▸ s.popped_sp _,
      s.popped_frame r _⟩
  case outOfRange => rw [exec_regPop, memRead4_error _ _ hout, bind_error, finish_memoryOutOfRange]
  case zero =>
    rw [exec_regPop, memRead4_ok _ _ hin, bind_ok, writeX_z, bind_error, finish_zeroRegisterViolation]

/-- Settles O44, from O42 and O43: the pop reads the word the push wrote, at the `sp` the push started from. -/
theorem pushThenPopRestores : Obligations.PushThenPopRestores := by
  intro r s hz hsp hwf hin
  obtain ⟨-, hpush, -, -⟩ := pushInstruction
  obtain ⟨-, hpop, -, -, -⟩ := popInstruction
  obtain ⟨t, ht, hholds, hframe⟩ := hpush r s hwf hin
  have hback : t.sp - 4#32 = s.sp := by
    rw [hframe]
    exact BitVec.add_sub_cancel s.sp 4#32
  have hkept (q : IReg) (hq : q ≠ .sp) : t.readX q = s.readX q := by
    rw [hframe]
    exact (State.setX_readX_ne _ .sp q _ hq).trans (s.setMem_readX t.mem q)
  obtain ⟨u, hu, hpopped, -, hothers, -⟩ := hpop r t hz (hback.symm ▸ hin)
  obtain ⟨hur, husp⟩ := hpopped hsp
  rw [hback] at hur husp
  have hrestored : u.readX r = s.readX r := hur.trans (composed_of_holdsWordAt hholds)
  refine ⟨t, u, ht, hu, hrestored, husp, fun q => ?_⟩
  obtain rfl | hqr := eq_or_ne q r
  · exact hrestored
  obtain rfl | hqsp := eq_or_ne q .sp
  · exact husp
  · exact (hothers q hqr hqsp).trans (hkept q hqsp)

end Sys2Proof.Machine
end

section
/-! PROOF. Arithmetic (43_arithmetic.md R200 to R215): the wrapping operations as integer arithmetic, the
instructions with an implicit destination, the integer square root and the generator, and the six obligations
about them. -/
namespace Sys2Proof.Machine
open Sys2Proof Sys2Proof.Safety Sys2Proof.Claims

/-! ## The encoding of a literal (30_encoding.md R96) -/

theorem lit24_eq_fieldLit (w : Word) : lit24 w = fieldLit w :=
  (BitVec.setWidth_eq_extractLsb' (by decide)).symm

theorem encodes_literal (o : NormalOp) {op : Nat} {mk : Lit24 → Instr} (hop : (Config.opcN o).toNat = op)
    (hmk : ∀ w, normalInstr w o = mk (lit24 w)) : Encodes false op fun w => mk (fieldLit w) :=
  encodes_normal o hop fun w => by rw [hmk, lit24_eq_fieldLit]

/-! ## Wrapping arithmetic (R200; D12, log 19)

An operation on words is the operation on the unsigned values, narrowed to 32 bits. -/

theorem ofInt_toNat (v : Word) : BitVec.ofInt 32 v.toNat = v := by
  rw [BitVec.ofInt_natCast, BitVec.ofNat_toNat, BitVec.setWidth_eq]

theorem add_eq_ofInt (u v : Word) : u + v = BitVec.ofInt 32 (u.toNat + v.toNat) := by
  rw [BitVec.ofInt_add, ofInt_toNat, ofInt_toNat]

theorem sub_eq_ofInt (u v : Word) : u - v = BitVec.ofInt 32 (u.toNat - v.toNat) := by
  rw [Int.sub_eq_add_neg, BitVec.ofInt_add, BitVec.ofInt_neg, ofInt_toNat, ofInt_toNat,
    BitVec.sub_eq_add_neg]

theorem mul_eq_ofInt (u v : Word) : u * v = BitVec.ofInt 32 (u.toNat * v.toNat) := by
  rw [BitVec.ofInt_mul, ofInt_toNat, ofInt_toNat]

theorem add_one_eq_ofNat (v : Word) : v + 1#32 = BitVec.ofNat 32 (v.toNat + 1) := by
  rw [BitVec.ofNat_add, BitVec.ofNat_toNat, BitVec.setWidth_eq]

theorem litWord_eq_ofNat (l : Lit24) : litWord l = BitVec.ofNat 32 l.toNat :=
  (BitVec.ofNat_toNat 32 l).symm

/-! ## An instruction that sets one register and the flags -/

theorem exists_intResult_of_setZNReg {i : Instr} {s : State} {d : IReg} {u v : Word} (hd : d ≠ .z)
    (hexec : exec i s = .next (setZNReg s d u)) (huv : u = v) :
    ∃ t, exec i s = .next t ∧ IntResult s t d v :=
  ⟨_, hexec, huv ▸ intResult_setX_setZN hd s u⟩

/-! ## The integer square root (R213; D19, log 19) -/

/-- The root of a 32-bit value fits 16 bits, so narrowing it to a word loses nothing. -/
theorem intSqrt_toNat (v : Word) : (intSqrt v).toNat = isqrt 16 v.toNat := by
  have hv : v.toNat < 2 ^ 16 * 2 ^ 16 := v.isLt
  obtain ⟨hle, -⟩ := isqrt_spec 16 v.toNat hv
  have hroot : isqrt 16 v.toNat < 2 ^ 16 := Nat.mul_self_lt_mul_self_iff.1 (hle.trans_lt hv)
  exact BitVec.toNat_ofNat .. |>.trans (Nat.mod_eq_of_lt (hroot.trans (by decide)))

theorem intSqrt_spec (v : Word) : (intSqrt v).toNat * (intSqrt v).toNat ≤ v.toNat ∧
    v.toNat < ((intSqrt v).toNat + 1) * ((intSqrt v).toNat + 1) := by
  rw [intSqrt_toNat]
  exact isqrt_spec 16 v.toNat v.isLt

theorem exec_sqrtRI (r : IReg) (s : State) :
    exec (.sqrtRI (ixIndex r)) s = finish s (writeZN s r (intSqrt (s.readX r))) := by
  simp [exec, execSqrtRI]

theorem exec_sqrtRI_next {d : IReg} (hd : d ≠ .z) (s : State) :
    exec (.sqrtRI (ixIndex d)) s = .next (setZNReg s d (intSqrt (s.readX d))) := by
  rw [exec_sqrtRI, writeZN_ne s d _ hd]
  rfl

/-! ## Instructions that read one register (30_encoding.md R95) -/

/-- A normal operation that runs as `execSource` has the rule of a register read. -/
theorem sourceRule_of_execSource (o : NormalOp) {op : Nat} {mk : Byte → Instr} {f : State → Word → State}
    (hop : (Config.opcN o).toNat = op) (hmk : ∀ w, normalInstr w o = mk (byte7 w))
    (hexec : ∀ k s, exec (mk k) s = execSource (f s) k s) : SourceRule op mk f := by
  refine ⟨encodes_lowField o hop hmk, fun r s => ?_, fun k s h => ?_⟩
  · exact (hexec _ s).trans (execSource_next.2 ⟨r, regX_ixIndex r, rfl⟩)
  · exact stopsOnBadInt_of_error (hexec k s) (bind_regX_bad h _)

/-! ## The generator (R214, R215, 10_state.md R41) -/

theorem sourceRule_rndSeed : SourceRule 0x2D .rndSeed fun s v => s.setPrng (prngSeed v) :=
  sourceRule_of_execSource .rndSeed rfl (fun _ => rfl) fun _ _ => rfl

theorem exec_rndNum (r : IReg) (s : State) : exec (.rndNum (ixIndex r)) s =
    finish s (writeZN (s.setPrng (prngAdvance s.prng)) r (prngNumber s.prng)) := by
  simp [exec, execRndNum]

/-- The state after a draw into `d`: the generator advanced, `d` and the flags set by the number. -/
def State.drawn (s : State) (d : IReg) : State :=
  setZNReg (s.setPrng (prngAdvance s.prng)) d (prngNumber s.prng)

theorem exec_rndNum_next {d : IReg} (hd : d ≠ .z) (s : State) :
    exec (.rndNum (ixIndex d)) s = .next (s.drawn d) := by
  rw [exec_rndNum, writeZN_ne _ d _ hd]
  rfl

/-- A draw is an integer result on the state whose generator has advanced, and that state differs from `s`
in the generator alone. -/
theorem State.drawn_spec {d : IReg} (hd : d ≠ .z) (s : State) :
    (s.drawn d).prng = prngAdvance s.prng ∧ (s.drawn d).readX d = prngNumber s.prng ∧
    FlagsOf (prngNumber s.prng) s (s.drawn d) ∧ SameXBut d s (s.drawn d) ∧ SameF s (s.drawn d) ∧
    (s.drawn d).pc = s.pc ∧ SameLatches s (s.drawn d) ∧ (s.drawn d).out = s.out ∧
    SameMem s (s.drawn d) := by
  obtain ⟨hresult, hflags, hx, hf, hpc, hlatches, ⟨hprng, hout⟩, hmem⟩ :=
    intResult_setX_setZN hd (s.setPrng (prngAdvance s.prng)) (prngNumber s.prng)
  exact ⟨hprng, hresult, hflags, fun r hr => (hx r hr).trans (s.setPrng_readX _ r),
    fun r => (hf r).trans (s.setPrng_readF _ r), hpc, hlatches, hout, hmem⟩

/-! ## The obligations -/

/-- Settles O34, by the rule of format DSI. -/
theorem arithmeticImmediateInstructions : Obligations.ArithmeticImmediateInstructions :=
  ⟨dsiRule_of_execDsi .addDsi rfl (fun _ => rfl) (fun _ _ _ _ => rfl) add_eq_ofInt,
    dsiRule_of_execDsi .subDsi rfl (fun _ => rfl) (fun _ _ _ _ => rfl) sub_eq_ofInt,
    dsiRule_of_execDsi .multDsi rfl (fun _ => rfl) (fun _ _ _ _ => rfl) mul_eq_ofInt⟩

/-- Settles O35, by the rule of format DSS. -/
theorem arithmeticRegisterInstructions : Obligations.ArithmeticRegisterInstructions :=
  ⟨dssRule_of_execDss .addDss rfl (fun _ => rfl) (fun _ _ _ _ => rfl) add_eq_ofInt,
    dssRule_of_execDss .subDss rfl (fun _ => rfl) (fun _ _ _ _ => rfl) sub_eq_ofInt,
    dssRule_of_execDss .multDss rfl (fun _ => rfl) (fun _ _ _ _ => rfl) mul_eq_ofInt⟩

/-- Settles O36: each load sets its register to the literal as a word. -/
theorem loadImmediateInstructions : Obligations.LoadImmediateInstructions :=
  ⟨encodes_literal .ldImA rfl fun _ => rfl, encodes_literal .ldImB rfl fun _ => rfl,
    encodes_literal .ldImX rfl fun _ => rfl, fun l _ =>
      ⟨exists_intResult_of_setZNReg nofun rfl (litWord_eq_ofNat l),
        exists_intResult_of_setZNReg nofun rfl (litWord_eq_ofNat l),
        exists_intResult_of_setZNReg nofun rfl (litWord_eq_ofNat l)⟩⟩

/-- Settles O37: each increment sets its register to the wrapping sum. -/
theorem incrementInstructions : Obligations.IncrementInstructions :=
  ⟨encodes_normal .incA rfl fun _ => rfl, encodes_normal .incB rfl fun _ => rfl,
    encodes_normal .incX rfl fun _ => rfl, fun s =>
      ⟨exists_intResult_of_setZNReg nofun rfl (add_one_eq_ofNat s.a),
        exists_intResult_of_setZNReg nofun rfl (add_one_eq_ofNat s.b),
        exists_intResult_of_setZNReg nofun rfl (add_one_eq_ofNat s.x)⟩⟩

/-- Settles O38: the bitwise search finds the floor of the root, and the floor fits the register. -/
theorem integerSquareRoot : Obligations.IntegerSquareRoot := by
  refine ⟨encodes_lowField .sqrtRI rfl fun _ => rfl, fun d s hd => ?next, fun s => ?zero,
    fun k s h => stopsOnBadInt_of_error rfl (bind_regX_bad h _)⟩
  case next =>
    exact ⟨_, _, exec_sqrtRI_next hd s, intResult_setX_setZN hd s _, intSqrt_spec (s.readX d)⟩
  case zero => rw [exec_sqrtRI, writeZN_z, finish_zeroRegisterViolation]

/-- Settles O39: the functions are the model's `prngSeed`, `prngNumber` and `prngAdvance`, whatever numbers the
free value `prngValue` gives. -/
theorem randomInstructions : Obligations.RandomInstructions := by
  obtain ⟨hencodes, hseed, hbad⟩ := sourceRule_rndSeed
  refine ⟨hencodes, encodes_lowField .rndNum rfl fun _ => rfl, prngSeed, prngNumber, prngAdvance, hseed,
    fun d s hd => ?next, fun s => ?zero, fun k s h => ⟨hbad k s h, ?bad⟩⟩
  case next => exact ⟨s.drawn d, exec_rndNum_next hd s, s.drawn_spec hd⟩
  case zero => rw [exec_rndNum, writeZN_z, finish_zeroRegisterViolation]
  case bad => exact stopsOnBadInt_of_error rfl (bind_regX_bad h _)

end Sys2Proof.Machine
end

section
/-! PROOF. Control (44_control.md R230 to R240): each jump as one assignment of `pc`, a branch as the jump of its
own literal or nothing, the halted tick, the comparisons by the rule of format PAIR, and the five obligations
about them. -/
namespace Sys2Proof.Machine
open Sys2Proof Sys2Proof.Safety Sys2Proof.Claims

/-! ## Jumps (R230, R231) -/

/-- The wrap of a relative target is the wrap of the word addition (D17, log 19). -/
theorem relTarget_eq_add (pc : Word) (l : Lit24) : relTarget pc l = pc + BitVec.ofInt 32 (jumpOffset l) := by
  rw [relTarget, BitVec.ofInt_add, ofInt_toNat]

theorem exec_jmp (l : Lit24) (s : State) :
    exec (.jmp l) s = .next (s.setPc (BitVec.ofNat 32 l.toNat)) := by
  rw [← litWord_eq_ofNat]
  rfl

theorem exec_jmpWithOffset (l : Lit24) (s : State) :
    exec (.jmpWithOffset l) s = .next (s.setPc (s.pc + BitVec.ofInt 32 (jumpOffset l))) := by
  rw [← relTarget_eq_add]
  rfl

theorem exec_callFnI (l : Lit24) (s : State) :
    exec (.callFnI l) s = .next ((s.setX .ra s.pc).setPc (BitVec.ofNat 32 l.toNat)) := by
  rw [← litWord_eq_ofNat]
  rfl

/-! ## Branches (R232, R233; D11, log 13) -/

theorem exec_bnch_taken (l : Lit24) {s : State} (h : s.ctrl.testTrue = true) :
    exec (.bnch l) s = exec (.jmp l) s :=
  congrArg Host.Outcome.next (if_pos h)

theorem exec_bnchWithOffset_taken (l : Lit24) {s : State} (h : s.ctrl.testTrue = true) :
    exec (.bnchWithOffset l) s = exec (.jmpWithOffset l) s :=
  congrArg Host.Outcome.next (if_pos h)

theorem exec_bnch_not_taken (l : Lit24) {s : State} (h : s.ctrl.testTrue = false) :
    exec (.bnch l) s = .next s :=
  congrArg Host.Outcome.next (if_neg (Bool.eq_false_iff.1 h))

theorem exec_bnchWithOffset_not_taken (l : Lit24) {s : State} (h : s.ctrl.testTrue = false) :
    exec (.bnchWithOffset l) s = .next s :=
  congrArg Host.Outcome.next (if_neg (Bool.eq_false_iff.1 h))

/-! ## Comparisons (R237, R238; D29, log 19) -/

theorem encodes_pair (o : NormalOp) {op : Nat} {mk : Byte → Byte → Instr} (hop : (Config.opcN o).toNat = op)
    (hmk : ∀ w, normalInstr w o = mk (byte15 w) (byte7 w)) :
    Encodes false op fun w => mk (field15 w) (field7 w) :=
  encodes_normal o hop fun w => by rw [hmk, byte15_eq_field15, byte7_eq_field7]

/-- A normal operation that runs as `execPair` has the rule of a comparison for any relation that its Boolean
test decides. -/
theorem pairRule_of_execPair (o : NormalOp) {op : Nat} {mk : Byte → Byte → Instr}
    {test : Word → Word → Prop} {g : Word → Word → Bool} (hop : (Config.opcN o).toNat = op)
    (hmk : ∀ w, normalInstr w o = mk (byte15 w) (byte7 w))
    (hexec : ∀ l r s, exec (mk l r) s = execPair g l r s) (hg : ∀ u v, g u v = true ↔ test u v) :
    PairRule op mk test := by
  refine ⟨encodes_pair o hop hmk, fun l r s => ?_, fun k1 k2 k s h => ?_⟩
  · refine ⟨g (s.readX l) (s.readX r), hg _ _, ?_⟩
    exact (hexec _ _ s).trans (execPair_next.2 ⟨l, r, regX_ixIndex l, regX_ixIndex r, rfl⟩)
  · exact stopsOnBadInt_of_error (hexec k1 k2 s) (bind_two_firstBad h)

theorem beq_iff_toNat_eq (u v : Word) : (u == v) = true ↔ u.toNat = v.toNat :=
  beq_iff_eq.trans BitVec.toNat_inj.symm

theorem bne_iff_toNat_ne (u v : Word) : (u != v) = true ↔ u.toNat ≠ v.toNat :=
  bne_iff_ne.trans BitVec.toNat_inj.symm.not

/-! ## The obligations -/

/-- Settles O45: each jump is one assignment of `pc`. -/
theorem jumpInstructions : Obligations.JumpInstructions :=
  ⟨encodes_literal .jmp rfl fun _ => rfl, encodes_literal .jmpWithOffset rfl fun _ => rfl,
    fun l s => ⟨exec_jmp l s, exec_jmpWithOffset l s⟩⟩

/-- Settles O46, from the jumps of O45: a branch taken is the jump of its literal. -/
theorem branchInstructions : Obligations.BranchInstructions := by
  refine ⟨encodes_literal .bnch rfl fun _ => rfl, encodes_literal .bnchWithOffset rfl fun _ => rfl,
    fun l s => ⟨fun htaken => ?taken, fun hnot => ?notTaken⟩⟩
  case taken =>
    exact ⟨(exec_bnch_taken l htaken).trans (exec_jmp l s),
      (exec_bnchWithOffset_taken l htaken).trans (exec_jmpWithOffset l s)⟩
  case notTaken => exact ⟨exec_bnch_not_taken l hnot, exec_bnchWithOffset_not_taken l hnot⟩

/-- Settles O47: the call is a link in `ra` and a jump; RET is the model's own equation. -/
theorem callAndReturn : Obligations.CallAndReturn :=
  ⟨encodes_literal .callFnI rfl fun _ => rfl, encodes_normal .ret rfl fun _ => rfl,
    fun l s => ⟨exec_callFnI l s, rfl⟩⟩

/-- Settles O48: the two latches are the model's own equations; the later ticks stop at the halted test. -/
theorem haltAndExtendedPrefix : Obligations.HaltAndExtendedPrefix :=
  ⟨encodes_normal .halt rfl fun _ => rfl, encodes_normal .extInstr rfl fun _ => rfl,
    fun _ => ⟨rfl, rfl⟩, fun s hfault hz => step_of_halted (s := { s with halted := true }) hfault hz rfl⟩

/-- Settles O49, by the rule of format PAIR; TEST_CTRL_NEG is the model's own equation. -/
theorem testInstructions : Obligations.TestInstructions :=
  ⟨pairRule_of_execPair .testEq rfl (fun _ => rfl) (fun _ _ _ => rfl) beq_iff_toNat_eq,
    pairRule_of_execPair .testNeq rfl (fun _ => rfl) (fun _ _ _ => rfl) bne_iff_toNat_ne,
    encodes_normal .testCtrlNeg rfl fun _ => rfl, fun _ => rfl⟩

end Sys2Proof.Machine
end

section
/-! PROOF. Output (45_io.md R251, R252): the rule of a register read at the two instructions that emit an event,
and the obligation about them. -/
namespace Sys2Proof.Machine
open Sys2Proof Sys2Proof.Claims

/-- PUTC_R emits its register narrowed to the low 8 bits (R252). -/
theorem exec_putcR (k : Byte) (s : State) :
    exec (.putcR k) s = execSource (fun v => s.emit (.char (v.setWidth 8))) k s := by
  simp only [exec, execPutcR, byte7_eq_field7, field7]

theorem sourceRule_printIR : SourceRule 0x27 .printIR fun s v => s.emit (.int v) :=
  sourceRule_of_execSource .printIR rfl (fun _ => rfl) fun _ _ => rfl

theorem sourceRule_putcR : SourceRule 0x28 .putcR fun s v => s.emit (.char (v.setWidth 8)) :=
  sourceRule_of_execSource .putcR rfl (fun _ => rfl) exec_putcR

/-- Settles O50: to emit an event is to append it to `out` and to change nothing else. -/
theorem outputInstructions : Obligations.OutputInstructions :=
  ⟨sourceRule_printIR, sourceRule_putcR⟩

end Sys2Proof.Machine
end

section
/-! PROOF. The isolation of the float registers (46_extended_float.md R273): states that differ only there stay
so through every update and every instruction, and the obligation about the tick. -/
namespace Sys2Proof.Machine
open Sys2Proof Sys2Proof.Safety Sys2Proof.Claims

/-! ## States that differ only in the float registers -/

theorem agreeButFloats_iff {s t : State} : AgreeButFloats s t ↔ OnlyFloats s t := by
  constructor
  · intro h
    exact ⟨_, _, _, _, h⟩
  · rintro ⟨_, _, _, _, rfl⟩
    rfl

namespace OnlyFloats

variable {s t u : State}

theorem symm (h : OnlyFloats s t) : OnlyFloats t s := by
  obtain ⟨_, _, _, _, rfl⟩ := h
  exact ⟨s.fa, s.fb, s.fx, s.freeDraws, rfl⟩

theorem trans (hst : OnlyFloats s t) (htu : OnlyFloats t u) : OnlyFloats s u := by
  obtain ⟨_, _, _, _, rfl⟩ := hst
  obtain ⟨_, _, _, _, rfl⟩ := htu
  exact ⟨_, _, _, _, rfl⟩

theorem pc_eq (h : OnlyFloats s t) : t.pc = s.pc := by
  obtain ⟨_, _, _, _, rfl⟩ := h
  rfl

theorem sp_eq (h : OnlyFloats s t) : t.sp = s.sp :=
  h.sameX .sp

theorem ra_eq (h : OnlyFloats s t) : t.ra = s.ra :=
  h.sameX .ra

theorem mem_eq (h : OnlyFloats s t) : t.mem = s.mem := by
  obtain ⟨_, _, _, _, rfl⟩ := h
  rfl

theorem prng_eq (h : OnlyFloats s t) : t.prng = s.prng := by
  obtain ⟨_, _, _, _, rfl⟩ := h
  rfl

theorem fault_eq (h : OnlyFloats s t) : t.fault = s.fault := by
  obtain ⟨_, _, _, _, rfl⟩ := h
  rfl

theorem halted_eq (h : OnlyFloats s t) : t.halted = s.halted := by
  obtain ⟨_, _, _, _, rfl⟩ := h
  rfl

/-- An update that neither reads nor writes what may differ commutes with the difference. -/
theorem map {f : State → State} (h : OnlyFloats s t)
    (hf : ∀ (s : State) (u v w : F64) (n : Nat), f { s with fa := u, fb := v, fx := w, freeDraws := n } =
      { f s with fa := u, fb := v, fx := w, freeDraws := n }) : OnlyFloats (f s) (f t) := by
  obtain ⟨u, v, w, n, rfl⟩ := h
  exact ⟨u, v, w, n, hf s u v w n⟩

theorem setX (h : OnlyFloats s t) (d : IReg) (v : Word) : OnlyFloats (s.setX d v) (t.setX d v) :=
  h.map (f := (·.setX d v)) fun _ _ _ _ _ => by cases d <;> rfl

theorem setZN (h : OnlyFloats s t) (v : Word) : OnlyFloats (s.setZN v) (t.setZN v) :=
  h.map (f := (·.setZN v)) fun _ _ _ _ _ => rfl

theorem setPc (h : OnlyFloats s t) (v : Word) : OnlyFloats (s.setPc v) (t.setPc v) :=
  h.map (f := (·.setPc v)) fun _ _ _ _ _ => rfl

theorem setMem (h : OnlyFloats s t) (m : Memory) : OnlyFloats (s.setMem m) (t.setMem m) :=
  h.map (f := (·.setMem m)) fun _ _ _ _ _ => rfl

theorem setPrng (h : OnlyFloats s t) (p : Prng) : OnlyFloats (s.setPrng p) (t.setPrng p) :=
  h.map (f := (·.setPrng p)) fun _ _ _ _ _ => rfl

theorem setTest (h : OnlyFloats s t) (b : Bool) : OnlyFloats (s.setTest b) (t.setTest b) :=
  h.map (f := (·.setTest b)) fun _ _ _ _ _ => rfl

theorem setExt (h : OnlyFloats s t) (b : Bool) : OnlyFloats (s.setExt b) (t.setExt b) :=
  h.map (f := (·.setExt b)) fun _ _ _ _ _ => rfl

theorem setHalted (h : OnlyFloats s t) : OnlyFloats { s with halted := true } { t with halted := true } :=
  h.map (f := fun s => { s with halted := true }) fun _ _ _ _ _ => rfl

theorem emit (h : OnlyFloats s t) (e : OutEvent) : OnlyFloats (s.emit e) (t.emit e) :=
  h.map (f := (·.emit e)) fun _ _ _ _ _ => rfl

theorem latch (h : OnlyFloats s t) (e : RunError) (addr : Word) :
    OnlyFloats (s.latch e addr) (t.latch e addr) :=
  h.map (f := (·.latch e addr)) fun _ _ _ _ _ => rfl

theorem countTick (h : OnlyFloats s t) : OnlyFloats s.countTick t.countTick :=
  h.map (f := State.countTick) fun _ _ _ _ _ => rfl

theorem beginDispatch (h : OnlyFloats s t) : OnlyFloats s.beginDispatch t.beginDispatch :=
  h.map (f := State.beginDispatch) fun _ _ _ _ _ => rfl

end OnlyFloats

/-! ## Results and outcomes that agree -/

/-- Both ends of a pseudocode are states that differ only in the float registers, or the same error. -/
inductive ResultsAgree : Except Err State → Except Err State → Prop where
  | ok {s t : State} (h : OnlyFloats s t) : ResultsAgree (.ok s) (.ok t)
  | error (e : Err) : ResultsAgree (.error e) (.error e)

namespace ResultsAgree

/-- A step that answers alike in both runs leaves the agreement to what follows it. -/
theorem bind {α : Type} (r : Except Err α) {f g : α → Except Err State}
    (h : ∀ v, ResultsAgree (f v) (g v)) : ResultsAgree (r >>= f) (r >>= g) := by
  cases r with
  | ok v => exact h v
  | error e => exact .error e

/-- States that differ only in the float registers so far are passed to what follows. -/
theorem andThen {p q : Except Err State} {f g : State → Except Err State} (hpq : ResultsAgree p q)
    (h : ∀ {s t : State}, OnlyFloats s t → ResultsAgree (f s) (g t)) :
    ResultsAgree (p >>= f) (q >>= g) := by
  cases hpq with
  | ok hst => exact h hst
  | error e => exact .error e

variable {s t : State}

theorem writeX (h : OnlyFloats s t) (d : IReg) (v : Word) :
    ResultsAgree (s.writeX d v) (t.writeX d v) := by
  obtain rfl | hd := eq_or_ne d .z
  · exact .error _
  · rw [writeX_ne s d v hd, writeX_ne t d v hd]
    exact .ok (h.setX d v)

theorem writeZN (h : OnlyFloats s t) (d : IReg) (v : Word) :
    ResultsAgree (writeZN s d v) (writeZN t d v) := by
  obtain rfl | hd := eq_or_ne d .z
  · exact .error _
  · rw [writeZN_ne s d v hd, writeZN_ne t d v hd]
    exact .ok ((h.setX d v).setZN v)

/-- Two writes of a float register agree whatever they write: only `f0` decides how they end. -/
theorem writeResult (h : OnlyFloats s t) (d : FReg) (src : Config.NanSource) (a b a' b' : F64)
    (r r' : FpResult) :
    ResultsAgree (writeResult s d src a b r) (writeResult t d src a' b' r') := by
  obtain rfl | hd := eq_or_ne d .f0
  · exact .error _
  · rw [writeResult_eq_ok.2 ⟨hd, rfl⟩, writeResult_eq_ok.2 ⟨hd, rfl⟩]
    exact .ok (((OnlyFloats.of_set s d _ _).symm.trans h).trans (OnlyFloats.of_set t d _ _))

end ResultsAgree

section Outcomes

variable {s t : State}

theorem outcomesAgree_next (h : OnlyFloats s t) : OutcomesAgree (.next s) (.next t) :=
  agreeButFloats_iff.2 h

theorem outcomesAgree_raise (h : OnlyFloats s t) (e : Err) (addr : Word) :
    OutcomesAgree (raise e addr s) (raise e addr t) := by
  cases e with
  | zeroRegisterViolation => trivial
  | run r =>
    have hleft : AgreeButFloats (s.latch r addr) (t.latch r addr) := agreeButFloats_iff.2 (h.latch r addr)
    cases r with
    | unknownOpcode op w => exact ⟨rfl, rfl, hleft⟩
    | invalidRegister k c => exact ⟨rfl, rfl, hleft⟩
    | memoryOutOfRange a => exact ⟨rfl, hleft⟩

theorem outcomesAgree_finish (h : OnlyFloats s t) {p q : Except Err State} (hpq : ResultsAgree p q) :
    OutcomesAgree (finish s p) (finish t q) := by
  cases hpq with
  | ok hst => exact outcomesAgree_next hst
  | error e =>
    rw [finish_error, finish_error, h.pc_eq]
    exact outcomesAgree_raise h e _

end Outcomes

/-! ## The shared execution orders -/

section ExecutionOrders

variable {s t : State}

theorem execDss_agree (h : OnlyFloats s t) (op : Word → Word → Word) (d s1 s2 : Byte) :
    OutcomesAgree (execDss op d s1 s2 s) (execDss op d s1 s2 t) := by
  simp only [execDss, h.sameX _]
  exact outcomesAgree_finish h (.bind _ fun rd => .bind _ fun _ => .bind _ fun _ => .writeZN h rd _)

theorem execDsi_agree (h : OnlyFloats s t) (op : Word → Word → Word) (d r imm : Byte) :
    OutcomesAgree (execDsi op d r imm s) (execDsi op d r imm t) := by
  simp only [execDsi, h.sameX _]
  exact outcomesAgree_finish h (.bind _ fun rd => .bind _ fun _ => .writeZN h rd _)

theorem execDs_agree (h : OnlyFloats s t) (op : Word → Word) (d r : Byte) :
    OutcomesAgree (execDs op d r s) (execDs op d r t) := by
  simp only [execDs, h.sameX _]
  exact outcomesAgree_finish h (.bind _ fun rd => .bind _ fun _ => .writeZN h rd _)

theorem execPair_agree (h : OnlyFloats s t) (test : Word → Word → Bool) (l r : Byte) :
    OutcomesAgree (execPair test l r s) (execPair test l r t) := by
  simp only [execPair, h.sameX _]
  exact outcomesAgree_finish h (.bind _ fun _ => .bind _ fun _ => .ok (h.setTest _))

theorem execSource_agree (h : OnlyFloats s t) {f g : Word → State} (hfg : ∀ v, OnlyFloats (f v) (g v))
    (r : Byte) : OutcomesAgree (execSource f r s) (execSource g r t) := by
  simp only [execSource, h.sameX _]
  exact outcomesAgree_finish h (.bind _ fun _ => .ok (hfg _))

theorem execFloatDss_agree (h : OnlyFloats s t) (op : F64 → F64 → FpResult) (src : Config.NanSource)
    (d s1 s2 : Byte) : OutcomesAgree (execFloatDss op src d s1 s2 s) (execFloatDss op src d s1 s2 t) :=
  outcomesAgree_finish h
    (.bind _ fun rd => .bind _ fun _ => .bind _ fun _ => .writeResult h rd src _ _ _ _ _ _)

theorem execFloatDsi_agree (h : OnlyFloats s t) (op : F64 → F64 → FpResult) (src : Config.NanSource)
    (d r imm : Byte) : OutcomesAgree (execFloatDsi op src d r imm s) (execFloatDsi op src d r imm t) :=
  outcomesAgree_finish h (.bind _ fun rd => .bind _ fun _ => .writeResult h rd src _ _ _ _ _ _)

theorem setZNReg_agree (h : OnlyFloats s t) (d : IReg) {u v : Word} (huv : v = u) :
    OutcomesAgree (.next (setZNReg s d u)) (.next (setZNReg t d v)) :=
  huv ▸ outcomesAgree_next ((h.setX d v).setZN v)

end ExecutionOrders

/-! ## Every instruction, and the tick -/

/-- No instruction lets a float register reach anything else (R273): an integer instruction reads none, and a
float instruction writes only one. -/
theorem exec_agree {s t : State} (h : OnlyFloats s t) (i : Instr) :
    OutcomesAgree (exec i s) (exec i t) := by
  cases i with
  | andR | orR | xorR | llshR | alshR | lrshR | arshR | addDss | subDss | multDss =>
    exact execDss_agree h _ _ _ _
  | andI | orI | xorI | llshI | alshI | lrshI | arshI | addDsi | subDsi | multDsi =>
    exact execDsi_agree h _ _ _ _
  | move => exact execDs_agree h (fun u => u) _ _
  | notR => exact execDs_agree h (fun u => u ^^^ 0xFFFFFFFF#32) _ _
  | testEq | testNeq => exact execPair_agree h _ _ _
  | ldImA | ldImB | ldImX => exact setZNReg_agree h _ rfl
  | incA => exact setZNReg_agree h .a (congrArg (· + 1#32) (h.sameX .a))
  | incB => exact setZNReg_agree h .b (congrArg (· + 1#32) (h.sameX .b))
  | incX => exact setZNReg_agree h .x (congrArg (· + 1#32) (h.sameX .x))
  | printIR => exact execSource_agree h (fun _ => h.emit _) _
  | putcR => exact execSource_agree h (fun v => h.emit (.char (byte7 v))) _
  | rndSeed => exact execSource_agree h (fun _ => h.setPrng _) _
  | rndNum =>
    simp only [exec, execRndNum, h.prng_eq]
    exact outcomesAgree_finish h (.bind _ fun rd => .writeZN (h.setPrng _) rd _)
  | sqrtRI =>
    simp only [exec, execSqrtRI, h.sameX _]
    exact outcomesAgree_finish h (.bind _ fun rd => .writeZN h rd _)
  | popcnt =>
    simp only [exec, execPopcnt, h.sameX _]
    exact outcomesAgree_finish h (.bind _ fun rd => .bind _ fun _ => .writeX h rd _)
  | loadAtAddr =>
    simp only [exec, execLoadAtAddr, h.sameX _, h.mem_eq]
    exact outcomesAgree_finish h (.bind _ fun rd => .bind _ fun _ => .bind _ fun _ => .writeZN h rd _)
  | storeAtAddr =>
    simp only [exec, execStoreAtAddr, h.sameX _, h.mem_eq]
    exact outcomesAgree_finish h (.bind _ fun _ => .bind _ fun _ => .bind _ fun _ => .ok (h.setMem _))
  | regPush =>
    simp only [exec, execRegPush, h.sameX _, h.mem_eq, h.sp_eq]
    exact outcomesAgree_finish h (.bind _ fun _ => .bind _ fun _ => .ok ((h.setMem _).setX .sp _))
  | regPop =>
    simp only [exec, execRegPop, h.mem_eq, h.sp_eq]
    refine outcomesAgree_finish h (.bind _ fun rd => .bind _ fun v =>
      (ResultsAgree.writeX h rd v).andThen fun hwritten => ?_)
    rw [hwritten.sp_eq]
    exact .ok (hwritten.setX .sp _)
  | jmp => exact outcomesAgree_next (h.setPc _)
  | jmpWithOffset l =>
    simp only [exec, execJmpWithOffset, h.pc_eq]
    exact outcomesAgree_next (h.setPc _)
  | bnch l =>
    simp only [exec, execBnch, h.ctrl_eq]
    split
    · exact outcomesAgree_next (h.setPc _)
    · exact outcomesAgree_next h
  | bnchWithOffset l =>
    simp only [exec, execBnchWithOffset, h.ctrl_eq, h.pc_eq]
    split
    · exact outcomesAgree_next (h.setPc _)
    · exact outcomesAgree_next h
  | callFnI =>
    simp only [exec, execCallFnI, h.pc_eq]
    exact outcomesAgree_next ((h.setX .ra _).setPc _)
  | ret =>
    simp only [exec, execRet, h.ra_eq]
    exact outcomesAgree_next (h.setPc _)
  | halt => exact outcomesAgree_next h.setHalted
  | testCtrlNeg =>
    simp only [exec, execTestCtrlNeg, h.ctrl_eq]
    exact outcomesAgree_next (h.setTest _)
  | extInstr => exact outcomesAgree_next (h.setExt true)
  | faddDss | fsubDss | fmultDss => exact execFloatDss_agree h _ _ _ _ _
  | faddDsi | fsubDsi | fmultDsi => exact execFloatDsi_agree h _ _ _ _ _
  | fsqrtRI => exact outcomesAgree_finish h (.bind _ fun rd => .writeResult h rd .sqrt _ _ _ _ _ _)
  | loadFimFa => exact outcomesAgree_finish h (.writeResult h .fa .widen _ _ _ _ _ _)
  | loadFimFb => exact outcomesAgree_finish h (.writeResult h .fb .widen _ _ _ _ _ _)

theorem dispatchWord_agree {s t : State} (h : OnlyFloats s t) (w : Word) :
    OutcomesAgree (dispatchWord s w) (dispatchWord t w) := by
  simp only [dispatchWord, h.ctrl_eq, h.pc_eq]
  split
  · exact exec_agree h.beginDispatch _
  · exact outcomesAgree_raise h.beginDispatch _ _

theorem step_agree {s t : State} (h : OnlyFloats s t) : OutcomesAgree (step s) (step t) := by
  have hz : t.z = s.z := h.sameX .z
  by_cases hfault : s.fault = none
  case neg =>
    rw [step_of_faulted hfault, step_of_faulted (h.fault_eq ▸ hfault)]
    exact outcomesAgree_next h
  by_cases hzero : s.z = 0#32
  case neg =>
    rw [step_of_nonzero_z hfault hzero, step_of_nonzero_z (h.fault_eq.trans hfault) (hz ▸ hzero)]
    trivial
  by_cases hhalted : s.halted = true
  case pos =>
    rw [step_of_halted hfault hzero hhalted,
      step_of_halted (h.fault_eq.trans hfault) (hz.trans hzero) (h.halted_eq.trans hhalted)]
    exact outcomesAgree_next h.countTick
  have hs : Running s := ⟨hfault, hzero, Bool.eq_false_iff.2 hhalted⟩
  have ht : Running t := by rwa [Running, h.fault_eq, hz, h.halted_eq]
  rcases Nat.lt_or_ge (s.pc.toNat + 3) Config.memSize with hpc | hpc
  · rw [step_running hs hpc, step_running ht (h.pc_eq ▸ hpc), h.mem_eq, h.pc_eq]
    exact dispatchWord_agree h.countTick _
  · rw [step_of_fetch_out_of_range hs hpc, step_of_fetch_out_of_range ht (h.pc_eq ▸ hpc), h.pc_eq]
    exact ⟨rfl, agreeButFloats_iff.2 (h.countTick.latch _ _)⟩

/-! ## The obligation -/

/-- Settles O27: whatever ends a tick reads no float register, and no update but the write of a float register
touches one. -/
theorem floatRegistersAreIsolated : Obligations.FloatRegistersAreIsolated :=
  fun _ _ h => step_agree (agreeButFloats_iff.1 h)

end Sys2Proof.Machine
end

section
/-! PROOF. The float instructions (46_extended_float.md R262 to R272): what the write of a result leaves, the
literals as binary32 patterns (30_encoding.md R99), the rules of the formats DSI and DSS over the float
registers, and the four obligations about them. -/
namespace Sys2Proof.Machine
open Sys2Proof Sys2Proof.Safety Sys2Proof.Claims

/-! ## The encoding of the extended table (30_encoding.md R104, R106) -/

/-- An operation of the extended table is encoded by its opcode byte and its format. -/
theorem encodes_extended (o : ExtendedOp) {op : Nat} {mk : Word → Instr} (hop : (Config.opcX o).toNat = op)
    (hmk : ∀ w, extendedInstr w o = mk w) : Encodes true op mk := by
  intro w hw
  have hbyte : byte31 w = Config.opcX o := BitVec.eq_of_toNat_eq (by rw [byte31_toNat, hw, hop])
  rw [decode_extended hbyte, hmk]

theorem encodes_extended_threeFields (o : ExtendedOp) {op : Nat} {mk : Byte → Byte → Byte → Instr}
    (hop : (Config.opcX o).toNat = op) (hmk : ∀ w, extendedInstr w o = mk (byte23 w) (byte15 w) (byte7 w)) :
    Encodes true op fun w => mk (field23 w) (field15 w) (field7 w) :=
  encodes_extended o hop fun w => by
    rw [hmk, byte23_eq_field23, byte15_eq_field15, byte7_eq_field7]

theorem encodes_extended_literal (o : ExtendedOp) {op : Nat} {mk : Lit24 → Instr}
    (hop : (Config.opcX o).toNat = op) (hmk : ∀ w, extendedInstr w o = mk (lit24 w)) :
    Encodes true op fun w => mk (fieldLit w) :=
  encodes_extended o hop fun w => by rw [hmk, lit24_eq_fieldLit]

/-! ## Fields outside the float register table (R102, 60_exceptions.md R282, R287) -/

theorem bind_regF_bad {α : Type} {k : Byte} (h : 4 ≤ k.toNat) (f : FReg → Except Err α) :
    (regF k >>= f) = .error (.run (.invalidRegister k .float)) := by
  rw [regF_bad k h, bind_error]

/-- `bind_regX_firstBad` for the float table. -/
theorem bind_regF_firstBad {α : Type} {k b : Byte} {ks : List Byte} {f : FReg → Except Err α}
    (h : firstBadFloat (k :: ks) = some b)
    (hrest : ∀ r, firstBadFloat ks = some b → f r = .error (.run (.invalidRegister b .float))) :
    (regF k >>= f) = .error (.run (.invalidRegister b .float)) := by
  rw [firstBadFloat] at h
  split at h
  next hbad => rw [bind_regF_bad hbad, Option.some.inj h]
  next hgood =>
    obtain ⟨r, rfl⟩ := regF_good k (Nat.not_le.1 hgood)
    rw [regF_ixFloat, bind_ok, hrest r h]

theorem stopsOnBadFloat_of_error {k : Byte} {i : Instr} {s : State} {p : Except Err State}
    (hexec : exec i s = finish s p) (hp : p = .error (.run (.invalidRegister k .float))) :
    StopsOnBadFloat k i s := by
  rw [StopsOnBadFloat, hexec, hp]
  rfl

/-! ## The write of a result (R271, R272) -/

theorem writeResult_f0 (s : State) (src : Config.NanSource) (a b : F64) (r : FpResult) :
    writeResult s .f0 src a b r = .error .zeroRegisterViolation := rfl

/-- A number is written as it is; a NaN is drawn, and every draw is a NaN of its kind. -/
theorem holdsResult_bits (src : Config.NanSource) (n : Nat) (a b : F64) (r : FpResult) :
    HoldsResult r (r.bits src n a b) := by
  cases r with
  | value d => exact ⟨fun _ h => FpResult.value.inj h, nofun, nofun⟩
  | invalid => exact ⟨nofun, fun _ => isQuietNaN_quietNaN _, nofun⟩
  | anyNaN => exact ⟨nofun, nofun, fun _ => isNaN_someNaN _⟩

theorem floatResult_of_writeResult {s t : State} {d : FReg} {src : Config.NanSource} {a b : F64}
    {r : FpResult} (h : writeResult s d src a b r = .ok t) : FloatResult s t d r := by
  obtain ⟨hd, rfl⟩ := writeResult_eq_ok.1 h
  have hread (q : FReg) := State.readF_withFreeDraws (s.setF d (r.bits src s.freeDraws a b))
    (s.freeDraws + r.draws) q
  have hfloats : OnlyFloats s _ := .of_set s d (r.bits src s.freeDraws a b) (s.freeDraws + r.draws)
  refine ⟨?result, fun q hq => (hread q).trans (s.setF_readF_ne d q _ hq), hfloats.ctrl_eq, hfloats.sameX,
    hfloats.pc_eq, ⟨hfloats.halted_eq, s.setF_cycles d _, hfloats.fault_eq⟩,
    ⟨hfloats.prng_eq, s.setF_out d _⟩, fun n => congrArg (·.read n) hfloats.mem_eq⟩
  rw [hread, s.setF_readF_self d _ hd]
  exact holdsResult_bits src _ a b r

theorem exists_floatResult {i : Instr} {s : State} {d : FReg} {src : Config.NanSource} {a b : F64}
    {r : FpResult} (hd : d ≠ .f0) (hexec : exec i s = finish s (writeResult s d src a b r)) :
    ∃ t, exec i s = .next t ∧ FloatResult s t d r := by
  have hwrite := writeResult_eq_ok (s := s) (src := src) (u := a) (v := b) (r := r).2 ⟨hd, rfl⟩
  exact ⟨_, hexec.trans (finish_eq_next.2 hwrite), floatResult_of_writeResult hwrite⟩

/-! ## Float literals (30_encoding.md R99) -/

theorem append_zero_eq_shift {v : Nat} (x : BitVec v) (n : Nat) :
    x ++ 0#n = x.setWidth (v + n) <<< n := by
  simp [BitVec.append_def, BitVec.shiftLeftZeroExtend_eq]

theorem immFloat_eq_shift (imm : Byte) : immFloat imm = imm.setWidth 32 <<< 24 :=
  append_zero_eq_shift imm 24

theorem litFloat_eq_shift (l : Lit24) : litFloat l = l.setWidth 32 <<< 8 :=
  append_zero_eq_shift l 8

/-- The exponent field of an 8-bit literal ends in a 0 bit, so it is never all ones. -/
theorem f32Exp_immFloat_ne (imm : Byte) : f32Exp (immFloat imm) ≠ 255 := by
  have hnat : (immFloat imm).toNat = imm.toNat * 2 ^ 24 := by
    rw [immFloat, BitVec.toNat_append, BitVec.toNat_ofNat, Nat.shiftLeft_eq]
    simp
  rw [f32Exp_toNat, hnat]
  omega

theorem widen_immFloat (imm : Byte) : widen (immFloat imm) = .value (immDouble imm) :=
  if_neg (f32Exp_immFloat_ne imm)

/-! ## The instructions on registers -/

theorem execFloatDss_ixFloat (op : F64 → F64 → FpResult) (src : Config.NanSource) (d r1 r2 : FReg)
    (s : State) : execFloatDss op src (ixFloat d) (ixFloat r1) (ixFloat r2) s =
      finish s (writeResult s d src (s.readF r1) (s.readF r2) (op (s.readF r1) (s.readF r2))) := by
  simp [execFloatDss]

theorem execFloatDsi_ixFloat (op : F64 → F64 → FpResult) (src : Config.NanSource) (d r : FReg) (imm : Byte)
    (s : State) : execFloatDsi op src (ixFloat d) (ixFloat r) imm s =
      finish s (writeResult s d src (s.readF r) (immDouble imm) (op (s.readF r) (immDouble imm))) := by
  simp [execFloatDsi]

theorem exec_fsqrtRI (d : FReg) (s : State) : exec (.fsqrtRI (ixFloat d)) s =
    finish s (writeResult s d .sqrt (s.readF d) 0#64 (fsqrt (s.readF d))) := by
  simp [exec, execFsqrtRI]

/-! ## The rules of the formats -/

/-- An extended operation that runs as `execFloatDss` has the rule of format DSS over the float registers. -/
theorem floatDssRule_of_execFloatDss (o : ExtendedOp) {op : Nat} {mk : Byte → Byte → Byte → Instr}
    {f : F64 → F64 → FpResult} (src : Config.NanSource) (hop : (Config.opcX o).toNat = op)
    (hmk : ∀ w, extendedInstr w o = mk (byte23 w) (byte15 w) (byte7 w))
    (hexec : ∀ d s1 s2 s, exec (mk d s1 s2) s = execFloatDss f src d s1 s2 s) : FloatDssRule op mk f := by
  refine ⟨encodes_extended_threeFields o hop hmk, fun d r1 r2 s hd => ?result, fun r1 r2 s => ?zero,
    fun k1 k2 k3 k s h => ?bad⟩
  case result => exact exists_floatResult hd ((hexec _ _ _ s).trans (execFloatDss_ixFloat f src d r1 r2 s))
  case zero => rw [hexec, execFloatDss_ixFloat, writeResult_f0, finish_zeroRegisterViolation]
  case bad =>
    exact stopsOnBadFloat_of_error (hexec k1 k2 k3 s) (bind_regF_firstBad h fun _ h =>
      bind_regF_firstBad h fun _ h => bind_regF_firstBad h fun _ => nofun)

/-- `floatDssRule_of_execFloatDss` for `execFloatDsi` and format DSI, its literal widened (R99). -/
theorem floatDsiRule_of_execFloatDsi (o : ExtendedOp) {op : Nat} {mk : Byte → Byte → Byte → Instr}
    {f : F64 → F64 → FpResult} (src : Config.NanSource) (hop : (Config.opcX o).toNat = op)
    (hmk : ∀ w, extendedInstr w o = mk (byte23 w) (byte15 w) (byte7 w))
    (hexec : ∀ d r imm s, exec (mk d r imm) s = execFloatDsi f src d r imm s) : FloatDsiRule op mk f := by
  refine ⟨encodes_extended_threeFields o hop hmk, fun d r imm s hd => ?result, fun r imm s => ?zero,
    fun k1 k2 imm k s h => ?bad⟩
  case result =>
    obtain ⟨t, ht, hresult⟩ :=
      exists_floatResult hd ((hexec _ _ _ s).trans (execFloatDsi_ixFloat f src d r imm s))
    exact ⟨t, immDouble imm, immFloat_eq_shift imm ▸ widen_immFloat imm, ht, hresult⟩
  case zero => rw [hexec, execFloatDsi_ixFloat, writeResult_f0, finish_zeroRegisterViolation]
  case bad =>
    exact stopsOnBadFloat_of_error (hexec k1 k2 imm s) (bind_regF_firstBad h fun _ h =>
      bind_regF_firstBad h fun _ => nofun)

/-! ## The obligations -/

/-- Settles O51, by the rule of format DSI. -/
theorem floatImmediateInstructions : Obligations.FloatImmediateInstructions :=
  ⟨floatDsiRule_of_execFloatDsi .faddDsi .add rfl (fun _ => rfl) fun _ _ _ _ => rfl,
    floatDsiRule_of_execFloatDsi .fsubDsi .sub rfl (fun _ => rfl) fun _ _ _ _ => rfl,
    floatDsiRule_of_execFloatDsi .fmultDsi .mul rfl (fun _ => rfl) fun _ _ _ _ => rfl⟩

/-- Settles O52, by the rule of format DSS. -/
theorem floatRegisterInstructions : Obligations.FloatRegisterInstructions :=
  ⟨floatDssRule_of_execFloatDss .faddDss .add rfl (fun _ => rfl) fun _ _ _ _ => rfl,
    floatDssRule_of_execFloatDss .fsubDss .sub rfl (fun _ => rfl) fun _ _ _ _ => rfl,
    floatDssRule_of_execFloatDss .fmultDss .mul rfl (fun _ => rfl) fun _ _ _ _ => rfl⟩

/-- Settles O53: the result of the root is written back to its operand. -/
theorem floatSquareRootInstruction : Obligations.FloatSquareRootInstruction := by
  refine ⟨encodes_extended .fsqrtRI rfl fun w => congrArg Instr.fsqrtRI (byte7_eq_field7 w),
    fun d s hd => exists_floatResult hd (exec_fsqrtRI d s), fun s => ?zero,
    fun k s h => stopsOnBadFloat_of_error rfl (bind_regF_bad h _)⟩
  case zero => rw [exec_fsqrtRI, writeResult_f0, finish_zeroRegisterViolation]

/-- Settles O54: each load writes the widened literal to its own register. -/
theorem floatLoadInstructions : Obligations.FloatLoadInstructions := by
  refine ⟨encodes_extended_literal .loadFimFa rfl fun _ => rfl,
    encodes_extended_literal .loadFimFb rfl fun _ => rfl, fun l s => ?_⟩
  rw [← litFloat_eq_shift]
  exact ⟨exists_floatResult nofun rfl, exists_floatResult nofun rfl⟩

end Sys2Proof.Machine
end

section
/-! PROOF. Float arithmetic (46_extended_float.md R261): the kinds of operand, the opposite of a pattern, one
equation of each operation per kind of its operands, and the three obligations about sums, products and the
values that are not rounded. -/
namespace Sys2Proof.Machine
open Sys2Proof Sys2Proof.Safety

/-! ## Kinds of operand (R260) -/

section Kinds

variable {d : F64}

theorem isNaN_of_isFinite (h : isFinite d = true) : isNaN d = false := by
  simp only [isFinite, decide_eq_true_eq] at h
  simp [isNaN, h]

theorem isInf_of_isFinite (h : isFinite d = true) : isInf d = false := by
  simp only [isFinite, decide_eq_true_eq] at h
  simp [isInf, h]

theorem isNaN_of_isInf (h : isInf d = true) : isNaN d = false := by
  simp only [isInf, Bool.and_eq_true, decide_eq_true_eq] at h
  simp [isNaN, h]

theorem isZero_of_isInf (h : isInf d = true) : isZero d = false := by
  simp only [isInf, Bool.and_eq_true, decide_eq_true_eq] at h
  simp [isZero, h]

theorem isFinite_of_isZero (h : isZero d = true) : isFinite d = true := by
  simp only [isZero, Bool.and_eq_true, decide_eq_true_eq] at h
  simp [isFinite, h]

end Kinds

/-! ## The opposite of a pattern -/

@[simp] theorem f64Exp_neg (d : F64) : f64Exp (f64Neg d) = f64Exp d := by
  have hmask : BitVec.extractLsb' 52 11 (1#64 <<< 63) = 0#11 := rfl
  rw [f64Exp, f64Neg, BitVec.extractLsb'_xor, hmask, BitVec.xor_zero, f64Exp]

@[simp] theorem f64Frac_neg (d : F64) : f64Frac (f64Neg d) = f64Frac d := by
  have hmask : BitVec.extractLsb' 0 52 (1#64 <<< 63) = 0#52 := rfl
  rw [f64Frac, f64Neg, BitVec.extractLsb'_xor, hmask, BitVec.xor_zero, f64Frac]

@[simp] theorem f64Sign_neg (d : F64) : f64Sign (f64Neg d) = !f64Sign d := by
  have hmask : (1#64 <<< 63).getLsbD 63 = true := rfl
  rw [f64Sign, f64Neg, BitVec.getLsbD_xor, hmask, Bool.xor_true, f64Sign]

@[simp] theorem isNaN_neg (d : F64) : isNaN (f64Neg d) = isNaN d := by
  simp [isNaN]

@[simp] theorem isInf_neg (d : F64) : isInf (f64Neg d) = isInf d := by
  simp [isInf]

@[simp] theorem isFinite_neg (d : F64) : isFinite (f64Neg d) = isFinite d := by
  simp [isFinite]

@[simp] theorem f64Int_neg (d : F64) : f64Int (f64Neg d) = -f64Int d := by
  have hmag : f64Mag (f64Neg d) = f64Mag d := by simp [f64Mag, f64Mant, f64Scale]
  cases hs : f64Sign d <;> simp [f64Int, hs, hmag]

theorem units_neg (d : F64) : units (f64Neg d) = -units d := by
  rw [units, f64Int_neg, Int.neg_mul, units]

/-! ## Sums -/

section Sums

variable {a b : F64}

theorem fadd_of_isNaN (h : isNaN a = true ∨ isNaN b = true) : fadd a b = .anyNaN := by
  rcases h with h | h <;> simp [fadd, h]

theorem fadd_inf_inf (ha : isInf a = true) (hb : isInf b = true) :
    fadd a b = if f64Sign a = f64Sign b then .value a else .invalid := by
  by_cases h : f64Sign a = f64Sign b <;>
    simp [fadd, ha, hb, isNaN_of_isInf ha, isNaN_of_isInf hb, h]

theorem fadd_inf_finite (ha : isInf a = true) (hb : isFinite b = true) : fadd a b = .value a := by
  simp [fadd, ha, isNaN_of_isInf ha, isNaN_of_isFinite hb, isInf_of_isFinite hb]

theorem fadd_finite_inf (ha : isFinite a = true) (hb : isInf b = true) : fadd a b = .value b := by
  simp [fadd, hb, isNaN_of_isInf hb, isNaN_of_isFinite ha, isInf_of_isFinite ha]

theorem fadd_zero_sum (ha : isFinite a = true) (hb : isFinite b = true) (h : f64Int a + f64Int b = 0) :
    fadd a b = .value (f64Zero (f64Sign a && f64Sign b)) := by
  simp [fadd, isNaN_of_isFinite, isInf_of_isFinite, ha, hb, h, zeroSumSign]

theorem fadd_nonzero_sum (ha : isFinite a = true) (hb : isFinite b = true) (h : f64Int a + f64Int b ≠ 0) :
    fadd a b = .value (roundUnits (decide (f64Int a + f64Int b < 0))
      ((f64Int a + f64Int b).natAbs * 2 ^ 1074)) := by
  simp [fadd, isNaN_of_isFinite, isInf_of_isFinite, ha, hb, h, -Nat.reducePow]

end Sums

theorem roundQuotient_zero (place : Nat) : roundQuotient 0 place = 0 := by
  simp [roundQuotient]

/-- A zero is what 0 rounds to. -/
theorem f64Zero_eq_roundUnits (sign : Bool) : f64Zero sign = roundUnits sign 0 := by
  have hplace : roundPlace 0 = 1074 := rfl
  have hzero : roundMag 0 = 0 := by
    simp only [roundMag, hplace, roundQuotient_zero]
    rfl
  rw [roundUnits, hzero, f64Zero]

theorem natAbs_mul_two_pow (x : Int) (e : Nat) : (x * 2 ^ e).natAbs = x.natAbs * 2 ^ e := by
  rw [Int.natAbs_mul, Int.natAbs_pow]
  rfl

/-- An exact sum is rounded in units of `2^-2148`, with its own sign. -/
theorem nearestEven_of_int (x : Int) :
    NearestEven (x * 2 ^ 1074) (roundUnits (decide (x < 0)) (x.natAbs * 2 ^ 1074)) := by
  have hpos : (0 : Int) < 2 ^ 1074 := Int.pow_pos (by decide)
  rw [← natAbs_mul_two_pow]
  exact nearestEven_roundUnits _ _ (fun h => decide_eq_true (neg_of_mul_neg_left h hpos.le))
    fun h => decide_eq_false (not_lt.2 ((mul_pos_iff_of_pos_right hpos).1 h).le)

/-- The sum of two finite values is their exact sum, rounded once. -/
theorem fadd_nearestEven {a b : F64} (ha : isFinite a = true) (hb : isFinite b = true) :
    ∃ r, fadd a b = .value r ∧ NearestEven (units a + units b) r ∧
      (f64Int a + f64Int b = 0 → r = f64Zero (f64Sign a && f64Sign b)) := by
  rw [units, units, ← Int.add_mul]
  by_cases h : f64Int a + f64Int b = 0
  · refine ⟨_, fadd_zero_sum ha hb h, ?_, fun _ => rfl⟩
    rw [h, Int.zero_mul, f64Zero_eq_roundUnits]
    exact nearestEven_roundUnits _ 0 nofun nofun
  · exact ⟨_, fadd_nonzero_sum ha hb h, nearestEven_of_int _, fun hzero => absurd hzero h⟩

/-! ## Products -/

theorem fmul_comm (a b : F64) : fmul a b = fmul b a := by
  simp only [fmul, Bool.or_comm, Nat.mul_comm, bne_comm]

section Products

variable {a b : F64}

theorem fmul_of_isNaN (h : isNaN a = true ∨ isNaN b = true) : fmul a b = .anyNaN := by
  rcases h with h | h <;> simp [fmul, h]

theorem fmul_inf_zero (ha : isInf a = true) (hb : isZero b = true) : fmul a b = .invalid := by
  simp [fmul, ha, hb, isNaN_of_isInf ha, isNaN_of_isFinite (isFinite_of_isZero hb)]

theorem fmul_inf_nonzero (ha : isInf a = true) (hnan : isNaN b = false) (hzero : isZero b = false) :
    fmul a b = .value (f64Inf (f64Sign a != f64Sign b)) := by
  simp [fmul, ha, hnan, hzero, isNaN_of_isInf ha, isZero_of_isInf ha]

theorem fmul_finite (ha : isFinite a = true) (hb : isFinite b = true) :
    fmul a b = .value (roundUnits (f64Sign a != f64Sign b) (f64Mag a * f64Mag b)) := by
  simp [fmul, isNaN_of_isFinite, isInf_of_isFinite, ha, hb]

end Products

theorem f64Int_natAbs (d : F64) : (f64Int d).natAbs = f64Mag d := by
  cases hsign : f64Sign d <;> simp [f64Int, hsign]

theorem f64Int_nonneg {d : F64} (h : f64Sign d = false) : 0 ≤ f64Int d := by
  simp [f64Int, h]

theorem f64Int_nonpos {d : F64} (h : f64Sign d = true) : f64Int d ≤ 0 := by
  simp [f64Int, h]

theorem f64Int_mul_nonneg {a b : F64} (h : f64Sign a = f64Sign b) : 0 ≤ f64Int a * f64Int b := by
  cases hb : f64Sign b with
  | false => exact Int.mul_nonneg (f64Int_nonneg (h.trans hb)) (f64Int_nonneg hb)
  | true => exact Int.mul_nonneg_of_nonpos_of_nonpos (f64Int_nonpos (h.trans hb)) (f64Int_nonpos hb)

theorem f64Int_mul_nonpos {a b : F64} (h : f64Sign a ≠ f64Sign b) : f64Int a * f64Int b ≤ 0 := by
  cases hb : f64Sign b with
  | false =>
    have ha : f64Sign a = true := by simpa [hb] using h
    exact Int.mul_nonpos_of_nonpos_of_nonneg (f64Int_nonpos ha) (f64Int_nonneg hb)
  | true =>
    have ha : f64Sign a = false := by simpa [hb] using h
    exact Int.mul_nonpos_of_nonneg_of_nonpos (f64Int_nonneg ha) (f64Int_nonpos hb)

/-! ## Square roots -/

section Roots

variable {a : F64}

theorem fsqrt_of_isNaN (h : isNaN a = true) : fsqrt a = .anyNaN := by
  simp [fsqrt, h]

theorem fsqrt_of_isZero (h : isZero a = true) : fsqrt a = .value a := by
  simp [fsqrt, h, isNaN_of_isFinite (isFinite_of_isZero h)]

theorem fsqrt_of_isInf (h : isInf a = true) (hsign : f64Sign a = false) : fsqrt a = .value a := by
  simp [fsqrt, h, hsign, isNaN_of_isInf h]

theorem fsqrt_of_negative (hnan : isNaN a = false) (hzero : isZero a = false) (hsign : f64Sign a = true) :
    fsqrt a = .invalid := by
  simp [fsqrt, hnan, hzero, hsign]

theorem fsqrt_of_positive (h : isFinite a = true) (hzero : isZero a = false) (hsign : f64Sign a = false) :
    fsqrt a = .value (roundUnits false (sqrtUnits a)) := by
  simp [fsqrt, isNaN_of_isFinite h, isInf_of_isFinite h, hzero, hsign]

end Roots

/-! ## The obligations -/

/-- Settles O56; a difference is the sum with the opposite. -/
theorem floatSumIsCorrectlyRounded : Obligations.FloatSumIsCorrectlyRounded := by
  refine fun a b ha hb => ⟨fadd_nearestEven ha hb, ?difference⟩
  have h := fadd_nearestEven ha ((isFinite_neg b).trans hb)
  rwa [units_neg, f64Int_neg, f64Sign_neg, ← Int.sub_eq_add_neg, ← Int.sub_eq_add_neg] at h

/-- Settles O57: the product of the magnitudes is rounded once, with the product of the signs. -/
theorem floatProductIsCorrectlyRounded : Obligations.FloatProductIsCorrectlyRounded := by
  intro a b ha hb
  refine ⟨_, fmul_finite ha hb, ?_, f64Sign_roundUnits _ _⟩
  rw [← f64Int_natAbs, ← f64Int_natAbs, ← Int.natAbs_mul]
  exact nearestEven_roundUnits _ _
    (fun hneg => bne_iff_ne.2 fun hsign => not_lt.2 (f64Int_mul_nonneg hsign) hneg)
    fun hpos => bne_eq_false_iff_eq.2 (of_not_not fun hsign => not_lt.2 (f64Int_mul_nonpos hsign) hpos)

/-- Settles O59, one equation of an operation each. -/
theorem floatSpecialValues : Obligations.FloatSpecialValues := by
  refine ⟨fun a b h => ⟨fadd_of_isNaN h, fadd_of_isNaN (h.imp_right (isNaN_neg b).trans), fmul_of_isNaN h⟩,
    fun a => fsqrt_of_isNaN, fun a b ha hb => ⟨fadd_inf_inf ha hb, ?infinities⟩,
    fun a b ha hb => ⟨fadd_inf_finite ha hb, fadd_finite_inf hb ha,
      fadd_inf_finite ha ((isFinite_neg b).trans hb), fadd_finite_inf hb ((isInf_neg a).trans ha)⟩,
    fun a b ha hb => ⟨fmul_inf_zero ha hb, (fmul_comm b a).trans (fmul_inf_zero ha hb)⟩,
    fun a b ha hnan hzero => ⟨fmul_inf_nonzero ha hnan hzero,
      (fmul_comm b a).trans (fmul_inf_nonzero ha hnan hzero)⟩,
    fun a => fsqrt_of_isZero, fun a => fsqrt_of_isInf, fun a => fsqrt_of_negative⟩
  case infinities =>
    rw [fsub, fadd_inf_inf ha ((isInf_neg b).trans hb), f64Sign_neg]
    cases f64Sign a <;> cases f64Sign b <;> rfl

end Sys2Proof.Machine
end

section
/-! PROOF. The float square root (46_extended_float.md R261, R268): the middle between a rounded value and any
other is beyond a half place, the model's root with its trailing one lies on the same side of every half place as
the exact root, and the obligation that follows. -/
namespace Sys2Proof.Machine
open Sys2Proof Sys2Proof.Safety Sys2Proof.Claims

/-! ## The middle between the rounded value and another one -/

/-- A finite rounded value, as the quotient that was packed. -/
theorem roundUnits_finite (sign : Bool) {m : Nat} (hlt : m < overflowAt) :
    ∃ k q, RoundsTo m k q ∧ isFinite (roundUnits sign m) = true ∧
      f64Mag (roundUnits sign m) = q * 2 ^ k := by
  obtain ⟨k, q, hr, h⟩ := roundMag_form m
  have hfin : k * 2 ^ 52 + q < infMag := h.overflow.1 hlt
  rw [min_eq_left hfin.le] at hr
  refine ⟨k, q, h, ?_, ?_⟩
  · rw [roundUnits, hr]
    exact isFinite_pack sign _ hfin
  · rw [roundUnits, hr, f64Mag_pack sign _ (hfin.trans infMag_lt), magOf_form k q h.fits h.normal]

/-- Every magnitude is a multiple of the place `2^k`, or below the least significand of that place. -/
theorem magOf_multiple_or_lower (k p : Nat) :
    (∃ j, magOf p = j * 2 ^ k) ∨ (k ≠ 0 ∧ magOf p < 2 ^ 52 * 2 ^ k) := by
  obtain rfl | hk := eq_or_ne k 0
  · exact .inl ⟨magOf p, by simp⟩
  · exact (magOf_mult k p).symm.imp_right fun h => ⟨hk, h⟩

/-- A half place below the rounded value is at most `m`. -/
theorem RoundsTo.half_place_le {m k q j : Nat} (h : RoundsTo m k q) (hj : j < q) :
    (q + j) * 2 ^ (1074 + k) ≤ 2 * m := by
  have hhigh := h.notHigh
  have hmul := Nat.mul_le_mul_right (2 ^ (1074 + k)) (show q + j + 1 ≤ 2 * q by omega)
  rw [Nat.succ_mul, Nat.mul_assoc 2] at hmul
  omega

theorem RoundsTo.le_half_place {m k q j : Nat} (h : RoundsTo m k q) (hj : q < j) :
    2 * m ≤ (q + j) * 2 ^ (1074 + k) := by
  have hlow := h.notLow
  have hmul := Nat.mul_le_mul_right (2 ^ (1074 + k)) (show 2 * q + 1 ≤ q + j by omega)
  rw [Nat.succ_mul, Nat.mul_assoc 2] at hmul
  omega

/-- Between the rounded value and a smaller one, the middle is at most some half place that is at most `m`. -/
theorem RoundsTo.middle_of_lt {m k q p : Nat} (h : RoundsTo m k q) (hp : magOf p < q * 2 ^ k) :
    ∃ c, q * 2 ^ k + magOf p ≤ c * 2 ^ k ∧ c * 2 ^ (1074 + k) ≤ 2 * m := by
  obtain ⟨j, hj⟩ | ⟨hk, hlower⟩ := magOf_multiple_or_lower k p
  · have hjq : j < q := Nat.lt_of_mul_lt_mul_right (hj ▸ hp)
    exact ⟨q + j, by rw [hj, Nat.add_mul], h.half_place_le hjq⟩
  · refine ⟨q + 2 ^ 52, by rw [Nat.add_mul]; omega, ?_⟩
    obtain heq | hgt := (h.normal.resolve_left hk).eq_or_lt
    · have hleast := h.atLeast.resolve_left hk
      rw [← heq, ← Nat.two_mul, Nat.mul_assoc]
      exact Nat.mul_le_mul_left 2 hleast
    · exact h.half_place_le hgt

/-- Between the rounded value and a larger one, the middle is at least some half place that is at least `m`. -/
theorem RoundsTo.middle_of_gt {m k q p : Nat} (h : RoundsTo m k q) (hp : q * 2 ^ k < magOf p) :
    ∃ c, c * 2 ^ k ≤ q * 2 ^ k + magOf p ∧ 2 * m ≤ c * 2 ^ (1074 + k) := by
  obtain ⟨j, hj⟩ | ⟨hk, hlower⟩ := magOf_multiple_or_lower k p
  · have hqj : q < j := Nat.lt_of_mul_lt_mul_right (hj ▸ hp)
    exact ⟨q + j, by rw [hj, Nat.add_mul], h.le_half_place hqj⟩
  · have := Nat.mul_le_mul_right (2 ^ k) (h.normal.resolve_left hk)
    omega

/-! ## A floor root with a trailing one -/

/-- `r` places of the floor root of `n`, and one more unit where the root is inexact. -/
def stickyRoot (r n place : Nat) : Nat := r * place + if r * r = n then 0 else 1

section StickyRoot

variable {r n place c : Nat}

theorem le_stickyRoot : r * place ≤ stickyRoot r n place :=
  Nat.le_add_right _ _

theorem stickyRoot_le (hplace : 0 < place) : stickyRoot r n place ≤ (r + 1) * place := by
  rw [Nat.succ_mul]
  unfold stickyRoot
  split <;> omega

theorem sq_le_of_mul_le_stickyRoot (hle : r * r ≤ n) (hplace : 2 ≤ place)
    (h : c * place ≤ stickyRoot r n place) : c * c ≤ n := by
  have hlt : c * place < (r + 1) * place := by
    rw [Nat.succ_mul]
    unfold stickyRoot at h
    split at h <;> omega
  have hc : c ≤ r := Nat.lt_succ_iff.1 (Nat.lt_of_mul_lt_mul_right hlt)
  exact (Nat.mul_le_mul hc hc).trans hle

theorem le_sq_of_stickyRoot_le_mul (hlt : n < (r + 1) * (r + 1)) (hplace : 0 < place)
    (h : stickyRoot r n place ≤ c * place) : n ≤ c * c := by
  unfold stickyRoot at h
  split at h
  next hexact =>
    have hc : r ≤ c := Nat.le_of_mul_le_mul_right h hplace
    exact hexact ▸ Nat.mul_le_mul hc hc
  next =>
    have hc : r < c := Nat.lt_of_mul_lt_mul_right h
    exact hlt.le.trans (Nat.mul_le_mul hc hc)

end StickyRoot

/-! ## The radicand of a positive finite value -/

/-- The exponent of the last place of the floor root, in units of `2^-2148`. -/
def sqrtPlace (d : F64) : Nat := f64Scale d / 2 + 1556

theorem sqrtUnits_eq_stickyRoot (d : F64) :
    sqrtUnits d = stickyRoot (isqrt 83 (sqrtRadicand d)) (sqrtRadicand d) (2 ^ sqrtPlace d) := rfl

theorem two_le_place (d : F64) : 2 ≤ 2 ^ sqrtPlace d :=
  Nat.le_self_pow (by unfold sqrtPlace; omega) 2

theorem f64Mant_lt (d : F64) : f64Mant d < 2 ^ 53 := by
  have hfrac : f64Frac d < 2 ^ 52 := BitVec.isLt _
  unfold f64Mant
  split <;> omega

theorem f64Mant_pos {d : F64} (h : isZero d = false) : 0 < f64Mant d := by
  unfold f64Mant
  split
  next hexp =>
    simp only [isZero, hexp, decide_true, Bool.true_and, decide_eq_false_iff_not] at h
    omega
  next => omega

theorem f64Scale_lt (d : F64) : f64Scale d < 2047 := by
  have hexp : f64Exp d < 2 ^ 11 := BitVec.isLt _
  unfold f64Scale
  omega

theorem sqrtRadicand_lt (d : F64) : sqrtRadicand d < 2 ^ 83 * 2 ^ 83 := by
  have hpow : 2 ^ (110 + f64Scale d % 2) ≤ 2 ^ 111 := Nat.pow_le_pow_right (by decide) (by omega)
  have hmant := f64Mant_lt d
  calc f64Mant d * 2 ^ (110 + f64Scale d % 2) ≤ 2 ^ 53 * 2 ^ 111 := Nat.mul_le_mul hmant.le hpow
    _ < 2 ^ 83 * 2 ^ 83 := by decide

theorem le_sqrtRadicand {d : F64} (h : isZero d = false) : 2 ^ 55 * 2 ^ 55 ≤ sqrtRadicand d := by
  have hpow : 2 ^ 110 ≤ 2 ^ (110 + f64Scale d % 2) := Nat.pow_le_pow_right (by decide) (by omega)
  calc 2 ^ 55 * 2 ^ 55 ≤ 1 * 2 ^ 110 := by decide
    _ ≤ sqrtRadicand d := Nat.mul_le_mul (f64Mant_pos h) hpow

/-- Places of the floor root squared are units of the value: the scale left is even. -/
theorem sqrtRadicand_mul_place (d : F64) :
    sqrtRadicand d * (2 ^ sqrtPlace d) ^ 2 = f64Mag d * 2 ^ 1074 * (2 ^ 1074) ^ 2 := by
  have regroup (u a b v e : Nat) (h : a + b * 2 = v + e + e * 2) :
      u * 2 ^ a * (2 ^ b) ^ 2 = u * 2 ^ v * 2 ^ e * (2 ^ e) ^ 2 := by
    simp only [Nat.mul_assoc, ← Nat.pow_add, ← Nat.pow_mul, h]
  exact regroup _ _ _ _ _ (by unfold sqrtPlace; omega)

theorem isqrt_sqrtRadicand (d : F64) :
    isqrt 83 (sqrtRadicand d) * isqrt 83 (sqrtRadicand d) ≤ sqrtRadicand d ∧
    sqrtRadicand d < (isqrt 83 (sqrtRadicand d) + 1) * (isqrt 83 (sqrtRadicand d) + 1) :=
  isqrt_spec 83 _ (sqrtRadicand_lt d)

/-- The floor root has more than 53 bits. -/
theorem le_isqrt_sqrtRadicand {d : F64} (h : isZero d = false) : 2 ^ 55 ≤ isqrt 83 (sqrtRadicand d) :=
  Nat.lt_succ_iff.1 (Nat.mul_self_lt_mul_self_iff.1
    ((le_sqrtRadicand h).trans_lt (isqrt_sqrtRadicand d).2))

theorem isqrt_sqrtRadicand_lt (d : F64) : isqrt 83 (sqrtRadicand d) < 2 ^ 83 :=
  Nat.mul_self_lt_mul_self_iff.1 ((isqrt_sqrtRadicand d).1.trans_lt (sqrtRadicand_lt d))

/-- A root does not overflow. -/
theorem sqrtUnits_lt_overflowAt (d : F64) : sqrtUnits d < overflowAt := by
  have hscale := f64Scale_lt d
  have hplace : 83 + sqrtPlace d ≤ 3118 := by
    unfold sqrtPlace
    omega
  rw [sqrtUnits_eq_stickyRoot]
  calc stickyRoot (isqrt 83 (sqrtRadicand d)) (sqrtRadicand d) (2 ^ sqrtPlace d)
    _ ≤ (isqrt 83 (sqrtRadicand d) + 1) * 2 ^ sqrtPlace d := stickyRoot_le (Nat.two_pow_pos _)
    _ ≤ 2 ^ 83 * 2 ^ sqrtPlace d := Nat.mul_le_mul_right _ (isqrt_sqrtRadicand_lt d)
    _ = 1 * 2 ^ (83 + sqrtPlace d) := by rw [Nat.one_mul, Nat.pow_add]
    _ < overflowAt := mul_two_pow_lt_overflowAt (by decide) hplace

/-- The floor root is finer than half the place of its rounding. -/
theorem sqrtPlace_lt {d : F64} {k q : Nat} (h : isZero d = false) (hr : RoundsTo (sqrtUnits d) k q) :
    sqrtPlace d < 1074 + k := by
  have hle : 2 ^ 55 * 2 ^ sqrtPlace d ≤ sqrtUnits d := by
    rw [sqrtUnits_eq_stickyRoot]
    exact (Nat.mul_le_mul_right _ (le_isqrt_sqrtRadicand h)).trans le_stickyRoot
  have hlt := hle.trans_lt hr.below
  rw [← Nat.pow_add, ← Nat.pow_add] at hlt
  have := (Nat.pow_lt_pow_iff_right (by decide)).1 hlt
  omega

/-! ## The rounded root -/

/-- A half place of the rounding is a whole number of places of the floor root. -/
theorem exists_half_places_eq {d : F64} {k : Nat} (h : sqrtPlace d < 1074 + k) :
    ∃ j, ∀ c, c * 2 ^ (1074 + k) = 2 * (c * 2 ^ j * 2 ^ sqrtPlace d) := by
  obtain ⟨j, hj⟩ : ∃ j, 1074 + k = j + sqrtPlace d + 1 := ⟨1074 + k - (sqrtPlace d + 1), by omega⟩
  refine ⟨j, fun c => ?_⟩
  rw [hj, Nat.pow_succ, Nat.pow_add]
  ring

theorem le_iff_le_of_scaled {x y u v a b : Nat} (ha : 0 < a) (hb : 0 < b) (hx : x * a = u * b)
    (hy : y * a = v * b) : x ≤ y ↔ u ≤ v := by
  rw [← Nat.mul_le_mul_right_iff ha, hx, hy, Nat.mul_le_mul_right_iff hb]

section RoundedRoot

variable {d : F64} {c j k : Nat}

/-- `c` half places squared: in units of `2^-1074` on the left, in places of the floor root on the right. -/
theorem half_places_sq (hj : c * 2 ^ (1074 + k) = 2 * (c * 2 ^ j * 2 ^ sqrtPlace d)) :
    (c * 2 ^ k) ^ 2 * (2 ^ 1074) ^ 2 = 4 * (c * 2 ^ j * (c * 2 ^ j)) * (2 ^ sqrtPlace d) ^ 2 := by
  rw [← Nat.mul_pow, Nat.mul_assoc c, Nat.mul_comm (2 ^ k), ← Nat.pow_add, hj]
  ring

/-- The value in the same two units. -/
theorem value_scaled (d : F64) : 4 * (f64Mag d * 2 ^ 1074) * (2 ^ 1074) ^ 2 =
    4 * sqrtRadicand d * (2 ^ sqrtPlace d) ^ 2 := by
  rw [Nat.mul_assoc, ← sqrtRadicand_mul_place, Nat.mul_assoc]

theorem half_places_sq_le_iff (hj : c * 2 ^ (1074 + k) = 2 * (c * 2 ^ j * 2 ^ sqrtPlace d)) :
    (c * 2 ^ k) ^ 2 ≤ 4 * (f64Mag d * 2 ^ 1074) ↔ c * 2 ^ j * (c * 2 ^ j) ≤ sqrtRadicand d := by
  rw [le_iff_le_of_scaled (by positivity) (by positivity) (half_places_sq hj) (value_scaled d)]
  exact Nat.mul_le_mul_left_iff (by decide)

theorem le_half_places_sq_iff (hj : c * 2 ^ (1074 + k) = 2 * (c * 2 ^ j * 2 ^ sqrtPlace d)) :
    4 * (f64Mag d * 2 ^ 1074) ≤ (c * 2 ^ k) ^ 2 ↔ sqrtRadicand d ≤ c * 2 ^ j * (c * 2 ^ j) := by
  rw [le_iff_le_of_scaled (by positivity) (by positivity) (value_scaled d) (half_places_sq hj)]
  exact Nat.mul_le_mul_left_iff (by decide)

/-- A half place at most the model's root is at most the exact root. -/
theorem sq_le_of_half_places_le (h : sqrtPlace d < 1074 + k) (hc : c * 2 ^ (1074 + k) ≤ 2 * sqrtUnits d) :
    (c * 2 ^ k) ^ 2 ≤ 4 * (f64Mag d * 2 ^ 1074) := by
  obtain ⟨j, hj⟩ := exists_half_places_eq h
  rw [hj, sqrtUnits_eq_stickyRoot] at hc
  obtain ⟨hfloor, -⟩ := isqrt_sqrtRadicand d
  exact (half_places_sq_le_iff (hj c)).2
    (sq_le_of_mul_le_stickyRoot hfloor (two_le_place d) (Nat.le_of_mul_le_mul_left hc (by decide)))

/-- A half place at least the model's root is at least the exact root. -/
theorem le_sq_of_le_half_places (h : sqrtPlace d < 1074 + k) (hc : 2 * sqrtUnits d ≤ c * 2 ^ (1074 + k)) :
    4 * (f64Mag d * 2 ^ 1074) ≤ (c * 2 ^ k) ^ 2 := by
  obtain ⟨j, hj⟩ := exists_half_places_eq h
  rw [hj, sqrtUnits_eq_stickyRoot] at hc
  obtain ⟨-, hfloor⟩ := isqrt_sqrtRadicand d
  exact (le_half_places_sq_iff (hj c)).2
    (le_sq_of_stickyRoot_le_mul hfloor (Nat.two_pow_pos _) (Nat.le_of_mul_le_mul_left hc (by decide)))

end RoundedRoot

theorem nearestRoot_roundUnits {d : F64} (h : isZero d = false) :
    NearestRoot (f64Mag d) (roundUnits false (sqrtUnits d)) := by
  obtain ⟨k, q, hr, hfinite, hmag⟩ := roundUnits_finite false (sqrtUnits_lt_overflowAt d)
  have hplace : sqrtPlace d < 1074 + k := sqrtPlace_lt h hr
  refine ⟨hfinite, f64Sign_roundUnits _ _, fun e _ => ?_⟩
  rw [hmag, f64Mag_eq e]
  refine ⟨fun hlt => ?_, fun hgt => ?_⟩
  · obtain ⟨c, hmiddle, hc⟩ := hr.middle_of_lt hlt
    exact (Nat.pow_le_pow_left hmiddle 2).trans (sq_le_of_half_places_le hplace hc)
  · obtain ⟨c, hmiddle, hc⟩ := hr.middle_of_gt hgt
    exact (le_sq_of_le_half_places hplace hc).trans (Nat.pow_le_pow_left hmiddle 2)

/-! ## The obligation -/

/-- Settles O58: the operand is positive, so its root is rounded, and the rounded root is the nearest. -/
theorem floatRootIsCorrectlyRounded : Obligations.FloatRootIsCorrectlyRounded :=
  fun _ hfinite hzero hsign => ⟨_, fsqrt_of_positive hfinite hzero hsign, nearestRoot_roundUnits hzero⟩

end Sys2Proof.Machine
end

section
/-! PROOF. Faults and the host's ports (60_exceptions.md R285 to R288, 70_reset_and_hazards.md R320 to R333): what
`reset()` keeps, that each port and each latched fault keeps the invariant, what a fault makes of the machine's
life, and the five obligations about them. -/
namespace Sys2Proof.Machine
open Sys2Proof Sys2Proof.Safety Sys2Proof.Claims

/-! ## What `reset()` keeps (R321, R322) -/

@[simp] theorem controlReset_z (s : State) : (controlReset s).z = s.z := rfl
@[simp] theorem controlReset_mem (s : State) : (controlReset s).mem = s.mem := rfl
@[simp] theorem controlReset_prng (s : State) : (controlReset s).prng = s.prng := rfl
@[simp] theorem controlReset_out (s : State) : (controlReset s).out = s.out := rfl

/-! ## The invariant across the ports and a latched fault -/

theorem inv_controlReset {s : State} (h : Inv s) : Inv (controlReset s) := by
  obtain ⟨hz, -, hwf, hbounded⟩ := h
  exact ⟨hz, rfl, hwf, hbounded⟩

theorem inv_latch {s : State} (h : Inv s) (r : RunError) (addr : Word) : Inv (s.latch r addr) := h

/-- A load that succeeds is a bulk write to memory (20_memory.md R68). -/
theorem loadPort_eq_some_iff {bytes : List Byte} {start : Word} {s t : State} :
    loadPort bytes start s = some t ↔ ∃ m, bulkWrite s.mem start bytes = some m ∧ s.setMem m = t :=
  Option.map_eq_some_iff

theorem inv_loadPort {bytes : List Byte} {start : Word} {s t : State} (h : Inv s)
    (hload : loadPort bytes start s = some t) : Inv t := by
  obtain ⟨hz, hcarry, hwf, hbounded⟩ := h
  obtain ⟨m, hwrite, rfl⟩ := loadPort_eq_some_iff.1 hload
  exact ⟨hz, hcarry, bulkWrite_wf _ _ _ _ hwf hwrite, bulkWrite_bounded _ _ _ _ hbounded hwrite⟩

/-- Every run-fatal fault of a tick keeps the invariant: the count, the beginning of the dispatch and the latch do. -/
theorem inv_of_step_fault {s l : State} {f : Fault} (hs : Inv s) (h : step s = .fault f)
    (hl : f.left = some l) : Inv l := by
  obtain ⟨r, -, ⟨-, rfl⟩ | ⟨-, rfl⟩⟩ := step_fault_left h hl
  · exact inv_latch (inv_countTick hs) r s.pc
  · exact inv_latch (inv_beginDispatch (inv_countTick hs)) r s.pc

/-! ## The life of the machine across a fault (R285, R333) -/

theorem tick_of_run_fatal {s l : State} {f : Fault} (h : step s = .fault f) (hl : f.left = some l) :
    Life.tick (.alive s) = .alive l := by
  simp [Life.tick, h, lifeAfter, hl]

theorem tick_of_process_fatal {s : State} (h : step s = .fault .zeroRegisterViolation) :
    Life.tick (.alive s) = .destroyed := by
  simp [Life.tick, h, lifeAfter, Fault.left]

/-- A tick on a latched fault changes nothing (40_sequencer.md R146). -/
theorem tick_of_faulted {s : State} (h : s.fault ≠ none) : Life.tick (.alive s) = .alive s := by
  simp [Life.tick, step_of_faulted h, lifeAfter]

/-- What a run-fatal fault leaves has the latch set and memory as before the tick (R287). -/
theorem step_fault_latched_mem_eq {s l : State} {f : Fault} (h : step s = .fault f)
    (hl : f.left = some l) : l.fault ≠ none ∧ l.mem = s.mem := by
  obtain ⟨r, -, ⟨-, rfl⟩ | ⟨-, rfl⟩⟩ := step_fault_left h hl
  · simp
  · simp

/-! ## The state that a run-fatal fault leaves, field by field (R287) -/

theorem countTick_latch_eq (s : State) (r : RunError) (addr : Word) : s.countTick.latch r addr =
    { s with cycles := s.cycles + 1, fault := some ⟨r, addr⟩ } := rfl

theorem beginDispatch_latch_eq (s : State) (r : RunError) (addr : Word) :
    s.countTick.beginDispatch.latch r addr =
      { s with
        cycles := s.cycles + 1
        pc := s.pc + 4#32
        ctrl := { s.ctrl with extFnc := false }
        fault := some ⟨r, addr⟩ } := rfl

/-! ## The obligations -/

/-- Settles O13: a fetch fault is raised on the counted state, every other one where the dispatch begins, and a
raise does no more than latch its record. -/
theorem runFatalFaultsArePrecise : Obligations.RunFatalFaultsArePrecise := by
  intro s l f h hl
  obtain ⟨r, hr, ⟨hpc, hleft⟩ | ⟨hpc, hleft⟩⟩ := step_fault_left h hl
  · exact ⟨r, hr, .inl ⟨hpc, hleft.trans (countTick_latch_eq s r s.pc)⟩⟩
  · exact ⟨r, hr, .inr ⟨hpc, hleft.trans (beginDispatch_latch_eq s r s.pc)⟩⟩

/-- Settles O19: the latch that a run-fatal fault sets stops every later tick; a process-fatal one leaves no
state to tick. -/
theorem faultsEndTheRun : Obligations.FaultsEndTheRun := by
  refine ⟨fun s l f h hl => ?_, fun s h => ⟨tick_of_process_fatal h, rfl⟩⟩
  obtain ⟨hlatched, hmem⟩ := step_fault_latched_mem_eq h hl
  exact ⟨tick_of_run_fatal h hl, tick_of_faulted hlatched, rfl, (controlReset_mem l).trans hmem⟩

/-- Settles O16, one port each and the faulting tick. -/
theorem portsAndFaultsKeepInvariant : Obligations.PortsAndFaultsKeepInvariant :=
  fun _ hs => ⟨inv_controlReset hs, fun _ _ _ => inv_loadPort hs, fun _ _ => inv_of_step_fault hs⟩

/-- Settles O17: each is the value that construction names; no memory cell is listed, so each reads 0. -/
theorem constructionValues : Obligations.ConstructionValues :=
  ⟨rfl, rfl, rfl, rfl, rfl, rfl, readF_f0 _, rfl, rfl, rfl, rfl, rfl, rfl, fun _ => rfl⟩

/-- Settles O18: `reset()` writes the fields it restores and copies the others. -/
theorem resetOperation : Obligations.ResetOperation :=
  ⟨fun s => ⟨rfl, rfl, rfl, rfl, rfl, controlReset_z s, rfl, rfl, rfl, rfl, rfl, rfl, rfl, rfl,
    controlReset_mem s, controlReset_prng s, controlReset_out s, rfl⟩, rfl⟩

end Sys2Proof.Machine
end
